-- ==== Sys2Proof/Word.lean ====
section
/-! DEFINITION. The two bit-vector types of IPL-FE: the byte of an image sample and the 32-bit register word
(spec/00_scope.md R7). -/

namespace Sys2Proof

/-- An image sample, unsigned 8 bits (R7, R44). -/
abbrev Byte := BitVec 8

/-- A register, 32 bits (R7). -/
abbrev Word := BitVec 32

end Sys2Proof
end

