-- ==== Sys2Proof/Syntax.lean ====
section
/-! DEFINITION. The commands of IPL-FE: one constructor per row of spec/opcode_table.json. No command word carries an
operand (spec/30_encoding.md R94): operands come from the latched registers. -/

namespace Sys2Proof

/-- The four commands (R92). -/
inductive Instr where
  /-- `blur(buffer, sigma)`, spec/40_blur.md R110. -/
  | blur
  /-- `edges(buffer)`, spec/42_sobel.md R150. -/
  | edges
  /-- `median(buffer, radius)`, spec/43_median.md R170. -/
  | median
  /-- in-place grayscale, spec/41_grayscale.md R140. -/
  | gray
  deriving DecidableEq, Repr

end Sys2Proof
end

