-- ==== Sys2Proof/Decode.lean ====
section
/-! DEFINITION. Decoding of the 32-bit command word, total on every word and rejecting by name
(spec/30_encoding.md R90 to R95), and the encoder (R92). -/

namespace Sys2Proof

/-- Why a command word is no command: the two IllegalCommand details of R93. -/
inductive DecodeError where
  /-- OPCODE not in {1, 2, 3, 4}: detail 0x01. Checked first. -/
  | reservedOpcode
  /-- a legal OPCODE with bits 31:4 not zero: detail 0x02. -/
  | mbzSet
  deriving DecidableEq, Repr

/-- `opcode = v[3:0]` (R91). -/
def opcodeField (v : Word) : BitVec 4 := v.extractLsb' 0 4

/-- `mbz = v[31:4]` (R91). -/
def mbzField (v : Word) : BitVec 28 := v.extractLsb' 4 28

/-- The opcode assignment of R92; every other opcode is reserved (R95). -/
def opcodeInstr (op : BitVec 4) : Option Instr :=
  if op = 0x1#4 then some .blur
  else if op = 0x2#4 then some .edges
  else if op = 0x3#4 then some .median
  else if op = 0x4#4 then some .gray
  else none

/-- The decoder of R93: OPCODE is checked before MBZ. -/
def decode (v : Word) : Except DecodeError Instr :=
  match opcodeInstr (opcodeField v) with
  | none => .error .reservedOpcode
  | some i => if mbzField v = 0#28 then .ok i else .error .mbzSet

/-- The opcode of a command (R92). -/
def instrOpcode : Instr → BitVec 4
  | .blur => 0x1#4
  | .edges => 0x2#4
  | .median => 0x3#4
  | .gray => 0x4#4

/-- The command word of a command: OPCODE in bits 3:0, MBZ zero (R90, R92). -/
def encode (i : Instr) : Word := 0#28 ++ instrOpcode i

/-- The decoder's answer on the low `nbits` bits of `w`; the command word is one 32-bit register value, so no byte
order is involved (R90). -/
def decodeTableWord (nbits w : Nat) : Option Instr :=
  match decode (BitVec.ofNat 32 (w % 2 ^ nbits)) with
  | .ok i => some i
  | .error _ => none

end Sys2Proof
end

