-- ==== Sys2Proof/Config.lean ====
section
/-! DEFINITION. What an implementation of IPL-FE fixes (the named parameters of spec/00_scope.md R8) and the values
the spec leaves open. Every open value is an opaque constant: no proof can see what it is. -/

namespace Sys2Proof

/-- The named parameters of R8. They are held in State as data that no step changes (log 1), so a statement about
every state is a statement about every machine. -/
structure Config.Params where
  /-- `BLOCK_BASE`: host bus address of register offset 0. -/
  blockBase : Nat
  /-- `IMEM_BYTES`: size of the image memory. -/
  imemBytes : Nat
  /-- `SCRATCH_BYTES`: capacity of the scratch memory. -/
  scratchBytes : Nat
  /-- `KMAX_RADIUS`: largest blur kernel radius. -/
  kmaxRadius : Nat
  deriving DecidableEq, Repr

/-- DESIGN CHOICE (log 1): the machine that `State.reset` is, the test configuration of spec/95_test_vectors.md. -/
def Config.testParams : Config.Params :=
  { blockBase := 0x40000000, imemBytes := 0x1000, scratchBytes := 0x800, kmaxRadius := 64 }

/-- Free value (U6, U8; log 2): the byte at an address in a given power-on draw. -/
opaque Config.powerOnByte : Nat → Nat → Byte

/-- Free value (U7, R222; log 11): the byte an abandoned command leaves at an address of its output range; the first
argument numbers the abandonment. -/
opaque Config.abandonedByte : Nat → Nat → Byte

/-- Free value (U5; log 12): whether `EXP32(-n * 2^-149)` is the upper of the two candidates, asked only where the
interval computation does not settle the rounding. -/
opaque Config.exp32RoundsUp : Nat → Bool

/-- Free value (log 13): the 32-bit pattern of a NaN result. No command produces one. -/
opaque Config.nanPattern : Word

/-- Free value (log 5): what script variable number `t` holds before any statement of the script has set it. -/
opaque Config.unsetVariable : Nat → Word

end Sys2Proof
end

