-- ==== Sys2Proof/Machine/HostScript.lean ====
section
/-! DEFINITION. Host scripts (spec/30_encoding.md R96 to R98): the register names and offsets of spec/10_state.md R42,
the statements, and the expansion of the pseudo-instructions. -/

namespace Sys2Proof.Machine

/-- The 14 registers of R42. -/
inductive Reg where
  | id | status | ctrl | cmd | imgBase | imgWidth | imgHeight | imgChannels
  | sigma | medRadius | kradius | capImem | capScratch | capKradius
  deriving DecidableEq, Repr

/-- The offset column of R42. -/
def Reg.offset : Reg → Nat
  | .id => 0x00
  | .status => 0x04
  | .ctrl => 0x08
  | .cmd => 0x0C
  | .imgBase => 0x10
  | .imgWidth => 0x14
  | .imgHeight => 0x18
  | .imgChannels => 0x1C
  | .sigma => 0x20
  | .medRadius => 0x24
  | .kradius => 0x28
  | .capImem => 0x2C
  | .capScratch => 0x30
  | .capKradius => 0x34

/-- Every register, in the order of R42. -/
def Reg.all : List Reg :=
  [.id, .status, .ctrl, .cmd, .imgBase, .imgWidth, .imgHeight, .imgChannels,
   .sigma, .medRadius, .kradius, .capImem, .capScratch, .capKradius]

/-- The register at a word-aligned offset, if the offset is not reserved (R42, R61). -/
def Reg.atOffset (o : Nat) : Option Reg := Reg.all.find? fun r => r.offset == o

/-- The widths of a HOST access: 1, 2 or 4 bytes (R63, R64). -/
inductive Width where
  | w1 | w2 | w4
  deriving DecidableEq, Repr

/-- The width in bytes. -/
def Width.bytes : Width → Nat
  | .w1 => 1
  | .w2 => 2
  | .w4 => 4

/-- What a statement addresses: a register by name, `imem+o`, or a host bus address written out. -/
inductive Target where
  | reg (r : Reg)
  | imem (o : Nat)
  | bus (addr : Nat)
  deriving DecidableEq, Repr

/-- Labels: those a script writes, and those the expansion of `wait` makes (unique per use, R98). -/
inductive Label where
  | user (n : Nat)
  | generated (n : Nat)
  deriving DecidableEq, Repr

/-- The statements of R96. Script variables are numbered. `wr NAME, v` is `.wr .w4 (.reg NAME) v`; `wrb`, `wrh` and
`wrw` are `.wr` of width 1, 2 and 4 at `.imem o`; the reads likewise. -/
inductive Stmt where
  | wr (w : Width) (t : Target) (v : Word)
  | rd (w : Width) (t : Target) (x : Nat)
  | label (l : Label)
  | bnz (x : Nat) (mask : Word) (l : Label)
  | branch (l : Label)
  | halt
  deriving DecidableEq, Repr

/-- What a script is written in: a statement of R96, `cmd` of R97, or a pseudo-instruction of R98. -/
inductive Pseudo where
  | stmt (st : Stmt)
  | cmd (v : Word)
  | wait (x : Nat)
  | image (b w h c : Word)
  | blur (sigma : Word) (x : Nat)
  | edges (x : Nat)
  | median (r : Word) (x : Nat)
  | gray (x : Nat)
  | ack
  | loadb (o : Nat) (bytes : List Byte)
  deriving DecidableEq, Repr

/-- `wr NAME, v` (R96). -/
def wrReg (r : Reg) (v : Word) : Stmt := .wr .w4 (.reg r) v

/-- `cmd v` is `wr CMD, v` (R97). -/
def cmdStmt (v : Word) : Stmt := wrReg .cmd v

/-- `W1: rd STATUS -> x ; bnz x, 0x1, W1` with the label number `k` of this use (R98). -/
def waitStmts (x k : Nat) : List Stmt :=
  [.label (.generated k), .rd .w4 (.reg .status) x, .bnz x 0x1#32 (.generated k)]

/-- `loadb imem+o, b0, b1, ...`: one 1-byte write per byte (R98). -/
def loadbStmts (o : Nat) : List Byte → List Stmt
  | [] => []
  | b :: bs => .wr .w1 (.imem o) (b.setWidth 32) :: loadbStmts (o + 1) bs

/-- The expansion table of R98; `k` is the label number a `wait` in it takes. -/
def Pseudo.expandOne (k : Nat) : Pseudo → List Stmt
  | .stmt st => [st]
  | .cmd v => [cmdStmt v]
  | .wait x => waitStmts x k
  | .image b w h c => [wrReg .imgBase b, wrReg .imgWidth w, wrReg .imgHeight h, wrReg .imgChannels c]
  | .blur s x => wrReg .sigma s :: cmdStmt 0x1#32 :: waitStmts x k
  | .edges x => cmdStmt 0x2#32 :: waitStmts x k
  | .median r x => wrReg .medRadius r :: cmdStmt 0x3#32 :: waitStmts x k
  | .gray x => cmdStmt 0x4#32 :: waitStmts x k
  | .ack => [wrReg .status 0x0000000E#32]
  | .loadb o bytes => loadbStmts o bytes

/-- A whole script's expansion: the pseudo-instruction at position `k` takes label number `k`, so the labels of `wait`
are unique per use (R98). -/
def Pseudo.expandFrom (k : Nat) : List Pseudo → List Stmt
  | [] => []
  | p :: ps => p.expandOne k ++ Pseudo.expandFrom (k + 1) ps

/-- A whole script's expansion, from its first line. -/
def Pseudo.expand (ps : List Pseudo) : List Stmt := Pseudo.expandFrom 0 ps

/-- The position of a label in a script: where its statement stands. -/
def labelPosition (l : Label) : List Stmt → Option Nat
  | [] => none
  | st :: rest => if st = .label l then some 0 else (labelPosition l rest).map (· + 1)

/-- The labels a script defines, in order. -/
def definedLabels : List Stmt → List Label
  | [] => []
  | .label l :: rest => l :: definedLabels rest
  | _ :: rest => definedLabels rest

/-- The labels a script branches to. -/
def branchTargets : List Stmt → List Label
  | [] => []
  | .bnz _ _ l :: rest => l :: branchTargets rest
  | .branch l :: rest => l :: branchTargets rest
  | _ :: rest => branchTargets rest

end Sys2Proof.Machine
end

