-- ==== Sys2Proof/Machine/State.lean ====
section
/-! DEFINITION. The state of IPL-FE as plain data (spec/10_state.md R20 to R53), the reasons a step can stop, and the
state after reset. -/

namespace Sys2Proof.Machine

/-- A byte memory: the bytes known to have been written, as (address, byte) pairs with strictly rising addresses, over
the power-on draw `draw` that every other byte comes from (R221; log 2). -/
structure Memory where
  cells : List Host.Cell
  draw : Nat
  deriving DecidableEq, Repr

/-- The fields of `STATUS` that are not reserved (R24). -/
structure Status where
  busy : Bool
  done : Bool
  err : Bool
  hostErr : Bool
  errCode : BitVec 4
  errDetail : BitVec 8
  deriving DecidableEq, Repr

/-- The latched command L (R46). -/
structure Latch where
  cmd : Word
  base : Word
  w : Word
  h : Word
  c : Word
  sigma : Word
  r : Word
  deriving DecidableEq, Repr

/-- The bus master HOST running a host script (R6, R96): the script, the position in it, whether it has ended, and the
script variables set so far, latest first. -/
structure HostAgent where
  script : List Stmt
  position : Nat
  halted : Bool
  vars : List (Nat × Word)
  deriving DecidableEq, Repr

/-- Whose event comes next in the one total order of R72: a HOST access, the ENGINE completion step, or the reset
input (asserted while powered, or power-on). -/
inductive Turn where
  | host
  | engine
  | reset
  | powerOn
  deriving DecidableEq, Repr

/-- The machine. -/
structure State where
  /-- The parameters of R8; no step changes them (log 1). -/
  params : Config.Params
  /-- `STATUS` (R24). `STATUS.BUSY` is also the sequencer phase (R51). -/
  status : Status
  /-- `CTRL.IRQ_EN` (R32). -/
  irqEn : Bool
  /-- `CMD` (R33). -/
  cmd : Word
  /-- `IMG_BASE` (R34). -/
  imgBase : Word
  /-- `IMG_WIDTH` (R35). -/
  imgWidth : Word
  /-- `IMG_HEIGHT` (R36). -/
  imgHeight : Word
  /-- `IMG_CHANNELS` (R37). -/
  imgChannels : Word
  /-- `SIGMA` (R38). -/
  sigma : Word
  /-- `MED_RADIUS` (R39). -/
  medRadius : Word
  /-- `KRADIUS` (R40). -/
  kradius : Word
  /-- The image memory `IMEM` (R44). -/
  imem : Memory
  /-- The latched command L (R46). -/
  latch : Latch
  /-- The scratch memory `SCRATCH` (R45); the padded canvas lives in it (R50). -/
  scratch : Memory
  /-- The kernel tap store `KT` (R47). -/
  kt : List Word
  /-- The median histogram `HIST` (R48). -/
  hist : List Word
  /-- The cyclic row buffer of the x-derivative, `DXB` (R49): row slots 0, 1, 2. -/
  dxb : List (List (BitVec 16))
  /-- The cyclic row buffer of the y-derivative, `DYB` (R49): row slots 0, 1, 2. -/
  dyb : List (List (BitVec 16))
  /-- The bus master (R6, R96). -/
  host : HostAgent
  /-- The model's own: the turns still to come, the free choice of the event order (R72, R224; log 3). -/
  sched : List Turn
  /-- The model's own: the number of the next draw of free bytes (log 2, log 11). -/
  freeNext : Nat
  deriving DecidableEq, Repr

/-- Why a step stops. Both reasons are about HOST, not about a command: no command stops the machine. -/
inductive Fault where
  /-- Raised by a HOST statement whose bus address is not in `BLOCK_BASE .. BLOCK_BASE + 0x01FF_FFFF`: the spec gives
  such an access no target (R60). Safe: the model stops where a system would go on elsewhere (log 7). -/
  | outsideBlock
  /-- Raised by a branch of a host script to a label the script does not define (R96 gives it no meaning). Safe
  (log 6). -/
  | undefinedLabel
  deriving DecidableEq, Repr

/-- Why an instruction has no meaning in the model. -/
inductive Refusal where
  /-- Raised by an arm of `exec` whose instruction has not been given a meaning. Safe. No arm does this now. -/
  | notModelled (mnemonic : String)
  deriving DecidableEq, Repr

/-- `STATUS` after reset (R53). -/
def Status.reset : Status :=
  { busy := false, done := false, err := false, hostErr := false, errCode := 0#4, errDetail := 0#8 }

/-- DESIGN CHOICE (log 8): L before the first command; the spec leaves it unspecified and unobservable (R46). -/
def Latch.reset : Latch :=
  { cmd := 0#32, base := 0#32, w := 0#32, h := 0#32, c := 0#32, sigma := 0#32, r := 0#32 }

/-- A bus master with no script (log 15). -/
def HostAgent.reset : HostAgent := { script := [], position := 0, halted := false, vars := [] }

/-- The machine after power-on reset (R53, R220, R221), for any parameters and any number of a
power-on draw (IMEM and SCRATCH draw separately). The hidden stores
KT, HIST, DXB and DYB take values the spec leaves unspecified and unobservable: DESIGN CHOICE (log 8). -/
def State.resetWith (p : Config.Params) (draw : Nat) : State :=
  { params := p
    status := Status.reset
    irqEn := false
    cmd := 0x00000000#32
    imgBase := 0#32
    imgWidth := 0#32
    imgHeight := 0#32
    imgChannels := 0#32
    sigma := 0x00000000#32
    medRadius := 0#32
    kradius := 0#32
    imem := { cells := [], draw := draw }
    latch := Latch.reset
    scratch := { cells := [], draw := draw + 1 }
    kt := List.replicate (2 * p.kmaxRadius + 1) 0#32
    hist := List.replicate 256 0#32
    dxb := [[], [], []]
    dyb := [[], [], []]
    host := HostAgent.reset
    sched := []
    freeNext := draw + 2 }

/-- The machine right after power-on reset, with the spec's test configuration (log 1). -/
def State.reset : State := State.resetWith Config.testParams 0

end Sys2Proof.Machine
end

