-- ==== Sys2Proof/Machine/Ops.lean ====
section
/-! DEFINITION. The shared operations over memory and registers: reading and writing bytes (spec/20_memory.md R62),
the two completions (spec/60_exceptions.md R199, R200), the acknowledge (spec/10_state.md R31), starting a command
(R33, R46), a refused HOST access (R28), and reset (spec/70_reset_and_hazards.md R220 to R222). -/

namespace Sys2Proof.Machine

/-! ### Byte memories -/

/-- The known byte at an address, if a write has set it. -/
def lookupCell : List Host.Cell → Nat → Option Byte
  | [], _ => none
  | (a', v) :: rest, a => if a' = a then some v else lookupCell rest a

/-- The byte at an address: the last value written, else the byte of the memory's power-on draw, a free value
(R44, R221; log 2). -/
def Memory.read (m : Memory) (a : Nat) : Byte := (lookupCell m.cells a).getD (Config.powerOnByte m.draw a)

/-- The `n` bytes from address `a` on. -/
def Memory.readBytes (m : Memory) (a n : Nat) : List Byte := (List.range n).map fun i => m.read (a + i)

/-- Consecutive cells from an address on. -/
def cellsFrom : Nat → List Byte → List Host.Cell
  | _, [] => []
  | a, b :: bs => (a, b) :: cellsFrom (a + 1) bs

/-- Store consecutive bytes from address `a` on; every other byte keeps its value. -/
def Memory.writeBytes (m : Memory) (a : Nat) (bs : List Byte) : Memory :=
  { m with cells :=
      m.cells.filter (fun c => decide (c.1 < a)) ++ cellsFrom a bs
        ++ m.cells.filter (fun c => decide (a + bs.length ≤ c.1)) }

/-- A byte list read as an unsigned integer, first byte least significant (R62). -/
def bytesToNat : List Byte → Nat
  | [] => 0
  | b :: bs => b.toNat + 2 ^ 8 * bytesToNat bs

/-- Byte `i` of a word is `v[8i+7:8i]` (R62); the `n` low bytes in order. -/
def wordBytes (n : Nat) (v : Word) : List Byte := (List.range n).map fun i => v.extractLsb' (8 * i) 8

/-- `MemRead(a, n)`, zero-extended to a register word (R12, R62). -/
def Memory.memRead (m : Memory) (a n : Nat) : Word := BitVec.ofNat 32 (bytesToNat (m.readBytes a n))

/-- `MemWrite(a, n, v)` (R12, R62). -/
def Memory.memWrite (m : Memory) (a n : Nat) (v : Word) : Memory := m.writeBytes a (wordBytes n v)

/-- The addresses of a cell list rise strictly from `lo` on. -/
def cellsRiseFrom (lo : Nat) : List Host.Cell → Bool
  | [] => true
  | (a, _) :: rest => decide (lo ≤ a) && cellsRiseFrom (a + 1) rest

/-- The canonical form of a memory: the listed addresses rise strictly. What an unlisted address reads as is an
unknown draw, so no listed byte can be told equal to it (log 2). -/
def Memory.wf (m : Memory) : Bool := cellsRiseFrom 0 m.cells

/-- Every listed address is below `n`: the memory stores nothing outside its own size. -/
def Memory.within (m : Memory) (n : Nat) : Bool := m.cells.all fun c => decide (c.1 < n)

/-! ### Errors of a command: kinds and details -/

/-- The causes of a failed completion, the rows of R192. -/
inductive CmdError where
  | empty | channels | region | sigmaNeg | sigmaNan | kernel | scratch | opcode | mbz
  deriving DecidableEq, Repr

/-- `ERRCODE` of a cause: 1 InvalidArgument, 2 OutOfMemory, 3 IllegalCommand (R191, R192). -/
def CmdError.code : CmdError → BitVec 4
  | .empty => 1#4
  | .channels => 1#4
  | .region => 1#4
  | .sigmaNeg => 1#4
  | .sigmaNan => 1#4
  | .kernel => 2#4
  | .scratch => 2#4
  | .opcode => 3#4
  | .mbz => 3#4

/-- `ERRDETAIL` of a cause (R192). -/
def CmdError.detail : CmdError → BitVec 8
  | .empty => 0x01#8
  | .channels => 0x02#8
  | .region => 0x03#8
  | .sigmaNeg => 0x04#8
  | .sigmaNan => 0x05#8
  | .kernel => 0x01#8
  | .scratch => 0x02#8
  | .opcode => 0x01#8
  | .mbz => 0x02#8

/-- The cause a rejected command word completes with (R93, R193). -/
def illegalCause : DecodeError → CmdError
  | .reservedOpcode => .opcode
  | .mbzSet => .mbz

/-! ### Completion: the trap entry of IPL-FE, and the acknowledge -/

/-- A failed completion, in one step: ERRCODE and ERRDETAIL written, ERR set, BUSY cleared, nothing else changed
(R199). -/
def State.failWith (e : CmdError) (s : State) : State :=
  { s with status := { s.status with errCode := e.code, errDetail := e.detail, err := true, busy := false } }

/-- A successful completion: ERRCODE and ERRDETAIL 0, DONE set, BUSY cleared (R200). -/
def State.completeOk (s : State) : State :=
  { s with status := { s.status with errCode := 0#4, errDetail := 0#8, done := true, busy := false } }

/-- A HOST write of `v` to STATUS: write one to clear DONE, ERR, HOSTERR (R31, R202). -/
def State.acknowledge (v : Word) (s : State) : State :=
  { s with status := { s.status with
      done := s.status.done && !v.getLsbD 1
      err := s.status.err && !v.getLsbD 2
      hostErr := s.status.hostErr && !v.getLsbD 3 } }

/-- The latch L taken from the live registers when command word `v` starts (R46). -/
def State.latchOf (v : Word) (s : State) : Latch :=
  { cmd := v, base := s.imgBase, w := s.imgWidth, h := s.imgHeight, c := s.imgChannels, sigma := s.sigma,
    r := s.medRadius }

/-- The indivisible effect of a CMD write that starts a command (R33, R46). HOSTERR is not cleared (R28). -/
def State.startCommand (v : Word) (s : State) : State :=
  { s with
    cmd := v
    latch := s.latchOf v
    status := { s.status with busy := true, done := false, err := false, errCode := 0#4, errDetail := 0#8 } }

/-- A refused HOST access: HOSTERR set, everything else unchanged (R28, R203). -/
def State.refuse (s : State) : State := { s with status := { s.status with hostErr := true } }

/-! ### Reset -/

/-- Every register takes its reset value and the phase is IDLE (R53, R220). IMEM, the hidden stores (log 10), HOST
and the schedule stand as they are. -/
def State.resetRegisters (s : State) : State :=
  { s with
    status := Status.reset
    irqEn := false
    cmd := 0x00000000#32
    imgBase := 0#32
    imgWidth := 0#32
    imgHeight := 0#32
    imgChannels := 0#32
    sigma := 0x00000000#32
    medRadius := 0#32
    kradius := 0#32 }

/-- The length of the running command's output range, which starts at `L.base`: the image region for BLUR and MEDIAN,
one channel of it for EDGES and GRAY, nothing for an illegal word (R222). -/
def Latch.outputLength (l : Latch) : Nat :=
  match decode l.cmd with
  | .error _ => 0
  | .ok .blur => l.w.toNat * l.h.toNat * l.c.toNat
  | .ok .median => l.w.toNat * l.h.toNat * l.c.toNat
  | .ok .edges => l.w.toNat * l.h.toNat
  | .ok .gray => l.w.toNat * l.h.toNat

/-- The bytes an abandoned command leaves in its output range, as far as the range lies in IMEM: free values (R222;
log 11). -/
def State.abandonedBytes (s : State) : List Byte :=
  (List.range (min s.latch.outputLength (s.params.imemBytes - s.latch.base.toNat))).map fun i =>
    Config.abandonedByte s.freeNext (s.latch.base.toNat + i)

/-- Reset asserted while BUSY: the output range of the abandoned command becomes unspecified (R222). -/
def State.abandonCommand (s : State) : State :=
  { s with imem := s.imem.writeBytes s.latch.base.toNat s.abandonedBytes, freeNext := s.freeNext + 1 }

/-- Reset asserted while the block is powered (R220 to R222). -/
def State.warmReset (s : State) : State :=
  if s.status.busy then s.abandonCommand.resetRegisters else s.resetRegisters

/-- Power-on reset: the machine of `State.resetWith` with a fresh draw for every byte (R220, R221). HOST and the
schedule, which are outside the block, stand as they are. -/
def State.powerOnReset (s : State) : State :=
  { State.resetWith s.params s.freeNext with host := s.host, sched := s.sched }

end Sys2Proof.Machine
end

