-- ==== Sys2Proof/Machine/Flags.lean ====
section
/-! DEFINITION. The flags of IPL-FE: the STATUS and CTRL words as HOST reads them (spec/10_state.md R24, R32) and the
interrupt output (R43). IPL-FE has no condition codes (R52). -/

namespace Sys2Proof.Machine

/-- `STATUS` as a word: reserved bits read 0 (R24). -/
def Status.word (st : Status) : Word :=
  0#8 ++ st.errDetail ++ 0#4 ++ st.errCode ++ 0#4 ++ BitVec.ofBool st.hostErr ++ BitVec.ofBool st.err
    ++ BitVec.ofBool st.done ++ BitVec.ofBool st.busy

/-- `CTRL` as a word: bit 0 is IRQ_EN, the rest read 0 (R32). -/
def ctrlWord (irqEn : Bool) : Word := 0#31 ++ BitVec.ofBool irqEn

/-- The level output `IRQ = CTRL.IRQ_EN AND (DONE OR ERR)`; HOSTERR does not drive it (R43, R201; log 19). -/
def State.irq (s : State) : Bool := s.irqEn && (s.status.done || s.status.err)

/-- The sequencer phase (R51): IDLE or RUN. -/
inductive Phase where
  | idle
  | run
  deriving DecidableEq, Repr

/-- IDLE when BUSY = 0, RUN when BUSY = 1 (R51). -/
def State.phase (s : State) : Phase := if s.status.busy then .run else .idle

/-- The (ERRCODE, ERRDETAIL) pairs that are ever written: none, and the rows of R192. -/
def errorPairs : List (BitVec 4 × BitVec 8) :=
  [(0#4, 0x00#8), (1#4, 0x01#8), (1#4, 0x02#8), (1#4, 0x03#8), (1#4, 0x04#8), (1#4, 0x05#8),
   (2#4, 0x01#8), (2#4, 0x02#8), (3#4, 0x01#8), (3#4, 0x02#8)]

/-- What every STATUS the rules write looks like: DONE and ERR never both set (R27), a pair of R192, all of them clear
while BUSY (R33), the pair 0 with DONE (R200) and not 0 with ERR (R199). -/
def Status.legal (st : Status) : Bool :=
  !(st.done && st.err)
    && errorPairs.contains (st.errCode, st.errDetail)
    && (!st.busy || (!st.done && !st.err && st.errCode == 0#4))
    && (!st.done || st.errCode == 0#4)
    && (!st.err || st.errCode != 0#4)

end Sys2Proof.Machine
end

