-- ==== Sys2Proof/Machine/Bus.lean ====
section
/-! DEFINITION. HOST accesses: the register file (spec/10_state.md R23 to R42), the address map and the access rules
(spec/20_memory.md R60 to R64, R69), and the refusals (spec/60_exceptions.md R203). -/

namespace Sys2Proof.Machine

/-- `ID`, the constant 0x4950_4C01 (R23). -/
def idValue : Word := 0x49504C01#32

/-- What a register reads as; no side effect (R71). -/
def State.readReg (s : State) : Reg → Word
  | .id => idValue
  | .status => s.status.word
  | .ctrl => ctrlWord s.irqEn
  | .cmd => s.cmd
  | .imgBase => s.imgBase
  | .imgWidth => s.imgWidth
  | .imgHeight => s.imgHeight
  | .imgChannels => s.imgChannels
  | .sigma => s.sigma
  | .medRadius => s.medRadius
  | .kradius => s.kradius
  | .capImem => BitVec.ofNat 32 s.params.imemBytes
  | .capScratch => BitVec.ofNat 32 s.params.scratchBytes
  | .capKradius => BitVec.ofNat 32 s.params.kmaxRadius

/-- The busy-locked registers (R203 (e)). -/
def Reg.busyLocked : Reg → Bool
  | .cmd | .imgBase | .imgWidth | .imgHeight | .imgChannels | .sigma | .medRadius => true
  | .id | .status | .ctrl | .kradius | .capImem | .capScratch | .capKradius => false

/-- The read-only registers, whose writes are ignored without HOSTERR (R23, R40, R41, R203). -/
def Reg.readOnly : Reg → Bool
  | .id | .kradius | .capImem | .capScratch | .capKradius => true
  | .status | .ctrl | .cmd | .imgBase | .imgWidth | .imgHeight | .imgChannels | .sigma | .medRadius => false

/-- A register write that is not refused: STATUS is write-one-to-clear (R31), CTRL keeps bit 0 (R32), CMD starts a
command (R33), the parameter registers store the word (R34 to R39), read-only registers ignore it. -/
def State.storeReg (r : Reg) (v : Word) (s : State) : State :=
  match r with
  | .id => s
  | .status => s.acknowledge v
  | .ctrl => { s with irqEn := v.getLsbD 0 }
  | .cmd => s.startCommand v
  | .imgBase => { s with imgBase := v }
  | .imgWidth => { s with imgWidth := v }
  | .imgHeight => { s with imgHeight := v }
  | .imgChannels => { s with imgChannels := v }
  | .sigma => { s with sigma := v }
  | .medRadius => { s with medRadius := v }
  | .kradius => s
  | .capImem => s
  | .capScratch => s
  | .capKradius => s

/-- A HOST write of a register: refused while BUSY if the register is busy-locked (R69, R203 (e)). -/
def State.writeReg (r : Reg) (v : Word) (s : State) : State :=
  if s.status.busy && r.busyLocked then s.refuse else s.storeReg r v

/-! ### The address map (R60, R61) -/

/-- The offset where the IMEM window begins (R61). -/
def imemWindow : Nat := 0x01000000

/-- The size of the host bus space of the block (R60). -/
def blockBytes : Nat := 0x02000000

/-- What an access of width `w` at an offset below 0x0200_0000 reaches. -/
inductive Reached where
  /-- an aligned 4-byte access of a register (R64). -/
  | register (r : Reg)
  /-- an aligned 4-byte access of a reserved offset: reads 0, write ignored, no HOSTERR (R42, R61). -/
  | reserved
  /-- an aligned access inside IMEM, at IMEM byte offset `a` (R63). -/
  | memory (a : Nat)
  /-- a refused access (R61, R63, R64, R69, R203). -/
  | refused
  deriving DecidableEq, Repr

/-- The access rules of R61, R63, R64 and R69 at an offset. -/
def State.reach (s : State) (w : Width) (o : Nat) : Reached :=
  if o < imemWindow then
    if w = .w4 ∧ o % 4 = 0 then
      match Reg.atOffset o with
      | some r => .register r
      | none => .reserved
    else .refused
  else if s.status.busy then .refused
  else if o % w.bytes ≠ 0 then .refused
  else if o - imemWindow < s.params.imemBytes then .memory (o - imemWindow)
  else .refused

/-- A HOST read at an offset: the value it returns (a narrow one zero-extended) and the state after it. A refused read
returns 0 and sets HOSTERR; every other read has no side effect (R71, R203). -/
def State.hostRead (w : Width) (o : Nat) (s : State) : Word × State :=
  match s.reach w o with
  | .register r => (s.readReg r, s)
  | .reserved => (0#32, s)
  | .memory a => (s.imem.memRead a w.bytes, s)
  | .refused => (0#32, s.refuse)

/-- A HOST write of the low bytes of `v` at an offset (R62, R203). -/
def State.hostWrite (w : Width) (o : Nat) (v : Word) (s : State) : State :=
  match s.reach w o with
  | .register r => s.writeReg r v
  | .reserved => s
  | .memory a => { s with imem := s.imem.memWrite a w.bytes v }
  | .refused => s.refuse

/-- The offset a target stands for; none for a bus address outside the block (R60; log 7). -/
def Target.offset? (p : Config.Params) : Target → Option Nat
  | .reg r => some r.offset
  | .imem o => if imemWindow + o < blockBytes then some (imemWindow + o) else none
  | .bus addr =>
    if p.blockBase ≤ addr ∧ addr < p.blockBase + blockBytes then some (addr - p.blockBase) else none

end Sys2Proof.Machine
end

