-- ==== Sys2Proof/Machine/Binary32.lean ====
section
/-! DEFINITION. IEEE 754 binary32 (spec/00_scope.md R13, from general knowledge as the spec says: log 13), rounding to
a byte (R14), and the correctly rounded exponential (spec/40_blur.md R114). Every finite binary32 value is a multiple
of 2^-149, so a finite value is held exactly as a sign and a number of units of 2^-149. -/

namespace Sys2Proof.Machine

/-- A binary32 value. `fin neg u` is `u * 2^-149`, negated when `neg`; zero keeps its sign. -/
inductive F32 where
  | nan
  | inf (neg : Bool)
  | fin (neg : Bool) (units : Nat)
  deriving DecidableEq, Repr

/-- The pattern of +infinity (exponent bits all ones, fraction 0). -/
def infPattern : Nat := 0x7F800000

/-- The units of a 31-bit magnitude pattern below +infinity: exponent field 0 is a subnormal, exponent field `e ≥ 1`
is `(2^23 + fraction) * 2^(e-1)` units (R94, R13). -/
def unitsOfPattern (p : Nat) : Nat :=
  let e := p / 2 ^ 23
  let f := p % 2 ^ 23
  if e = 0 then f else (2 ^ 23 + f) * 2 ^ (e - 1)

/-- The value of a magnitude pattern with a sign. -/
def F32.ofMagnitude (neg : Bool) (p : Nat) : F32 :=
  if p < infPattern then .fin neg (unitsOfPattern p)
  else if p = infPattern then .inf neg
  else .nan

/-- `F32(bits)`: sign bit 31, exponent bits 30:23, fraction bits 22:0 (R94, R13). -/
def F32.ofBits (v : Word) : F32 := F32.ofMagnitude v.msb (v.toNat % 2 ^ 31)

/-- The nearest integer to `n / d`, ties to even. -/
def roundEven (n d : Nat) : Nat :=
  let q := n / d
  let r := n % d
  if d < 2 * r ∨ (2 * r = d ∧ q % 2 = 1) then q + 1 else q

/-- The exponent `k` of the unit in the last place, `2^k` units of 2^-149, for a value of `u` whole units: the
subnormal spacing below `2^24` units, else what leaves 24 significant bits. -/
def ulpExponent (u : Nat) : Nat := if u < 2 ^ 24 then 0 else u.log2 - 23

/-- The magnitude pattern of `num / den` units, rounded to nearest, ties to even, with overflow to infinity and
gradual underflow (R13). With `k` the ulp exponent and `m` the rounded significand, the pattern is `k * 2^23 + m`; the
carry of `m = 2^24` into the exponent is the addition's own. -/
def roundPattern (num den : Nat) : Nat :=
  let k := ulpExponent (num / den)
  min (k * 2 ^ 23 + roundEven num (den * 2 ^ k)) infPattern

/-- `f32(v)` for `v = num / den` units of 2^-149, negated when `neg` (R13). -/
def F32.round (neg : Bool) (num den : Nat) : F32 := F32.ofMagnitude neg (roundPattern num den)

/-- The bit pattern of a value (R94); a NaN's pattern is a free value (log 13). -/
def F32.toBits : F32 → Word
  | .nan => Config.nanPattern
  | .inf neg => BitVec.ofBool neg ++ BitVec.ofNat 31 infPattern
  | .fin neg u => BitVec.ofBool neg ++ BitVec.ofNat 31 (roundPattern u 1)

/-- `toF32(n)`, exact for the integers used (R13). -/
def F32.ofNat (n : Nat) : F32 := .fin false (n * 2 ^ 149)

/-- `+0`. -/
def F32.zero : F32 := .fin false 0

/-- `a +f b` (R13). A first operand +0 returns the second operand, as R13 says (log 14); a zero sum of other operands
is +0 unless both are -0. -/
def F32.add : F32 → F32 → F32
  | .fin false 0, b => b
  | .nan, _ => .nan
  | _, .nan => .nan
  | .inf s, .inf t => if s = t then .inf s else .nan
  | .inf s, .fin _ _ => .inf s
  | .fin _ _, .inf t => .inf t
  | .fin s u, .fin t v =>
    if s = t then F32.round s (u + v) 1
    else if u < v then F32.round t (v - u) 1
    else if v < u then F32.round s (u - v) 1
    else F32.zero

/-- `a *f b` (R13); the exact product of `u` and `v` units is `u * v / 2^149` units. -/
def F32.mul : F32 → F32 → F32
  | .nan, _ => .nan
  | _, .nan => .nan
  | .inf s, .inf t => .inf (s != t)
  | .inf s, .fin t v => if v = 0 then .nan else .inf (s != t)
  | .fin s u, .inf t => if u = 0 then .nan else .inf (s != t)
  | .fin s u, .fin t v => F32.round (s != t) (u * v) (2 ^ 149)

/-- `a /f b` (R13); the exact quotient of `u` and `v` units is `u * 2^149 / v` units. -/
def F32.div : F32 → F32 → F32
  | .nan, _ => .nan
  | _, .nan => .nan
  | .inf _, .inf _ => .nan
  | .inf s, .fin t _ => .inf (s != t)
  | .fin s _, .inf t => .fin (s != t) 0
  | .fin s u, .fin t v =>
    if v = 0 then (if u = 0 then .nan else .inf (s != t))
    else F32.round (s != t) (u * 2 ^ 149) v

/-- `ceil(v)`, the least integer at or above an exact value (R10); `none` where the value is not finite. -/
def F32.ceil : F32 → Option Int
  | .fin false u => some ((u + (2 ^ 149 - 1)) / 2 ^ 149 : Nat)
  | .fin true u => some (-((u / 2 ^ 149 : Nat) : Int))
  | .inf _ => none
  | .nan => none

/-- `roundHA(v) = sign(v) * floor(|v| + 1/2)` for an exact `v = ± num / den` (R14). -/
def roundHA (neg : Bool) (num den : Nat) : Int :=
  let m : Int := ((2 * num + den) / (2 * den) : Nat)
  if neg then -m else m

/-- `sat8(n) = clamp(n, 0, 255)` (R14). -/
def sat8 (n : Int) : Byte := BitVec.ofNat 8 (min (max n 0) 255).toNat

/-- `toByte(v) = sat8(roundHA(v))` of a binary32 accumulator (R14, R119). An infinity saturates; a NaN never reaches
this point (every product and partial sum of R119 is finite). -/
def F32.toByte : F32 → Byte
  | .fin neg u => sat8 (roundHA neg u (2 ^ 149))
  | .inf true => 0#8
  | .inf false => 255#8
  | .nan => Config.nanPattern.setWidth 8

/-! ### The exponential (R114; log 12)

`expNegUnits n` is `EXP32(-n * 2^-149)`. For an argument below 104 it brackets `e^t`, `t = n * 2^-149 / 2^7 < 1`, in
fixed point with 256 fractional bits by Taylor sums, inverts, and squares seven times; where both ends of the bracket
round to one binary32 value that value is the correctly rounded exponential, else a free value chooses between them. -/

/-- Fractional bits of the bracket. -/
def expBits : Nat := 256

/-- Taylor terms. -/
def expTerms : Nat := 60

/-- Horner steps of the Taylor sum of `e^t` with `t = T * 2^-256`, every division rounded down: `j` steps, the last
one with divisor `1`, from the value `acc` of the innermost bracket. -/
def hornerDown (T : Nat) : Nat → Nat → Nat
  | 0, acc => acc
  | j + 1, acc => hornerDown T j (2 ^ expBits + T * acc / ((j + 1) * 2 ^ expBits))

/-- The same with every division rounded up. -/
def hornerUp (T : Nat) : Nat → Nat → Nat
  | 0, acc => acc
  | j + 1, acc => hornerUp T j (2 ^ expBits + (T * acc / ((j + 1) * 2 ^ expBits) + 1))

/-- Square a fixed-point number `j` times, rounding down. -/
def squareDown : Nat → Nat → Nat
  | 0, a => a
  | j + 1, a => squareDown j (a * a / 2 ^ expBits)

/-- Square a fixed-point number `j` times, rounding up. -/
def squareUp : Nat → Nat → Nat
  | 0, a => a
  | j + 1, a => squareUp j (a * a / 2 ^ expBits + 1)

/-- `t = (n * 2^-149) / 2^7` in fixed point: exact. -/
def expArg (n : Nat) : Nat := n * 2 ^ (expBits - 149 - 7)

/-- A lower bound of `e^(-n * 2^-149) * 2^256`. -/
def expLower (n : Nat) : Nat :=
  squareDown 7 (2 ^ expBits * 2 ^ expBits / hornerUp (expArg n) expTerms (2 * 2 ^ expBits))

/-- An upper bound of `e^(-n * 2^-149) * 2^256`. -/
def expUpper (n : Nat) : Nat :=
  squareUp 7 (2 ^ expBits * 2 ^ expBits / hornerDown (expArg n) expTerms (2 ^ expBits) + 1)

/-- `f32` of a fixed-point number with 256 fractional bits. -/
def roundFixed (a : Nat) : F32 := F32.round false a (2 ^ (expBits - 149))

/-- `EXP32(-n * 2^-149)`: exactly 1 at 0; +0 from 104 on, which is past 150 ln 2 (R114). -/
def expNegUnits (n : Nat) : F32 :=
  if n = 0 then F32.ofNat 1
  else if 104 * 2 ^ 149 ≤ n then F32.zero
  else if roundFixed (expLower n) = roundFixed (expUpper n) then roundFixed (expLower n)
  else if Config.exp32RoundsUp n then roundFixed (expUpper n)
  else roundFixed (expLower n)

/-- `EXP32(-q)` for a `q ≥ 0` (R114, R115); the sign of `q` is not consulted, since every `q_k` is non-negative. -/
def F32.expNeg : F32 → F32
  | .fin _ n => expNegUnits n
  | .inf _ => F32.zero
  | .nan => .nan

end Sys2Proof.Machine
end

