-- ==== Sys2Proof/Machine/Operands.lean ====
section
/-! DEFINITION. Operand assembly from the latched command (spec/30_encoding.md R94), the pixel buffer
(spec/20_memory.md R65, R66), the clamped index of every border (spec/00_scope.md R10, R15), and the geometry checks
every command makes (spec/60_exceptions.md R194 to R196). -/

namespace Sys2Proof.Machine

/-- The geometry operands `base, W, H, C` as exact integers (R94). -/
structure Geometry where
  base : Nat
  w : Nat
  h : Nat
  c : Nat
  deriving DecidableEq, Repr

/-- The geometry of the latched command (R46, R94). -/
def Latch.geometry (l : Latch) : Geometry :=
  { base := l.base.toNat, w := l.w.toNat, h := l.h.toNat, c := l.c.toNat }

/-- `W * H * C`, exact. -/
def Geometry.regionBytes (g : Geometry) : Nat := g.w * g.h * g.c

/-- The place of sample (y, x, c) in the row-major, channel-interleaved byte array (R65). -/
def sampleIndex (w c y x ch : Nat) : Nat := (y * w + x) * c + ch

/-- `addr(y, x, c) = base + (y*W + x)*C + c` (R65). -/
def Geometry.addr (g : Geometry) (y x ch : Nat) : Nat := g.base + sampleIndex g.w g.c y x ch

/-- `In(y, x, c)`: the image sample (R66). IMEM cannot change between the start of a command and its completion step
(R69), so reading it at the completion is reading it at the start (log 18). -/
def State.sampleIn (s : State) (g : Geometry) (y x ch : Nat) : Byte := s.imem.read (g.addr y x ch)

/-- A row-major, channel-interleaved byte array of `h` rows, `w` columns and `c` channels, built sample by sample
(R65). -/
def raster (w h c : Nat) (f : Nat → Nat → Nat → Byte) : List Byte :=
  (List.range (h * w * c)).map fun i => f (i / c / w) (i / c % w) (i % c)

/-- `clamp(v, lo, hi) = min(max(v, lo), hi)` (R10). -/
def clamp (v lo hi : Int) : Int := min (max v lo) hi

/-- `clamp(v, 0, n-1)` as an index: clamp-to-edge (R15). -/
def clampIndex (v : Int) (n : Nat) : Nat := (clamp v 0 (n - 1)).toNat

/-- The geometry checks of every legal command, in the order of R198: EMPTY (R194), CHANNELS (R195), REGION (R196,
exact arithmetic). -/
def geometryError (p : Config.Params) (g : Geometry) : Option CmdError :=
  if g.w = 0 ∨ g.h = 0 then some .empty
  else if ¬(g.c = 1 ∨ g.c = 3 ∨ g.c = 4) then some .channels
  else if p.imemBytes < g.base + g.regionBytes then some .region
  else none

end Sys2Proof.Machine
end

