-- ==== Sys2Proof/Machine/Blur.lean ====
section
/-! DEFINITION. BLUR, the Gaussian separable-convolution blur (spec/40_blur.md R110 to R127). -/

namespace Sys2Proof.Machine

/-! ### Sigma (R111 to R113) -/

/-- The sigma check: NaN first, then any value below 0 (R111, R198). -0.0 and +infinity pass. -/
def sigmaError : F32 → Option CmdError
  | .nan => some .sigmaNan
  | .inf true => some .sigmaNeg
  | .inf false => none
  | .fin true u => if u = 0 then none else some .sigmaNeg
  | .fin false _ => none

/-- `sigma <= 10^-6`, compared on exact values (R112), for a sigma that has passed the check. -/
def sigmaIsNoOp : F32 → Bool
  | .nan => false
  | .inf neg => neg
  | .fin neg u => neg || decide (u * 10 ^ 6 ≤ 2 ^ 149)

/-- `r = ceil(toF32(3) *f sigma)`; `none` where the product is not finite, so that r is unbounded (R113). -/
def kernelRadius (sigma : F32) : Option Nat := (F32.mul (F32.ofNat 3) sigma).ceil.map Int.toNat

/-! ### Kernel (R115, R116) -/

/-- `den = toF32(2) *f (sigma *f sigma)` (R115). -/
def kernelDen (sigma : F32) : F32 := F32.mul (F32.ofNat 2) (F32.mul sigma sigma)

/-- `|k - r|`, the distance of tap `k` from the centre (R115 uses only its square). -/
def tapDistance (r k : Nat) : Nat := ((k : Int) - r).natAbs

/-- `e_k = EXP32(-(toF32(i*i) /f den))` for the tap at offset `i = k - r` (R115). -/
def rawWeight (sigma : F32) (r k : Nat) : F32 :=
  F32.expNeg (F32.div (F32.ofNat (tapDistance r k * tapDistance r k)) (kernelDen sigma))

/-- The unnormalised weights `e_0 .. e_2r` (R115). -/
def rawWeights (sigma : F32) (r : Nat) : List F32 := (List.range (2 * r + 1)).map (rawWeight sigma r)

/-- `S`, summed in ascending tap order from +0 (R116). -/
def weightSum (es : List F32) : F32 := es.foldl F32.add F32.zero

/-- The taps `KT[0..2r]`: `w_k = e_k /f S`, as stored patterns (R116, R47). -/
def kernelWeights (sigma : F32) (r : Nat) : List Word :=
  (rawWeights sigma r).map fun e => (F32.div e (weightSum (rawWeights sigma r))).toBits

/-! ### The passes (R119 to R121) -/

/-- `KT[k] *f toF32(get(clamp(p + k - r, 0, n-1)))` (R119). -/
def tapProduct (kt : List Word) (r n : Nat) (get : Nat → Byte) (p k : Nat) : F32 :=
  F32.mul (F32.ofBits (kt.getD k 0#32)) (F32.ofNat (get (clampIndex ((p : Int) + k - r) n)).toNat)

/-- `conv1(get, n, p)`: the products summed in ascending tap order from +0, then rounded to a byte (R119). -/
def conv1 (kt : List Word) (r n : Nat) (get : Nat → Byte) (p : Nat) : Byte :=
  ((List.range (2 * r + 1)).foldl (fun acc k => F32.add acc (tapProduct kt r n get p k)) F32.zero).toByte

/-- The horizontal pass: `T[y][x][c] <- conv1(j => In(y, j, c), W, x)`, the whole of T (R120). -/
def State.horizontalPass (s : State) (g : Geometry) (kt : List Word) (r : Nat) : List Byte :=
  raster g.w g.h g.c fun y x ch => conv1 kt r g.w (fun j => s.sampleIn g y j ch) x

/-- `T[y][x][c]` read from SCRATCH at `(y*W + x)*C + c` (R118). -/
def scratchSample (m : Memory) (g : Geometry) (y x ch : Nat) : Byte := m.read (sampleIndex g.w g.c y x ch)

/-- The vertical pass: `O[y][x][c] = conv1(j => T[j][x][c], H, y)`, reading only T (R121). -/
def verticalPass (m : Memory) (g : Geometry) (kt : List Word) (r : Nat) : List Byte :=
  raster g.w g.h g.c fun y x ch => conv1 kt r g.h (fun j => scratchSample m g j x ch) y

/-- The writes of a successful BLUR past the no-op: KT, T in SCRATCH, the image region, KRADIUS (R110, R122). -/
def blurEffect (g : Geometry) (sigma : F32) (r : Nat) (s : State) : State :=
  let kt := kernelWeights sigma r ++ s.kt.drop (2 * r + 1)
  let scratch := s.scratch.writeBytes 0 (s.horizontalPass g kt r)
  { s with
    kt := kt
    scratch := scratch
    imem := s.imem.writeBytes g.base (verticalPass scratch g kt r)
    kradius := BitVec.ofNat 32 r }

/-- The part of BLUR after the no-op path: radius, kernel capacity, scratch capacity, passes (R113, R117, R118). -/
def blurRun (g : Geometry) (sigma : F32) (s : State) : State :=
  match kernelRadius sigma with
  | none => s.failWith .kernel
  | some r =>
    if s.params.kmaxRadius < r then s.failWith .kernel
    else if s.params.scratchBytes < g.regionBytes then s.failWith .scratch
    else (blurEffect g sigma r s).completeOk

/-- BLUR (R110), with the checks in the order of R198. -/
def execBlur (s : State) : Host.Outcome State Fault Refusal :=
  match geometryError s.params s.latch.geometry with
  | some e => .next (s.failWith e)
  | none =>
    match sigmaError (F32.ofBits s.latch.sigma) with
    | some e => .next (s.failWith e)
    | none =>
      if sigmaIsNoOp (F32.ofBits s.latch.sigma) then .next { s with kradius := 0#32 }.completeOk
      else .next (blurRun s.latch.geometry (F32.ofBits s.latch.sigma) s)

end Sys2Proof.Machine
end

