-- ==== Sys2Proof/Machine/Gray.lean ====
section
/-! DEFINITION. GRAY, the grayscale channel-interleave reduction (spec/41_grayscale.md R140 to R144). -/

namespace Sys2Proof.Machine

/-- `luma(R, G, B) = (299*R + 587*G + 114*B + 500) div 1000` (R141). -/
def luma (r g b : Byte) : Byte := BitVec.ofNat 8 ((299 * r.toNat + 587 * g.toNat + 114 * b.toNat + 500) / 1000)

/-- `reduce(p)` of pixel (y, x): the byte itself for C = 1, luma of channels 0 to 2 otherwise; alpha is not read
(R142). -/
def State.reducePixel (s : State) (g : Geometry) (y x : Nat) : Byte :=
  if g.c = 1 then s.sampleIn g y x 0
  else luma (s.sampleIn g y x 0) (s.sampleIn g y x 1) (s.sampleIn g y x 2)

/-- The W·H reduced bytes in row-major order (R140). -/
def State.grayImage (s : State) (g : Geometry) : List Byte := raster g.w g.h 1 fun y x _ => s.reducePixel g y x

/-- The writes of a successful GRAY: the reduced bytes from `base` on, the tail kept, `IMG_CHANNELS <- 1` (R143). -/
def grayEffect (g : Geometry) (s : State) : State :=
  { s with imem := s.imem.writeBytes g.base (s.grayImage g), imgChannels := 1#32 }

/-- GRAY (R140). -/
def execGray (s : State) : Host.Outcome State Fault Refusal :=
  match geometryError s.params s.latch.geometry with
  | some e => .next (s.failWith e)
  | none => .next (grayEffect s.latch.geometry s).completeOk

end Sys2Proof.Machine
end

