-- ==== Sys2Proof/Machine/Edges.lean ====
section
/-! DEFINITION. EDGES, the Sobel gradient engine with cyclic row buffers (spec/42_sobel.md R150 to R162). The closed
form of R152 to R157 stands first; the meaning runs the mechanism of R158. -/

namespace Sys2Proof.Machine

/-! ### Closed form (R152 to R157), over a grayscale image `gr` of `h` rows and `w` columns -/

/-- `I(i, j)`, the clamped sample (R152). -/
def clampedSample (gr : Nat → Nat → Byte) (w h : Nat) (i j : Int) : Byte := gr (clampIndex i h) (clampIndex j w)

/-- `dx(i, j) = I(i, j+1) - I(i, j-1)` (R153). -/
def sobelDx (gr : Nat → Nat → Byte) (w h i j : Nat) : Int :=
  (clampedSample gr w h i (j + 1)).toNat - (clampedSample gr w h i (j - 1)).toNat

/-- `dy(i, j) = I(i+1, j) - I(i-1, j)` (R154). -/
def sobelDy (gr : Nat → Nat → Byte) (w h i j : Nat) : Int :=
  (clampedSample gr w h (i + 1) j).toNat - (clampedSample gr w h (i - 1) j).toNat

/-- `Gx(y, x)`, the vertical smoothing of dx (R155, R159). -/
def sobelGx (gr : Nat → Nat → Byte) (w h y x : Nat) : Int :=
  sobelDx gr w h (clampIndex (y - 1) h) x + 2 * sobelDx gr w h y x + sobelDx gr w h (clampIndex (y + 1) h) x

/-- `Gy(y, x)`, the horizontal smoothing of dy (R156). -/
def sobelGy (gr : Nat → Nat → Byte) (w h y x : Nat) : Int :=
  sobelDy gr w h y (clampIndex (x - 1) w) + 2 * sobelDy gr w h y x + sobelDy gr w h y (clampIndex (x + 1) w)

/-- `floor(sqrt(N))` for `N < 4^j`, one binary digit of the root a step, from the partial root `m`. -/
def sqrtDigits (N : Nat) : Nat → Nat → Nat
  | 0, m => m
  | j + 1, m => sqrtDigits N j (if (m + 2 ^ j) * (m + 2 ^ j) ≤ N then m + 2 ^ j else m)

/-- `floor(sqrt(N))` (R157). -/
def floorSqrt (N : Nat) : Nat := sqrtDigits N (N.log2 / 2 + 1) 0

/-- `rsqrt(N)`, the integer nearest to the exact square root (R157). -/
def roundSqrt (N : Nat) : Nat :=
  let m := floorSqrt N
  m + if m * m + m < N then 1 else 0

/-- The magnitude of a gradient, rounded and clamped to a byte (R157). -/
def magnitudeByte (gx gy : Int) : Byte := BitVec.ofNat 8 (min (roundSqrt (gx * gx + gy * gy).toNat) 255)

/-- `mag(y, x)` (R157). -/
def sobelMag (gr : Nat → Nat → Byte) (w h y x : Nat) : Byte :=
  magnitudeByte (sobelGx gr w h y x) (sobelGy gr w h y x)

/-! ### The mechanism (R158, R159): derivative rows in 3-row cyclic buffers -/

/-- The two cyclic row buffers (R49): row slots 0, 1, 2. -/
structure RowBuffers where
  dxb : List (List (BitVec 16))
  dyb : List (List (BitVec 16))
  deriving DecidableEq, Repr

/-- A derivative row as signed 16-bit cells (R49). -/
def derivativeRow (w : Nat) (d : Nat → Int) : List (BitVec 16) := (List.range w).map fun j => BitVec.ofInt 16 (d j)

/-- Row `i` is produced: `dx(i, ·)` into DXB[i mod 3] and `dy(i, ·)` into DYB[i mod 3] (R158). -/
def RowBuffers.produce (gr : Nat → Nat → Byte) (w h i : Nat) (b : RowBuffers) : RowBuffers :=
  { dxb := b.dxb.set (i % 3) (derivativeRow w (sobelDx gr w h i))
    dyb := b.dyb.set (i % 3) (derivativeRow w (sobelDy gr w h i)) }

/-- The signed value in column `x` of the slot of row `i`. -/
def slotCell (rows : List (List (BitVec 16))) (i x : Nat) : Int := ((rows.getD (i % 3) []).getD x 0#16).toInt

/-- `Gx` of output row `o` from the slots of rows clamp(o-1), o, clamp(o+1) (R155, R158, R159). -/
def RowBuffers.gx (b : RowBuffers) (h o x : Nat) : Int :=
  slotCell b.dxb (clampIndex (o - 1) h) x + 2 * slotCell b.dxb o x + slotCell b.dxb (clampIndex (o + 1) h) x

/-- `Gy` of output row `o` from the slot of row o (R156, R158). -/
def RowBuffers.gy (b : RowBuffers) (w o x : Nat) : Int :=
  slotCell b.dyb o (clampIndex (x - 1) w) + 2 * slotCell b.dyb o x + slotCell b.dyb o (clampIndex (x + 1) w)

/-- Output row `o`, computed from the buffers. -/
def RowBuffers.outputRow (b : RowBuffers) (w h o : Nat) : List Byte :=
  (List.range w).map fun x => magnitudeByte (b.gx h o x) (b.gy w o x)

/-- The output rows `o` with `min(o+1, H-1) = i`: those that become computable when row `i` has been produced
(R158). -/
def rowsReady (h i : Nat) : List Nat := (if 1 ≤ i then [i - 1] else []) ++ (if i + 1 = h then [i] else [])

/-- The sweep over derivative rows `i, i+1, ..., i+n-1`: the buffers at its end and the output rows in order (R158). -/
def sobelSweep (gr : Nat → Nat → Byte) (w h : Nat) : Nat → Nat → RowBuffers → RowBuffers × List (List Byte)
  | 0, _, b => (b, [])
  | n + 1, i, b =>
    let b' := b.produce gr w h i
    let rest := sobelSweep gr w h n (i + 1) b'
    (rest.1, (rowsReady h i).map (b'.outputRow w h) ++ rest.2)

/-- `W*H + 12*W`, the scratch requirement (R160). -/
def edgesScratchBytes (g : Geometry) : Nat := g.w * g.h + 12 * g.w

/-- SCRATCH holding the grayscale image at offset `y*W + x` (R151). -/
def State.grayInScratch (s : State) (g : Geometry) : Memory := s.scratch.writeBytes 0 (s.grayImage g)

/-- `G[y][x]` read from SCRATCH (R151). -/
def scratchGray (m : Memory) (w y x : Nat) : Byte := m.read (y * w + x)

/-- The writes of a successful EDGES: the gray image in SCRATCH, the sweep, the magnitudes from `base` on, the tail
kept, `IMG_CHANNELS <- 1` (R150, R161). -/
def edgesEffect (g : Geometry) (s : State) : State :=
  let scratch := s.grayInScratch g
  let swept := sobelSweep (scratchGray scratch g.w) g.w g.h g.h 0 { dxb := s.dxb, dyb := s.dyb }
  { s with
    scratch := scratch
    dxb := swept.1.dxb
    dyb := swept.1.dyb
    imem := s.imem.writeBytes g.base swept.2.flatten
    imgChannels := 1#32 }

/-- EDGES (R150). -/
def execEdges (s : State) : Host.Outcome State Fault Refusal :=
  match geometryError s.params s.latch.geometry with
  | some e => .next (s.failWith e)
  | none =>
    if s.params.scratchBytes < edgesScratchBytes s.latch.geometry then .next (s.failWith .scratch)
    else .next (edgesEffect s.latch.geometry s).completeOk

end Sys2Proof.Machine
end

