-- ==== Sys2Proof/Machine/Median.lean ====
section
/-! DEFINITION. MEDIAN, the sliding-histogram median filter (spec/43_median.md R170 to R178). -/

namespace Sys2Proof.Machine

/-! ### The padded canvas (R172, R177) -/

/-- `W + 2r`, the canvas width. -/
def canvasWidth (g : Geometry) (r : Nat) : Nat := g.w + 2 * r

/-- `(W+2r) * (H+2r)`, the scratch requirement (R177). -/
def canvasBytes (g : Geometry) (r : Nat) : Nat := (g.w + 2 * r) * (g.h + 2 * r)

/-- The canvas of channel `ch`: `P[py][px] = In(clamp(py - r), clamp(px - r), ch)`, row by row (R172). -/
def State.canvas (s : State) (g : Geometry) (r ch : Nat) : List Byte :=
  raster (g.w + 2 * r) (g.h + 2 * r) 1 fun py px _ =>
    s.sampleIn g (clampIndex ((py : Int) - r) g.h) (clampIndex ((px : Int) - r) g.w) ch

/-- `P[py][px]` read from SCRATCH at offset `py*(W+2r) + px` (R172). -/
def scratchCanvas (m : Memory) (cw py px : Nat) : Byte := m.read (py * cw + px)

/-! ### The histogram (R48, R173 to R175) -/

/-- Apply `f` to cell `b` of a histogram. -/
def modifyCount (f : Word → Word) : List Word → Nat → List Word
  | [], _ => []
  | n :: rest, 0 => f n :: rest
  | n :: rest, b + 1 => n :: modifyCount f rest b

/-- `HIST[b] += 1`. -/
def countUp (h : List Word) (b : Byte) : List Word := modifyCount (· + 1#32) h b.toNat

/-- `HIST[b] -= 1`. -/
def countDown (h : List Word) (b : Byte) : List Word := modifyCount (· - 1#32) h b.toNat

/-- Count canvas column `px`, rows `y .. y+2r`, in (R173, R175). -/
def columnIn (P : Nat → Nat → Byte) (r y px : Nat) (h : List Word) : List Word :=
  (List.range (2 * r + 1)).foldl (fun h k => countUp h (P (y + k) px)) h

/-- Every bucket set to 0 (R173). -/
def emptyHistogram : List Word := List.replicate 256 0#32

/-- The histogram of the window at column 0 of output row `y` (R173). -/
def windowHistogram (P : Nat → Nat → Byte) (r y : Nat) : List Word :=
  (List.range (2 * r + 1)).foldl (fun h px => columnIn P r y px h) emptyHistogram

/-- Slide from output column `x-1` to `x`: for every row of the window the departing column `x-1` is counted out and
the entering column `x+2r` in (R175). -/
def slideWindow (P : Nat → Nat → Byte) (r y x : Nat) (h : List Word) : List Word :=
  (List.range (2 * r + 1)).foldl
    (fun h k => countUp (countDown h (P (y + k) (x - 1))) (P (y + k) (x + 2 * r))) h

/-- The first bucket, from bucket `b` on, where the cumulative count exceeds `half` (R174). -/
def firstAbove (half : Nat) : List Word → Nat → Nat → Nat
  | [], b, _ => b
  | n :: rest, b, cum => if half < cum + n.toNat then b else firstAbove half rest (b + 1) (cum + n.toNat)

/-- `A = (2r+1)^2` (R173). -/
def windowArea (r : Nat) : Nat := (2 * r + 1) * (2 * r + 1)

/-- The median of a histogram of `A` values: the first bucket whose cumulative count exceeds `A div 2` (R174). -/
def selectMedian (r : Nat) (h : List Word) : Byte := BitVec.ofNat 8 (firstAbove (windowArea r / 2) h 0 0)

/-! ### The sweep (R170) -/

/-- Output columns `x, x+1, ..., x+n-1` of row `y`: slide (except at column 0), then emit. -/
def medianRow (P : Nat → Nat → Byte) (r y : Nat) : Nat → Nat → List Word → List Word × List Byte
  | 0, _, h => (h, [])
  | n + 1, x, h =>
    let h' := if 0 < x then slideWindow P r y x h else h
    let rest := medianRow P r y n (x + 1) h'
    (rest.1, selectMedian r h' :: rest.2)

/-- Output rows `y, y+1, ..., y+n-1` of one channel: a fresh histogram, then the row. -/
def medianRows (P : Nat → Nat → Byte) (r w : Nat) : Nat → Nat → List Word → List Word × List Byte
  | 0, _, h => (h, [])
  | n + 1, y, _ =>
    let row := medianRow P r y w 0 (windowHistogram P r y)
    let rest := medianRows P r w n (y + 1) row.1
    (rest.1, row.2 ++ rest.2)

/-- The working stores of MEDIAN and the channel planes computed so far. -/
structure MedianRun where
  scratch : Memory
  hist : List Word
  planes : List (List Byte)
  deriving DecidableEq, Repr

/-- One channel: its canvas into SCRATCH, then the sweep (R170, R172). -/
def MedianRun.channel (s : State) (g : Geometry) (r ch : Nat) (m : MedianRun) : MedianRun :=
  let scratch := m.scratch.writeBytes 0 (s.canvas g r ch)
  let swept := medianRows (scratchCanvas scratch (canvasWidth g r)) r g.w g.h 0 m.hist
  { scratch := scratch, hist := swept.1, planes := m.planes ++ [swept.2] }

/-- Every channel, in the order 0, 1, ... (R9 lets a model fix any order; log 17). -/
def medianRun (s : State) (g : Geometry) (r : Nat) : MedianRun :=
  (List.range g.c).foldl (fun m ch => MedianRun.channel s g r ch m)
    { scratch := s.scratch, hist := s.hist, planes := [] }

/-- `O[y][x][c]` out of the channel planes. -/
def planeSample (planes : List (List Byte)) (w y x ch : Nat) : Byte := (planes.getD ch []).getD (y * w + x) 0#8

/-- The writes of a successful MEDIAN with `r > 0`: SCRATCH, HIST, and the medians over the image region (R170). -/
def medianEffect (g : Geometry) (r : Nat) (s : State) : State :=
  let m := medianRun s g r
  { s with
    scratch := m.scratch
    hist := m.hist
    imem := s.imem.writeBytes g.base (raster g.w g.h g.c (planeSample m.planes g.w)) }

/-! ### Closed form (R176) -/

/-- The window of output pixel (y, x) of channel `ch`, as a list:
`In(clamp(y+dy), clamp(x+dx), ch)` for `dy, dx` from -r to r (R176). -/
def State.medianWindow (s : State) (g : Geometry) (r y x ch : Nat) : List Byte :=
  (List.range (2 * r + 1)).flatMap fun ky => (List.range (2 * r + 1)).map fun kx =>
    s.sampleIn g (clampIndex ((y : Int) + ky - r) g.h) (clampIndex ((x : Int) + kx - r) g.w) ch

/-- `v` is the `(k+1)`-th smallest element of a multiset of bytes. -/
def isOrderStatistic (k : Nat) (ws : List Byte) (v : Byte) : Prop :=
  v ∈ ws ∧ ws.countP (fun u => u < v) ≤ k ∧ k < ws.countP (fun u => u ≤ v)

/-- MEDIAN (R170): geometry, then radius 0 (R171), then the capacity check (R177), then the sweep. -/
def execMedian (s : State) : Host.Outcome State Fault Refusal :=
  match geometryError s.params s.latch.geometry with
  | some e => .next (s.failWith e)
  | none =>
    if s.latch.r.toNat = 0 then .next s.completeOk
    else if s.params.scratchBytes < canvasBytes s.latch.geometry s.latch.r.toNat then .next (s.failWith .scratch)
    else .next (medianEffect s.latch.geometry s.latch.r.toNat s).completeOk

end Sys2Proof.Machine
end

