-- ==== Sys2Proof/Machine/Dispatch.lean ====
section
/-! DEFINITION. The meaning of every command: one arm per constructor. -/

namespace Sys2Proof.Machine

def exec (i : Instr) (s : State) : Host.Outcome State Fault Refusal :=
  match i with
  | .blur => Sys2Proof.Machine.execBlur s
  | .edges => Sys2Proof.Machine.execEdges s
  | .median => Sys2Proof.Machine.execMedian s
  | .gray => Sys2Proof.Machine.execGray s

end Sys2Proof.Machine
end

