-- ==== Sys2Proof/Machine/Events.lean ====
section
/-! DEFINITION. The events of the total order of spec/20_memory.md R72: one statement of HOST's script
(spec/30_encoding.md R96), the ENGINE completion step (spec/70_reset_and_hazards.md R224), and reset (R220). -/

namespace Sys2Proof.Machine

/-! ### HOST -/

/-- The value of a script variable: what a statement last stored there, else a free value (log 5). -/
def HostAgent.var (h : HostAgent) (x : Nat) : Word :=
  match h.vars.find? fun p => p.1 == x with
  | some p => p.2
  | none => Config.unsetVariable x

/-- Store a script variable; an earlier value of it is dropped. -/
def HostAgent.setVar (x : Nat) (v : Word) (h : HostAgent) : HostAgent :=
  { h with vars := (x, v) :: h.vars.filter fun p => !(p.1 == x) }

/-- On to the next statement. -/
def HostAgent.advance (h : HostAgent) : HostAgent := { h with position := h.position + 1 }

/-- On to the statement of a label (R96); none where the script does not have it (log 6). -/
def HostAgent.jump (l : Label) (h : HostAgent) : Option HostAgent :=
  (labelPosition l h.script).map fun k => { h with position := k }

/-- The statement HOST is at; none when the script has ended or `halt` was met. -/
def HostAgent.current (h : HostAgent) : Option Stmt := if h.halted then none else h.script[h.position]?

/-- A branch of HOST's script. -/
def State.hostBranch (l : Label) (s : State) : Host.Outcome State Fault Refusal :=
  match s.host.jump l with
  | some h => .next { s with host := h }
  | none => .fault .undefinedLabel

/-- One statement of HOST's script (R96). -/
def State.hostStmt (st : Stmt) (s : State) : Host.Outcome State Fault Refusal :=
  match st with
  | .wr w t v =>
    match t.offset? s.params with
    | some o => .next { s.hostWrite w o v with host := s.host.advance }
    | none => .fault .outsideBlock
  | .rd w t x =>
    match t.offset? s.params with
    | some o => .next { (s.hostRead w o).2 with host := (s.host.setVar x (s.hostRead w o).1).advance }
    | none => .fault .outsideBlock
  | .label _ => .next { s with host := s.host.advance }
  | .bnz x m l => if s.host.var x &&& m ≠ 0#32 then s.hostBranch l else .next { s with host := s.host.advance }
  | .branch l => s.hostBranch l
  | .halt => .next { s with host := { s.host with halted := true } }

/-- HOST's turn: its next statement; nothing when its script has ended (log 4). -/
def State.hostTurn (s : State) : Host.Outcome State Fault Refusal :=
  match s.host.current with
  | some st => s.hostStmt st
  | none => .next s

/-! ### ENGINE and reset -/

/-- The ENGINE step of a running command: decode L.cmd first, then execute it, or complete with IllegalCommand (R93,
R193, R224). -/
def State.engineStep (s : State) : Host.Outcome State Fault Refusal :=
  match decode s.latch.cmd with
  | .ok i => exec i s
  | .error e => .next (s.failWith (illegalCause e))

/-- ENGINE's turn: enabled only in the phase RUN (R51, R224); in IDLE there is no ENGINE event and nothing happens
(log 3). -/
def State.engineTurn (s : State) : Host.Outcome State Fault Refusal := if s.status.busy then s.engineStep else .next s

/-- One turn of the event order. -/
def State.takeTurn (t : Turn) (s : State) : Host.Outcome State Fault Refusal :=
  match t with
  | .host => s.hostTurn
  | .engine => s.engineTurn
  | .reset => .next s.warmReset
  | .powerOn => .next s.powerOnReset

/-- The turn taken when the schedule has run out: ENGINE's in RUN, so that every started command completes after
finitely many HOST events (R224), and HOST's in IDLE (log 3). -/
def State.defaultTurn (s : State) : Turn := if s.status.busy then .engine else .host

/-- The next turn and the state it is taken in. -/
def State.nextTurn (s : State) : Turn × State :=
  match s.sched with
  | [] => (s.defaultTurn, s)
  | t :: ts => (t, { s with sched := ts })

/-- Command word `w` started, and ENGINE's turn next: the word is where the next step takes its command from
(log 15). -/
def State.loadCommand (w : Word) (s : State) : State :=
  { s.startCommand w with sched := .engine :: s.sched }

end Sys2Proof.Machine
end

