-- ==== Sys2Proof/Machine/Step.lean ====
section
/-! DEFINITION. The step function: one event of the total order of spec/20_memory.md R72. -/

namespace Sys2Proof.Machine

/-- One event: the turn the schedule names next, taken (R72, R224; log 3). -/
def step (s : State) : Host.Outcome State Fault Refusal := s.nextTurn.2.takeTurn s.nextTurn.1

/-- `s` with the command word that the low `nbits` bits of `w` give started, as the CMD write of R33 starts it, and
ENGINE's turn next, so that the very next step decodes and runs it (log 15). -/
def State.withFetchWord (s : State) (nbits w : Nat) : State := s.loadCommand (BitVec.ofNat 32 (w % 2 ^ nbits))

end Sys2Proof.Machine
end

