-- ==== Sys2Proof/WellFormed.lean ====
section
/-! DEFINITION. Well-formedness: the parameter constraints of spec/00_scope.md R8, the commands, and host scripts
(labels defined once, every branch target defined). -/

namespace Sys2Proof

/-- Every command is well formed: a command word has no operand field to be out of range (R94). -/
def Instr.wellFormed : Instr → Bool
  | .blur => true
  | .edges => true
  | .median => true
  | .gray => true

/-- `BLOCK_BASE` is a multiple of 0x0200_0000 (R8). -/
def Config.Params.blockBaseOk (p : Config.Params) : Bool := p.blockBase % 0x02000000 == 0

/-- `IMEM_BYTES` is a multiple of 4 with 4 ≤ IMEM_BYTES ≤ 0x0100_0000 (R8). -/
def Config.Params.imemBytesOk (p : Config.Params) : Bool :=
  p.imemBytes % 4 == 0 && decide (4 ≤ p.imemBytes) && decide (p.imemBytes ≤ 0x01000000)

/-- `SCRATCH_BYTES` < 2^32 (R8). -/
def Config.Params.scratchBytesOk (p : Config.Params) : Bool := decide (p.scratchBytes < 2 ^ 32)

/-- 1 ≤ `KMAX_RADIUS` ≤ 4096 (R8). -/
def Config.Params.kmaxRadiusOk (p : Config.Params) : Bool :=
  decide (1 ≤ p.kmaxRadius) && decide (p.kmaxRadius ≤ 4096)

/-- The constraint column of R8. -/
def Config.Params.wellFormed (p : Config.Params) : Bool :=
  p.blockBaseOk && p.imemBytesOk && p.scratchBytesOk && p.kmaxRadiusOk

namespace Machine

/-- No label is defined twice (R96: a label names one place). -/
def labelsUnique (sc : List Stmt) : Bool := decide (definedLabels sc).Nodup

/-- Every branch goes to a label the script defines (R96). -/
def branchesDefined (sc : List Stmt) : Bool := (branchTargets sc).all fun l => (labelPosition l sc).isSome

/-- A host script is well formed when its labels are unique and its branch targets defined. -/
def scriptWellFormed (sc : List Stmt) : Bool := labelsUnique sc && branchesDefined sc

end Machine

end Sys2Proof
end

