-- ==== Sys2Proof/Safety.lean ====
section
/-! DEFINITION. What counts as a good state and a safe run, in the terms the statements use. -/

namespace Sys2Proof.Machine

/-- The geometry a legal command accepts: a non-empty image of 1, 3 or 4 channels that lies inside IMEM
(spec/60_exceptions.md R194 to R196). -/
abbrev Geometry.Valid (p : Config.Params) (g : Geometry) : Prop :=
  0 < g.w ∧ 0 < g.h ∧ (g.c = 1 ∨ g.c = 3 ∨ g.c = 4) ∧ g.base + g.w * g.h * g.c ≤ p.imemBytes

/-- A cell of DXB or DYB lies in [-255, 255] (spec/10_state.md R49). -/
def derivativeCellOk (v : BitVec 16) : Bool := decide (-255 ≤ v.toInt) && decide (v.toInt ≤ 255)

/-- Three row slots whose cells are derivatives (R49). -/
def rowBufferOk (rows : List (List (BitVec 16))) : Bool :=
  decide (rows.length = 3) && rows.all fun row => row.all derivativeCellOk

/-- What every step keeps: the parameters are legal (R8), STATUS is one the rules write (R24 to R30), IMEM and SCRATCH
are canonical and stay inside their sizes (R44, R45, R67), the hidden stores have their shapes (R47 to R49), KRADIUS is a
radius the kernel store holds (R40, R117), and while a command runs the latch holds the live registers (R46, R69). -/
structure State.Inv (s : State) : Prop where
  params : s.params.wellFormed = true
  status : s.status.legal = true
  imemWf : s.imem.wf = true
  imemWithin : s.imem.within s.params.imemBytes = true
  scratchWf : s.scratch.wf = true
  scratchWithin : s.scratch.within s.params.scratchBytes = true
  ktLength : s.kt.length = 2 * s.params.kmaxRadius + 1
  histLength : s.hist.length = 256
  dxbOk : rowBufferOk s.dxb = true
  dybOk : rowBufferOk s.dyb = true
  kradius : s.kradius.toNat ≤ s.params.kmaxRadius
  latched : s.status.busy = true → s.latch = s.latchOf s.cmd

/-- A bus target lies in the block's address space (spec/20_memory.md R60). -/
def Stmt.inBlock (p : Config.Params) : Stmt → Bool
  | .wr _ t _ => (t.offset? p).isSome
  | .rd _ t _ => (t.offset? p).isSome
  | .label _ => true
  | .bnz _ _ _ => true
  | .branch _ => true
  | .halt => true

/-- HOST cannot stop the model: its script is well formed and addresses only the block. -/
abbrev State.HostSafe (s : State) : Prop :=
  scriptWellFormed s.host.script = true ∧ s.host.script.all (Stmt.inBlock s.params) = true

/-- The state with other contents in the hidden stores (R45, R47 to R50): SCRATCH, KT, HIST, DXB, DYB. -/
def State.withHidden (scratch : Memory) (kt hist : List Word) (dxb dyb : List (List (BitVec 16))) (s : State) : State :=
  { s with scratch := scratch, kt := kt, hist := hist, dxb := dxb, dyb := dyb }

/-- Two states differ at most in the hidden stores. -/
def State.SameVisible (s t : State) : Prop := t = s.withHidden t.scratch t.kt t.hist t.dxb t.dyb

/-- STATUS after a successful completion (spec/60_exceptions.md R200): ERRCODE and ERRDETAIL 0, DONE 1, BUSY 0, the rest
as it was. -/
def Status.succeeded (st : Status) : Status :=
  { busy := false, done := true, err := st.err, hostErr := st.hostErr, errCode := 0#4, errDetail := 0x00#8 }

/-- STATUS after a failed completion with a kind and a detail (R199): ERRCODE, ERRDETAIL, ERR 1, BUSY 0, the rest as it
was. -/
def Status.failed (st : Status) (code : BitVec 4) (detail : BitVec 8) : Status :=
  { busy := false, done := st.done, err := true, hostErr := st.hostErr, errCode := code, errDetail := detail }

end Sys2Proof.Machine
end

