-- ==== Sys2Proof/Certificates/Slice0/Obligations.lean ====
section
/-! DEFINITION. What is claimed of the model, rule by rule of spec/. Nothing is proved here. -/

open Sys2Proof Sys2Proof.Machine

/-! ### Encoding (spec/30_encoding.md) -/

/-- R92: "The full command words are 0x0000_0001, 0x0000_0002, 0x0000_0003 and 0x0000_0004", written out bit by bit
from R90 (MBZ, then OPCODE), with two illegal words of R93. -/
def Obligations.CommandWordsDecodeToTheirCommands : Prop :=
  decode 0b00000000000000000000000000000001#32 = .ok .blur ∧
  decode 0b00000000000000000000000000000010#32 = .ok .edges ∧
  decode 0b00000000000000000000000000000011#32 = .ok .median ∧
  decode 0b00000000000000000000000000000100#32 = .ok .gray ∧
  decode 0b00000000000000000000000000010000#32 = .error .reservedOpcode ∧
  decode 0b11111111111111111111111111110100#32 = .error .mbzSet

/-- R92, R93: a word decodes to a command exactly when it is that command's word, so decoding an encoded command gives
it back and no bit of a command word is dropped. -/
def Obligations.OnlyTheEncodedWordDecodesToACommand : Prop :=
  ∀ (v : Word) (i : Instr), decode v = .ok i ↔ v = encode i

/-- R93: the decoder is total; a bad OPCODE (0 or 5 to 15) is reported with any MBZ value (R95), MBZ only after a legal
OPCODE, and the four words left decode to their commands. -/
def Obligations.DecodeChecksOpcodeBeforeMbz : Prop :=
  ∀ v : Word,
    ((v.toNat % 16 = 0 ∨ 5 ≤ v.toNat % 16) → decode v = .error .reservedOpcode) ∧
    (1 ≤ v.toNat % 16 → v.toNat % 16 ≤ 4 → 16 ≤ v.toNat → decode v = .error .mbzSet) ∧
    (v.toNat = 1 → decode v = .ok .blur) ∧ (v.toNat = 2 → decode v = .ok .edges) ∧
    (v.toNat = 3 → decode v = .ok .median) ∧ (v.toNat = 4 → decode v = .ok .gray)

/-! ### The step (spec/20_memory.md R72, spec/70_reset_and_hazards.md R224) -/

/-- R224, R93: when ENGINE's turn comes while a command runs, the step decodes L.cmd and is `exec` of the decoded
command, the turn taken off the schedule; with no turn scheduled it is ENGINE's turn (log 3). -/
def Obligations.EngineStepRunsTheDecodedCommand : Prop :=
  ∀ (s : State) (i : Instr), s.status.busy = true → decode s.latch.cmd = .ok i →
    (∀ ts, s.sched = .engine :: ts → step s = exec i { s with sched := ts }) ∧
    (s.sched = [] → step s = exec i s)

/-- The model's own loading function (log 15): the word it places is the command the very next step runs, started as a
CMD write starts it. -/
def Obligations.LoadedWordIsRunByTheNextStep : Prop :=
  ∀ (s : State) (i : Instr), step (s.withFetchWord 32 (encode i).toNat) = exec i (s.startCommand (encode i))

/-- R193, R199, R224: at ENGINE's turn "an illegal word raises IllegalCommand with detail 0x01 or 0x02 and no other check
is made"; nothing but STATUS (and the schedule) changes. The model's choices (log 3): the turn is the head of the
schedule, and a running command's ENGINE also moves where the schedule is empty. -/
def Obligations.IllegalWordCompletesWithIllegalCommand : Prop :=
  ∀ (s : State) (ts : List Turn), s.status.busy = true →
    (s.sched = .engine :: ts ∨ (s.sched = [] ∧ ts = [])) →
    (decode s.latch.cmd = .error .reservedOpcode →
      step s = .next { s with sched := ts, status := s.status.failed 3#4 0x01#8 }) ∧
    (decode s.latch.cmd = .error .mbzSet →
      step s = .next { s with sched := ts, status := s.status.failed 3#4 0x02#8 })

/-- The model's choice (log 3, log 4) of what a turn does that has no event: ENGINE's turn in the phase IDLE only leaves
the schedule, and HOST's turn after the end of its script changes nothing. -/
def Obligations.TurnWithoutAnEventChangesNothing : Prop :=
  ∀ (s : State) (ts : List Turn),
    (s.status.busy = false → s.sched = .engine :: ts → step s = .next { s with sched := ts }) ∧
    (s.host.current = none → s.sched = .host :: ts → step s = .next { s with sched := ts }) ∧
    (s.status.busy = false → s.host.current = none → s.sched = [] → step s = .next s)

/-! ### Completion and errors (spec/60_exceptions.md) -/

/-- R190, R199, R200: every command, from every state, ends in exactly one completion: BUSY cleared, and either DONE set
with ERRCODE and ERRDETAIL 0, or ERR set with a pair of R192; HOSTERR is never touched. -/
def Obligations.EveryCommandEndsInOneCompletion : Prop :=
  ∀ (i : Instr) (s : State), ∃ t, exec i s = .next t ∧
    (t.status = s.status.succeeded ∨
      ∃ code detail, (code, detail) ∈ [(1#4, 0x01#8), (1#4, 0x02#8), (1#4, 0x03#8), (1#4, 0x04#8), (1#4, 0x05#8),
        (2#4, 0x01#8), (2#4, 0x02#8)] ∧ t.status = s.status.failed code detail)

/-- R197: "a failed command leaves IMEM, `IMG_CHANNELS`, `KRADIUS` and every other register except `STATUS` exactly as
they were when it started", an illegal command word included. -/
def Obligations.FailedCommandChangesOnlyStatus : Prop :=
  (∀ (i : Instr) (s t : State), exec i s = .next t → t.status.errCode ≠ 0#4 → t = { s with status := t.status }) ∧
  (∀ s t : State, s.engineStep = .next t → t.status.errCode ≠ 0#4 → t = { s with status := t.status })

/-- R67, R37, R40: what a command may change when it answers a next state: STATUS, its own hidden stores (SCRATCH and KT
for BLUR, SCRATCH, DXB and DYB for EDGES, SCRATCH and HIST for MEDIAN, none for GRAY), IMG_CHANNELS (EDGES and GRAY, to
1), KRADIUS (BLUR), and the bytes of its output range. Everything else is unchanged. -/
def Obligations.CommandsChangeOnlyTheirOutputs : Prop :=
  ∀ (i : Instr) (s t : State), exec i s = .next t →
    t = { s with
          status := t.status, imgChannels := t.imgChannels, kradius := t.kradius, imem := t.imem,
          scratch := t.scratch, kt := t.kt, hist := t.hist, dxb := t.dxb, dyb := t.dyb } ∧
    (t.imgChannels = s.imgChannels ∨ ((i = .edges ∨ i = .gray) ∧ t.imgChannels = 1#32)) ∧
    (t.kradius = s.kradius ∨ i = .blur) ∧
    (t.scratch = s.scratch ∨ i = .blur ∨ i = .edges ∨ i = .median) ∧
    (t.kt = s.kt ∨ i = .blur) ∧
    (t.hist = s.hist ∨ i = .median) ∧
    ((t.dxb = s.dxb ∧ t.dyb = s.dyb) ∨ i = .edges) ∧
    ((i = .blur ∨ i = .median) → ∀ a,
      (a < s.latch.base.toNat ∨ s.latch.base.toNat + s.latch.w.toNat * s.latch.h.toNat * s.latch.c.toNat ≤ a) →
        t.imem.read a = s.imem.read a) ∧
    ((i = .edges ∨ i = .gray) → ∀ a,
      (a < s.latch.base.toNat ∨ s.latch.base.toNat + s.latch.w.toNat * s.latch.h.toNat ≤ a) →
        t.imem.read a = s.imem.read a)

/-- R194, R195, R196, R198: the geometry checks of every legal command, before any other check, in the order EMPTY,
CHANNELS, REGION, with the exact sum and product. -/
def Obligations.GeometryChecksComeFirstInOrder : Prop :=
  ∀ (i : Instr) (s : State),
    ((s.latch.w = 0#32 ∨ s.latch.h = 0#32) → exec i s = .next { s with status := s.status.failed 1#4 0x01#8 }) ∧
    (s.latch.w ≠ 0#32 → s.latch.h ≠ 0#32 →
      (s.latch.c ≠ 1#32 ∧ s.latch.c ≠ 3#32 ∧ s.latch.c ≠ 4#32 →
        exec i s = .next { s with status := s.status.failed 1#4 0x02#8 }) ∧
      ((s.latch.c = 1#32 ∨ s.latch.c = 3#32 ∨ s.latch.c = 4#32) →
        s.params.imemBytes < s.latch.base.toNat + s.latch.w.toNat * s.latch.h.toNat * s.latch.c.toNat →
        exec i s = .next { s with status := s.status.failed 1#4 0x03#8 }))

/-! ### BLUR (spec/40_blur.md) -/

/-- R111: with a legal geometry, a NaN (exponent bits all ones, fraction not 0, either sign) is InvalidArgument 0x05,
every other pattern with sign bit 1 except -0.0 is InvalidArgument 0x04, and every other pattern (-0.0 and +infinity
among them) passes the check; +infinity then fails the kernel capacity check. -/
def Obligations.BlurRejectsNanAndNegativeSigma : Prop :=
  ∀ s : State, s.latch.geometry.Valid s.params →
    (0x7F800000 < s.latch.sigma.toNat % 2 ^ 31 →
      exec .blur s = .next { s with status := s.status.failed 1#4 0x05#8 }) ∧
    (s.latch.sigma.toNat % 2 ^ 31 ≤ 0x7F800000 → 0x80000000 < s.latch.sigma.toNat →
      exec .blur s = .next { s with status := s.status.failed 1#4 0x04#8 }) ∧
    ((s.latch.sigma.toNat ≤ 0x7F800000 ∨ s.latch.sigma.toNat = 0x80000000) →
      sigmaError (F32.ofBits s.latch.sigma) = none) ∧
    (s.latch.sigma = 0x7F800000#32 → exec .blur s = .next { s with status := s.status.failed 2#4 0x01#8 })

/-- R112: with a legal geometry and a sigma at or below 10^-6 (exactly), BLUR completes successfully and writes
`KRADIUS <- 0`, with no capacity check and nothing else written; the no-op sigmas are exactly the patterns 0x0000_0000 to
0x3586_37BD and 0x8000_0000. -/
def Obligations.BlurBelowThresholdIsANoOp : Prop :=
  ∀ s : State, s.latch.geometry.Valid s.params →
    (∀ neg u, F32.ofBits s.latch.sigma = .fin neg u → (neg = true → u = 0) →
      (u * 10 ^ 6 ≤ 2 ^ 149 ↔ (s.latch.sigma.toNat ≤ 0x358637BD ∨ s.latch.sigma.toNat = 0x80000000))) ∧
    ((s.latch.sigma.toNat ≤ 0x358637BD ∨ s.latch.sigma.toNat = 0x80000000) →
      exec .blur s = .next { s with kradius := 0#32, status := s.status.succeeded })

/-- R113: above the threshold the radius is the least integer at or above `3 *f sigma`, at least 1, and unbounded
exactly where that product is +infinity. -/
def Obligations.KernelRadiusIsCeilOfThreeSigma : Prop :=
  ∀ v : Word, 0x358637BE ≤ v.toNat → v.toNat ≤ 0x7F800000 →
    (kernelRadius (F32.ofBits v) = none ∧ F32.mul (F32.ofNat 3) (F32.ofBits v) = .inf false) ∨
    ∃ r u, kernelRadius (F32.ofBits v) = some r ∧ F32.mul (F32.ofNat 3) (F32.ofBits v) = .fin false u ∧
      1 ≤ r ∧ u ≤ r * 2 ^ 149 ∧ (r - 1) * 2 ^ 149 < u

/-- R117, R118: past the no-op path, a radius over KMAX_RADIUS (or unbounded) is OutOfMemory 0x01, and then an image
over SCRATCH_BYTES is OutOfMemory 0x02. -/
def Obligations.BlurCapacityErrors : Prop :=
  ∀ s : State, s.latch.geometry.Valid s.params →
    0x358637BE ≤ s.latch.sigma.toNat → s.latch.sigma.toNat ≤ 0x7F800000 →
    (kernelRadius (F32.ofBits s.latch.sigma) = none →
      exec .blur s = .next { s with status := s.status.failed 2#4 0x01#8 }) ∧
    (∀ r, kernelRadius (F32.ofBits s.latch.sigma) = some r →
      (s.params.kmaxRadius < r → exec .blur s = .next { s with status := s.status.failed 2#4 0x01#8 }) ∧
      (r ≤ s.params.kmaxRadius → s.params.scratchBytes < s.latch.w.toNat * s.latch.h.toNat * s.latch.c.toNat →
        exec .blur s = .next { s with status := s.status.failed 2#4 0x02#8 }))

/-- R119, R120, R121, R122: BLUR completes. With `conv` the 1-D convolution of R119 written out (clamp-to-edge, products
`KT[k] *f toF32(byte)` summed in ascending tap order from +0, then `toByte`), the temporary buffer T in SCRATCH holds the
horizontal convolution of the input samples as they stood at the start, and every output sample is the vertical
convolution of those bytes; KRADIUS becomes r, KT holds the kernel (KernelWeightsLieInUnitInterval says what it is), and
nothing but the image region, STATUS and the stores BLUR uses changes. -/
def Obligations.BlurIsHorizontalThenVerticalPass : Prop :=
  ∀ (s : State) (r : Nat), s.latch.geometry.Valid s.params →
    0x358637BE ≤ s.latch.sigma.toNat → s.latch.sigma.toNat ≤ 0x7F800000 →
    kernelRadius (F32.ofBits s.latch.sigma) = some r → r ≤ s.params.kmaxRadius →
    s.latch.w.toNat * s.latch.h.toNat * s.latch.c.toNat ≤ s.params.scratchBytes →
    let W := s.latch.w.toNat
    let H := s.latch.h.toNat
    let C := s.latch.c.toNat
    let base := s.latch.base.toNat
    let K := kernelWeights (F32.ofBits s.latch.sigma) r
    let conv : (Nat → Byte) → Nat → Nat → Byte := fun get n p =>
      F32.toByte ((List.range (2 * r + 1)).foldl (fun acc k =>
        F32.add acc (F32.mul (F32.ofBits (K.getD k 0#32))
          (F32.ofNat (get (min (max ((p : Int) + k - r) 0) ((n : Int) - 1)).toNat).toNat))) (.fin false 0))
    let T : Nat → Nat → Nat → Byte := fun y x c =>
      conv (fun j => s.imem.read (base + ((y * W + j) * C + c))) W x
    ∃ t, exec .blur s = .next t ∧
      (∀ y x c, y < H → x < W → c < C → t.scratch.read ((y * W + x) * C + c) = T y x c) ∧
      (∀ y x c, y < H → x < W → c < C →
        t.imem.read (base + ((y * W + x) * C + c)) = conv (fun j => T j x c) H y) ∧
      (∀ a, (a < base ∨ base + W * H * C ≤ a) → t.imem.read a = s.imem.read a) ∧
      t.kt.take (2 * r + 1) = K ∧
      t = { s with
            imem := t.imem, scratch := t.scratch, kt := t.kt, kradius := BitVec.ofNat 32 r,
            status := s.status.succeeded }

/-- R14, R119: `toByte` of a finite accumulator is the nearest integer, ties away from zero, clamped to [0, 255]. -/
def Obligations.AccumulatorsRoundHalfAwayAndSaturate : Prop :=
  ∀ u : Nat,
    (F32.toByte (.fin false u)).toNat = min ((2 * u + 2 ^ 149) / 2 ^ 150) 255 ∧
    (F32.toByte (.fin true u)).toNat = 0

/-- R13: the rounding of `num / den` units of 2^-149 is a binary32 value, none is nearer, and of two equally near the one
with the even pattern is taken; it is +infinity exactly from half a unit past the largest finite value on. -/
def Obligations.Binary32RoundsToNearestEven : Prop :=
  ∀ num den : Nat, 0 < den →
    (F32.round false num den = .inf false ↔ (2 ^ 25 - 1) * 2 ^ 253 * den ≤ 2 * num) ∧
    (∀ u, F32.round false num den = .fin false u →
      ∃ p, p < 0x7F800000 ∧ unitsOfPattern p = u ∧
        ∀ q, q < 0x7F800000 →
          |(num : Int) - u * den| ≤ |(num : Int) - unitsOfPattern q * den| ∧
          (q ≠ p → |(num : Int) - u * den| = |(num : Int) - unitsOfPattern q * den| → p % 2 = 0))

/-- R114: EXP32 of `x = -n * 2^-149` is always a finite binary32 value of pattern below +infinity; no binary32 value is
nearer to the real e^x by more than 2^-80 units of 2^-149, and where the model's bracket settles the rounding (elsewhere
a free value decides between two candidates: log 12) none is nearer at all; `EXP32(0)` is 1. -/
def Obligations.ExponentialIsNearestBinary32 : Prop :=
  expNegUnits 0 = F32.ofNat 1 ∧
  ∀ n : Nat, ∃ p, p < 0x7F800000 ∧ expNegUnits n = .fin false (unitsOfPattern p) ∧
    (∀ q, q < 0x7F800000 →
      |Real.exp (-(n : ℝ) / 2 ^ 149) * 2 ^ 149 - unitsOfPattern p| ≤
        |Real.exp (-(n : ℝ) / 2 ^ 149) * 2 ^ 149 - unitsOfPattern q| + 1 / 2 ^ 80) ∧
    ((104 * 2 ^ 149 ≤ n ∨ roundFixed (expLower n) = roundFixed (expUpper n)) → ∀ q, q < 0x7F800000 →
      |Real.exp (-(n : ℝ) / 2 ^ 149) * 2 ^ 149 - unitsOfPattern p| ≤
        |Real.exp (-(n : ℝ) / 2 ^ 149) * 2 ^ 149 - unitsOfPattern q|)

/-- R114, R115: the bracket the exponential is computed from contains e^x and is at most 2^16 of its 256 fractional bits
wide (less than 2^-90 of the least binary32 unit), so the free value of log 12 chooses between the roundings of two
numbers that enclose e^x that closely. -/
def Obligations.ExponentialBracketEnclosesTheReal : Prop :=
  ∀ n : Nat, n < 104 * 2 ^ 149 →
    (expLower n : ℝ) ≤ Real.exp (-(n : ℝ) / 2 ^ 149) * 2 ^ 256 ∧
    Real.exp (-(n : ℝ) / 2 ^ 149) * 2 ^ 256 ≤ (expUpper n : ℝ) ∧
    expUpper n ≤ expLower n + 2 ^ 16

/-- R116: "The kernel is symmetric, `w_k = w_{2r−k}`". -/
def Obligations.KernelIsSymmetric : Prop :=
  ∀ (sigma : F32) (r k : Nat), k ≤ 2 * r →
    (kernelWeights sigma r).length = 2 * r + 1 ∧
    (kernelWeights sigma r)[k]? = (kernelWeights sigma r)[2 * r - k]?

/-- R115, R116: for every sigma past the threshold whose radius the kernel store can hold, tap `k` is
`EXP32(-(toF32(i*i) /f (toF32(2) *f (sigma *f sigma)))) /f S` with `i = k - r`, S being the sum of the exponentials in
ascending tap order from +0; the centre exponential is exactly 1, and every tap is a binary32 value in [0, 1]. -/
def Obligations.KernelWeightsLieInUnitInterval : Prop :=
  ∀ (v : Word) (r : Nat), 0x358637BE ≤ v.toNat → v.toNat ≤ 0x7F800000 →
    kernelRadius (F32.ofBits v) = some r → r ≤ 4096 →
    let sigma := F32.ofBits v
    let e := fun k : Nat =>
      F32.expNeg (F32.div (F32.ofNat ((((k : Int) - r) * ((k : Int) - r)).toNat))
        (F32.mul (F32.ofNat 2) (F32.mul sigma sigma)))
    let S := (List.range (2 * r + 1)).foldl (fun acc k => F32.add acc (e k)) (.fin false 0)
    (∀ k, k ≤ 2 * r → (kernelWeights sigma r)[k]? = some (F32.div (e k) S).toBits) ∧
    e r = F32.ofNat 1 ∧
    ∀ w ∈ kernelWeights sigma r, ∃ u, F32.ofBits w = .fin false u ∧ u ≤ 2 ^ 149

/-- R124: the exact sum of the stored weights is within 5e-4 of 1 for every radius up to 4096. -/
def Obligations.KernelWeightsSumNearOne : Prop :=
  ∀ (v : Word) (r : Nat), 0x358637BE ≤ v.toNat → v.toNat ≤ 0x7F800000 →
    kernelRadius (F32.ofBits v) = some r → r ≤ 4096 →
    ∃ us : List Nat, (kernelWeights (F32.ofBits v) r).map F32.ofBits = us.map (F32.fin false) ∧
      |(us.sum : Int) - 2 ^ 149| * 2000 ≤ 2 ^ 149

/-- R125: "if every sample of channel c has the value v, every output sample of channel c is v, for every sigma, radius
and geometry the parameters allow". -/
def Obligations.BlurKeepsAConstantChannel : Prop :=
  ∀ (s t : State) (c : Nat) (v : Byte), s.params.wellFormed = true → c < s.latch.c.toNat →
    (∀ y x, y < s.latch.h.toNat → x < s.latch.w.toNat →
      s.imem.read (s.latch.base.toNat + ((y * s.latch.w.toNat + x) * s.latch.c.toNat + c)) = v) →
    exec .blur s = .next t →
    ∀ y x, y < s.latch.h.toNat → x < s.latch.w.toNat →
      t.imem.read (s.latch.base.toNat + ((y * s.latch.w.toNat + x) * s.latch.c.toNat + c)) = v

/-! ### GRAY (spec/41_grayscale.md) -/

/-- R141, R142, R143: GRAY completes; every pixel becomes the byte itself (C = 1) or the exact luma
`(299*R + 587*G + 114*B + 500) div 1000` of its first three channels, stored at `base + y*W + x`; the tail and every
other byte keep their values; IMG_CHANNELS becomes 1 and nothing else but STATUS changes. -/
def Obligations.GrayWritesExactLumaInPlace : Prop :=
  ∀ s : State, s.latch.geometry.Valid s.params →
    let W := s.latch.w.toNat
    let H := s.latch.h.toNat
    let C := s.latch.c.toNat
    let base := s.latch.base.toNat
    let In := fun y x c => (s.imem.read (base + ((y * W + x) * C + c))).toNat
    ∃ t, exec .gray s = .next t ∧
      (∀ y x, y < H → x < W →
        (t.imem.read (base + (y * W + x))).toNat =
          if C = 1 then In y x 0 else (299 * In y x 0 + 587 * In y x 1 + 114 * In y x 2 + 500) / 1000) ∧
      (∀ a, (a < base ∨ base + W * H ≤ a) → t.imem.read a = s.imem.read a) ∧
      t = { s with imem := t.imem, imgChannels := 1#32, status := s.status.succeeded }

/-- R144: "a repeated GRAY after success sees C = 1 and changes nothing". -/
def Obligations.RepeatedGrayChangesNothing : Prop :=
  ∀ (s t : State), s.Inv → s.status.busy = true → s.latch.geometry.Valid s.params → exec .gray s = .next t →
    ∃ u, exec .gray (t.startCommand 0x4#32) = .next u ∧ (∀ a, u.imem.read a = t.imem.read a) ∧
      u.imgChannels = 1#32 ∧ u.status.done = true

/-! ### EDGES (spec/42_sobel.md) -/

/-- R160: a scratch requirement of `W*H + 12*W` over SCRATCH_BYTES is OutOfMemory 0x02, before any write. -/
def Obligations.EdgesScratchError : Prop :=
  ∀ s : State, s.latch.geometry.Valid s.params →
    s.params.scratchBytes < s.latch.w.toNat * s.latch.h.toNat + 12 * s.latch.w.toNat →
    exec .edges s = .next { s with status := s.status.failed 2#4 0x02#8 }

/-- R151 to R161: EDGES completes, and the cyclic-buffer sweep leaves at every pixel the closed form of R152 to R157 over
the reduced image (R151, R141), written out here, border rows included; the tail and every other byte keep their values;
IMG_CHANNELS becomes 1 and nothing but STATUS and EDGES' own stores changes besides. The magnitude is R157's formula, not
R157's last sentence, which contradicts it: the model's choice (DEDUCED, log 22). -/
def Obligations.EdgesSweepEqualsClosedForm : Prop :=
  ∀ s : State, s.Inv → s.latch.geometry.Valid s.params →
    s.latch.w.toNat * s.latch.h.toNat + 12 * s.latch.w.toNat ≤ s.params.scratchBytes →
    let W := s.latch.w.toNat
    let H := s.latch.h.toNat
    let C := s.latch.c.toNat
    let base := s.latch.base.toNat
    let In := fun y x c => (s.imem.read (base + ((y * W + x) * C + c))).toNat
    let G : Nat → Nat → Nat := fun y x =>
      if C = 1 then In y x 0 else (299 * In y x 0 + 587 * In y x 1 + 114 * In y x 2 + 500) / 1000
    let cl : Int → Nat → Int := fun v n => min (max v 0) ((n : Int) - 1)
    let I : Int → Int → Int := fun i j => G (cl i H).toNat (cl j W).toNat
    let dx : Int → Int → Int := fun i j => I i (j + 1) - I i (j - 1)
    let dy : Int → Int → Int := fun i j => I (i + 1) j - I (i - 1) j
    let Gx : Int → Int → Int := fun y x => dx (cl (y - 1) H) x + 2 * dx y x + dx (cl (y + 1) H) x
    let Gy : Int → Int → Int := fun y x => dy y (cl (x - 1) W) + 2 * dy y x + dy y (cl (x + 1) W)
    let N : Nat → Nat → Nat := fun y x => (Gx y x ^ 2 + Gy y x ^ 2).toNat
    let m : Nat → Nat → Nat := fun y x => Nat.sqrt (N y x)
    ∃ t, exec .edges s = .next t ∧
      (∀ y x, y < H → x < W → (t.imem.read (base + (y * W + x))).toNat =
        min (m y x + if N y x > m y x * m y x + m y x then 1 else 0) 255) ∧
      (∀ a, (a < base ∨ base + W * H ≤ a) → t.imem.read a = s.imem.read a) ∧
      t = { s with
            imem := t.imem, scratch := t.scratch, dxb := t.dxb, dyb := t.dyb, imgChannels := 1#32,
            status := s.status.succeeded }

/-- R157: "rsqrt(N) is the integer nearest to the exact √N", and no tie is possible: `(2m-1)^2 < 4N < (2m+1)^2`. -/
def Obligations.RoundedRootIsNearest : Prop :=
  ∀ N : Nat, 4 * N < (2 * roundSqrt N + 1) ^ 2 ∧ (0 < N → (2 * roundSqrt N - 1) ^ 2 < 4 * N) ∧
    (N = 0 → roundSqrt N = 0)

/-- R162: on a uniform image (every sample of each channel that is read has one value) every output of EDGES is 0. -/
def Obligations.EdgesOfAUniformImageAreZero : Prop :=
  ∀ (s : State) (v : Nat → Byte), s.Inv → s.latch.geometry.Valid s.params →
    s.latch.w.toNat * s.latch.h.toNat + 12 * s.latch.w.toNat ≤ s.params.scratchBytes →
    (∀ y x c, y < s.latch.h.toNat → x < s.latch.w.toNat → c < s.latch.c.toNat →
      s.imem.read (s.latch.base.toNat + ((y * s.latch.w.toNat + x) * s.latch.c.toNat + c)) = v c) →
    ∃ t, exec .edges s = .next t ∧
      ∀ p, p < s.latch.w.toNat * s.latch.h.toNat → t.imem.read (s.latch.base.toNat + p) = 0#8

/-- R151, R143 (program P2 of spec/95_test_vectors.md): EDGES on the result of GRAY gives the same bytes as EDGES run
directly. -/
def Obligations.GrayThenEdgesEqualsEdges : Prop :=
  ∀ (s t : State), s.Inv → s.status.busy = true → s.latch.geometry.Valid s.params →
    s.latch.w.toNat * s.latch.h.toNat + 12 * s.latch.w.toNat ≤ s.params.scratchBytes →
    exec .gray s = .next t →
    ∃ u v, exec .edges (t.startCommand 0x2#32) = .next u ∧ exec .edges s = .next v ∧
      (∀ a, u.imem.read (s.latch.base.toNat + a) = v.imem.read (s.latch.base.toNat + a) ∨
        s.latch.w.toNat * s.latch.h.toNat ≤ a) ∧
      u.status.done = true ∧ v.status.done = true

/-- R142, R162: alpha is dropped: on 4-channel images that agree on channels 0 to 2, GRAY and EDGES leave the same
single-channel bytes. -/
def Obligations.AlphaNeverReachesGrayOrEdges : Prop :=
  ∀ (i : Instr) (s s' t t' : State), (i = .gray ∨ i = .edges) → s.Inv → s'.Inv →
    s'.params = s.params → s'.latch = s.latch → s.latch.c = 4#32 →
    (∀ y x c, y < s.latch.h.toNat → x < s.latch.w.toNat → c < 3 →
      s'.imem.read (s.latch.base.toNat + ((y * s.latch.w.toNat + x) * 4 + c)) =
        s.imem.read (s.latch.base.toNat + ((y * s.latch.w.toNat + x) * 4 + c))) →
    exec i s = .next t → exec i s' = .next t' → t.status.errCode = 0#4 →
    ∀ p, p < s.latch.w.toNat * s.latch.h.toNat →
      t'.imem.read (s.latch.base.toNat + p) = t.imem.read (s.latch.base.toNat + p)

/-! ### MEDIAN (spec/43_median.md) -/

/-- R171: with r = 0 MEDIAN completes successfully after the geometry checks, without a capacity check and without
touching IMEM or SCRATCH. -/
def Obligations.MedianOfRadiusZeroIsANoOp : Prop :=
  ∀ s : State, s.latch.geometry.Valid s.params → s.latch.r = 0#32 →
    exec .median s = .next { s with status := s.status.succeeded }

/-- R177, R178: a canvas over SCRATCH_BYTES is OutOfMemory 0x02, which covers every r from 2^31 on. -/
def Obligations.MedianScratchError : Prop :=
  ∀ s : State, s.latch.geometry.Valid s.params → s.latch.r ≠ 0#32 →
    (s.params.scratchBytes < (s.latch.w.toNat + 2 * s.latch.r.toNat) * (s.latch.h.toNat + 2 * s.latch.r.toNat) →
      exec .median s = .next { s with status := s.status.failed 2#4 0x02#8 }) ∧
    (s.params.wellFormed = true → 2 ^ 31 ≤ s.latch.r.toNat →
      exec .median s = .next { s with status := s.status.failed 2#4 0x02#8 })

/-- R172 to R176: MEDIAN completes, and the sliding-histogram sweep leaves at every sample the `(A div 2 + 1)`-th
smallest element of its clamped window, `A = (2r+1)^2`, each channel on its own; every other byte keeps its value and
nothing but STATUS, SCRATCH and HIST changes besides. -/
def Obligations.MedianSweepEqualsOrderStatistic : Prop :=
  ∀ s : State, s.params.wellFormed = true → s.latch.geometry.Valid s.params → s.latch.r ≠ 0#32 →
    (s.latch.w.toNat + 2 * s.latch.r.toNat) * (s.latch.h.toNat + 2 * s.latch.r.toNat) ≤ s.params.scratchBytes →
    let W := s.latch.w.toNat
    let H := s.latch.h.toNat
    let C := s.latch.c.toNat
    let r := s.latch.r.toNat
    let base := s.latch.base.toNat
    ∃ t, exec .median s = .next t ∧
      (∀ y x c, y < H → x < W → c < C →
        isOrderStatistic ((2 * r + 1) * (2 * r + 1) / 2)
          ((List.range (2 * r + 1)).flatMap fun dy => (List.range (2 * r + 1)).map fun dx =>
            s.imem.read (base + ((clampIndex ((y : Int) + dy - r) H * W + clampIndex ((x : Int) + dx - r) W) * C + c)))
          (t.imem.read (base + ((y * W + x) * C + c)))) ∧
      (∀ a, (a < base ∨ base + W * H * C ≤ a) → t.imem.read a = s.imem.read a) ∧
      t = { s with imem := t.imem, scratch := t.scratch, hist := t.hist, status := s.status.succeeded }

/-- R178: MEDIAN of a channel of one value leaves that channel unchanged, for every radius, whether the command
succeeds or fails. -/
def Obligations.MedianKeepsAConstantChannel : Prop :=
  ∀ (s t : State) (c : Nat) (v : Byte), s.params.wellFormed = true → c < s.latch.c.toNat →
    (∀ y x, y < s.latch.h.toNat → x < s.latch.w.toNat →
      s.imem.read (s.latch.base.toNat + ((y * s.latch.w.toNat + x) * s.latch.c.toNat + c)) = v) →
    exec .median s = .next t →
    ∀ y x, y < s.latch.h.toNat → x < s.latch.w.toNat →
      t.imem.read (s.latch.base.toNat + ((y * s.latch.w.toNat + x) * s.latch.c.toNat + c)) = v

/-- R9: "the value written to channel c of any pixel depends only on the channel-c samples of the input and on the
command's parameters", for BLUR and MEDIAN. -/
def Obligations.ChannelsAreFilteredIndependently : Prop :=
  ∀ (i : Instr) (s s' t t' : State) (c : Nat), (i = .blur ∨ i = .median) →
    s'.params = s.params → s'.latch = s.latch → c < s.latch.c.toNat →
    (∀ y x, y < s.latch.h.toNat → x < s.latch.w.toNat →
      s'.imem.read (s.latch.base.toNat + ((y * s.latch.w.toNat + x) * s.latch.c.toNat + c)) =
        s.imem.read (s.latch.base.toNat + ((y * s.latch.w.toNat + x) * s.latch.c.toNat + c))) →
    exec i s = .next t → exec i s' = .next t' →
    ∀ y x, y < s.latch.h.toNat → x < s.latch.w.toNat →
      t'.imem.read (s.latch.base.toNat + ((y * s.latch.w.toNat + x) * s.latch.c.toNat + c)) =
        t.imem.read (s.latch.base.toNat + ((y * s.latch.w.toNat + x) * s.latch.c.toNat + c))

/-! ### Registers and HOST accesses (spec/10_state.md, spec/20_memory.md) -/

/-- R24: the fields of the STATUS word and its reserved bits. -/
def Obligations.StatusWordLayout : Prop :=
  ∀ st : Status,
    st.word.getLsbD 0 = st.busy ∧ st.word.getLsbD 1 = st.done ∧ st.word.getLsbD 2 = st.err ∧
    st.word.getLsbD 3 = st.hostErr ∧ st.word.extractLsb' 4 4 = 0#4 ∧ st.word.extractLsb' 8 4 = st.errCode ∧
    st.word.extractLsb' 12 4 = 0#4 ∧ st.word.extractLsb' 16 8 = st.errDetail ∧ st.word.extractLsb' 24 8 = 0#8

/-- R42, R23, R41, R71: an aligned 4-byte read at each register's offset returns the register and changes nothing, BUSY
or not; a reserved offset reads 0. -/
def Obligations.RegisterReadsReturnTheRegister : Prop :=
  ∀ s : State,
    s.hostRead .w4 0x00 = (0x49504C01#32, s) ∧ s.hostRead .w4 0x04 = (s.status.word, s) ∧
    s.hostRead .w4 0x08 = ((if s.irqEn then 1#32 else 0#32), s) ∧ s.hostRead .w4 0x0C = (s.cmd, s) ∧
    s.hostRead .w4 0x10 = (s.imgBase, s) ∧ s.hostRead .w4 0x14 = (s.imgWidth, s) ∧
    s.hostRead .w4 0x18 = (s.imgHeight, s) ∧ s.hostRead .w4 0x1C = (s.imgChannels, s) ∧
    s.hostRead .w4 0x20 = (s.sigma, s) ∧ s.hostRead .w4 0x24 = (s.medRadius, s) ∧
    s.hostRead .w4 0x28 = (s.kradius, s) ∧
    s.hostRead .w4 0x2C = (BitVec.ofNat 32 s.params.imemBytes, s) ∧
    s.hostRead .w4 0x30 = (BitVec.ofNat 32 s.params.scratchBytes, s) ∧
    s.hostRead .w4 0x34 = (BitVec.ofNat 32 s.params.kmaxRadius, s) ∧
    ∀ o, 0x38 ≤ o → o < 0x01000000 → o % 4 = 0 → s.hostRead .w4 o = (0#32, s)

/-- R34 to R39, R42: with BUSY = 0 a write of a parameter register stores the word and changes nothing else; a write of
a read-only register or a reserved offset is ignored without HOSTERR, BUSY or not. -/
def Obligations.RegisterWritesStoreOrAreIgnored : Prop :=
  ∀ (s : State) (v : Word),
    (s.status.busy = false →
      s.hostWrite .w4 0x10 v = { s with imgBase := v } ∧ s.hostWrite .w4 0x14 v = { s with imgWidth := v } ∧
      s.hostWrite .w4 0x18 v = { s with imgHeight := v } ∧ s.hostWrite .w4 0x1C v = { s with imgChannels := v } ∧
      s.hostWrite .w4 0x20 v = { s with sigma := v } ∧ s.hostWrite .w4 0x24 v = { s with medRadius := v }) ∧
    s.hostWrite .w4 0x00 v = s ∧ s.hostWrite .w4 0x28 v = s ∧ s.hostWrite .w4 0x2C v = s ∧
    s.hostWrite .w4 0x30 v = s ∧ s.hostWrite .w4 0x34 v = s ∧
    ∀ o, 0x38 ≤ o → o < 0x01000000 → o % 4 = 0 → s.hostWrite .w4 o v = s

/-- R31, R32: a STATUS write clears DONE, ERR and HOSTERR where bits 1, 2 and 3 are 1 and nothing else; a CTRL write
keeps bit 0, and CTRL reads 0 elsewhere; both BUSY or not (in a good state with BUSY = 1, DONE and ERR are already 0);
reading either has no side effect. -/
def Obligations.StatusAndCtrlWrites : Prop :=
  ∀ (s : State) (v : Word),
    s.hostWrite .w4 0x04 v =
      { s with status := { s.status with
          done := if v.getLsbD 1 then false else s.status.done
          err := if v.getLsbD 2 then false else s.status.err
          hostErr := if v.getLsbD 3 then false else s.status.hostErr } } ∧
    s.hostWrite .w4 0x08 v = { s with irqEn := v.getLsbD 0 } ∧
    (s.Inv → s.status.busy = true → s.status.done = false ∧ s.status.err = false) ∧
    (s.hostRead .w4 0x04).2 = s ∧ (s.hostRead .w4 0x08).2 = s ∧
    (s.hostRead .w4 0x08).1 = (if s.irqEn then 1#32 else 0#32) ∧
    ∀ p draw, (State.resetWith p draw).irqEn = false

/-- R33: a CMD write of any value with BUSY = 0 sets CMD, latches L from the parameter registers (R46), sets BUSY and
clears DONE, ERR, ERRCODE and ERRDETAIL, and leaves HOSTERR (R28) and everything else; CMD then reads the value. With
BUSY = 1 it is dropped and sets HOSTERR. CMD is 0 at reset. -/
def Obligations.CmdWriteStartsACommand : Prop :=
  ∀ (s : State) (v : Word),
    (s.status.busy = false →
      s.hostWrite .w4 0x0C v =
        { s with
          cmd := v
          latch := { cmd := v, base := s.imgBase, w := s.imgWidth, h := s.imgHeight, c := s.imgChannels,
                     sigma := s.sigma, r := s.medRadius }
          status := { busy := true, done := false, err := false, hostErr := s.status.hostErr, errCode := 0#4,
                      errDetail := 0x00#8 } } ∧
      ((s.hostWrite .w4 0x0C v).hostRead .w4 0x0C).1 = v) ∧
    (s.status.busy = true →
      s.hostWrite .w4 0x0C v = { s with status := { s.status with hostErr := true } }) ∧
    ∀ p draw, (State.resetWith p draw).cmd = 0x00000000#32

/-- R203, R61, R63, R64, R69: the refused accesses: a register-window access that is not 4-byte and aligned, a misaligned
IMEM access, an access above IMEM, any IMEM-window access while BUSY. Each changes only HOSTERR, and a refused read
returns 0. -/
def Obligations.RefusedAccessesOnlySetHosterr : Prop :=
  ∀ (s : State) (w : Width) (o : Nat) (v : Word),
    ((o < 0x01000000 ∧ (w ≠ .w4 ∨ o % 4 ≠ 0)) ∨ (0x01000000 ≤ o ∧ o % w.bytes ≠ 0) ∨
      0x01000000 + s.params.imemBytes ≤ o ∧ 0x01000000 ≤ o ∨ (0x01000000 ≤ o ∧ s.status.busy = true)) →
    s.hostRead w o = (0#32, { s with status := { s.status with hostErr := true } }) ∧
    s.hostWrite w o v = { s with status := { s.status with hostErr := true } }

/-- R203 (e), R33 to R39, R226, R227: while BUSY a write of CMD, IMG_BASE, IMG_WIDTH, IMG_HEIGHT, IMG_CHANNELS, SIGMA or
MED_RADIUS is dropped and sets HOSTERR. -/
def Obligations.BusyLockedWritesAreRefused : Prop :=
  ∀ (s : State) (v : Word) (o : Nat), s.status.busy = true →
    o ∈ [0x0C, 0x10, 0x14, 0x18, 0x1C, 0x20, 0x24] →
    s.hostWrite .w4 o v = { s with status := { s.status with hostErr := true } }

/-- R62, R63: with BUSY = 0 an aligned write inside IMEM stores byte i of the word at address a+i and no other
byte; a read returns the bytes of IMEM assembled little-endian, without a side effect, whatever width they were written
with, and after the write it returns the stored bytes. -/
def Obligations.ImemAccessesAreLittleEndian : Prop :=
  ∀ (s : State) (w : Width) (a : Nat) (v : Word), s.status.busy = false →
    a % w.bytes = 0 → a < s.params.imemBytes →
    ∃ t, s.hostWrite w (0x01000000 + a) v = t ∧ t = { s with imem := t.imem } ∧
      (∀ i, i < w.bytes → t.imem.read (a + i) = v.extractLsb' (8 * i) 8) ∧
      (∀ b, (b < a ∨ a + w.bytes ≤ b) → t.imem.read b = s.imem.read b) ∧
      s.hostRead w (0x01000000 + a) =
        (BitVec.ofNat 32 ((List.range w.bytes).map fun i => (s.imem.read (a + i)).toNat * 2 ^ (8 * i)).sum, s) ∧
      t.hostRead w (0x01000000 + a) = (BitVec.ofNat 32 (v.toNat % 2 ^ (8 * w.bytes)), t)

/-- R43: IRQ is CTRL.IRQ_EN and (DONE or ERR), in every state; HOSTERR does not drive it; it is 0 at reset. -/
def Obligations.IrqIsEnabledCompletion : Prop :=
  (∀ s : State, s.irq = true ↔ (s.irqEn = true ∧ (s.status.done = true ∨ s.status.err = true))) ∧
  (∀ s : State, s.refuse.irq = s.irq) ∧
  ∀ p draw, (State.resetWith p draw).irq = false

/-- R230: while a command runs, a STATUS read returns BUSY = 1 with DONE, ERR, ERRCODE and ERRDETAIL all 0 (and HOSTERR
as it is), IMEM reads return 0, IRQ is 0, and CMD and the parameter registers read what the command started with. -/
def Obligations.RunningCommandShowsNothing : Prop :=
  ∀ s : State, s.Inv → s.status.busy = true →
    (s.hostRead .w4 0x04).1 = (if s.status.hostErr then 0x00000009#32 else 0x00000001#32) ∧ s.irq = false ∧
    (s.hostRead .w4 0x0C).1 = s.latch.cmd ∧ (s.hostRead .w4 0x10).1 = s.latch.base ∧
    (s.hostRead .w4 0x14).1 = s.latch.w ∧ (s.hostRead .w4 0x18).1 = s.latch.h ∧
    (s.hostRead .w4 0x1C).1 = s.latch.c ∧ (s.hostRead .w4 0x20).1 = s.latch.sigma ∧
    (s.hostRead .w4 0x24).1 = s.latch.r ∧
    ∀ w a, (s.hostRead w (0x01000000 + a)).1 = 0#32

/-! ### Host scripts (spec/30_encoding.md R96 to R98) -/

/-- R96, every row of the table, at HOST's turn: `rd`, `rdb`, `rdh` and `rdw` store what the access reads in their
variable and keep the other variables; `wr`, `wrb`, `wrh` and `wrw` do the access; `imem+o` is the window offset
0x0100_0000 + o and a bus address the offset from BLOCK_BASE (R60); a label only falls through; `bnz` branches exactly
when the masked variable is not 0; `b` branches; `halt` ends the script. The model's choices: HOST moves where its turn is
the head of the schedule, and where the schedule is empty and BUSY = 0 (log 3); every statement, labels and branches too, takes one turn (log 4), a branch to an undefined label
is a fault (log 6), and so is an access outside the block (log 7). -/
def Obligations.HostStatementsFollowTheTable : Prop :=
  ∀ (s : State) (ts : List Turn),
    (s.sched = .host :: ts ∨ (s.sched = [] ∧ ts = [] ∧ s.status.busy = false)) →
    let Reads := fun (w : Width) (o x : Nat) =>
      ∃ h, step s = .next { (s.hostRead w o).2 with sched := ts, host := h } ∧ h.var x = (s.hostRead w o).1 ∧
        (∀ z, z ≠ x → h.var z = s.host.var z) ∧ h.position = s.host.position + 1 ∧
        h.script = s.host.script ∧ h.halted = s.host.halted
    let Writes := fun (w : Width) (o : Nat) (v : Word) =>
      step s = .next { (s.hostWrite w o v) with
        sched := ts, host := { s.host with position := s.host.position + 1 } }
    (∀ r x, s.host.current = some (.rd .w4 (.reg r) x) → Reads .w4 r.offset x) ∧
    (∀ w o x, s.host.current = some (.rd w (.imem o) x) → o < 0x01000000 → Reads w (0x01000000 + o) x) ∧
    (∀ w o x, s.host.current = some (.rd w (.bus (s.params.blockBase + o)) x) → o < 0x02000000 → Reads w o x) ∧
    (∀ r v, s.host.current = some (.wr .w4 (.reg r) v) → Writes .w4 r.offset v) ∧
    (∀ w o v, s.host.current = some (.wr w (.imem o) v) → o < 0x01000000 → Writes w (0x01000000 + o) v) ∧
    (∀ w o v, s.host.current = some (.wr w (.bus (s.params.blockBase + o)) v) → o < 0x02000000 → Writes w o v) ∧
    (∀ l, s.host.current = some (.label l) →
      step s = .next { s with sched := ts, host := { s.host with position := s.host.position + 1 } }) ∧
    (∀ x m l, s.host.current = some (.bnz x m l) → s.host.var x &&& m = 0#32 →
      step s = .next { s with sched := ts, host := { s.host with position := s.host.position + 1 } }) ∧
    (∀ l, (s.host.current = some (.branch l) ∨
        ∃ x m, s.host.current = some (.bnz x m l) ∧ s.host.var x &&& m ≠ 0#32) →
      (∀ k, labelPosition l s.host.script = some k →
        step s = .next { s with sched := ts, host := { s.host with position := k } }) ∧
      (labelPosition l s.host.script = none → step s = .fault .undefinedLabel)) ∧
    (∀ w t, ((∃ x, s.host.current = some (.rd w t x)) ∨ ∃ v, s.host.current = some (.wr w t v)) →
      ((∃ o, t = .imem o ∧ 0x01000000 ≤ o) ∨
        ∃ addr, t = .bus addr ∧ (addr < s.params.blockBase ∨ s.params.blockBase + 0x02000000 ≤ addr)) →
      step s = .fault .outsideBlock) ∧
    (s.host.current = some .halt →
      step s = .next { s with sched := ts, host := { s.host with halted := true } } ∧
        ({ s.host with halted := true } : HostAgent).current = none)

/-- R97, R98: the expansions of `cmd` and of the pseudo-instructions, statement by statement. -/
def Obligations.PseudoInstructionsExpand : Prop :=
  ∀ (k x o : Nat) (v w h c : Word) (b₀ b₁ : Byte),
    let wait := [Stmt.label (.generated k), .rd .w4 (.reg .status) x, .bnz x 0x1#32 (.generated k)]
    Pseudo.expandOne k (.cmd v) = [.wr .w4 (.reg .cmd) v] ∧
    Pseudo.expandOne k (.wait x) = wait ∧
    Pseudo.expandOne k (.image v w h c) =
      [.wr .w4 (.reg .imgBase) v, .wr .w4 (.reg .imgWidth) w, .wr .w4 (.reg .imgHeight) h,
       .wr .w4 (.reg .imgChannels) c] ∧
    Pseudo.expandOne k (.blur v x) = [.wr .w4 (.reg .sigma) v, .wr .w4 (.reg .cmd) 0x1#32] ++ wait ∧
    Pseudo.expandOne k (.edges x) = [.wr .w4 (.reg .cmd) 0x2#32] ++ wait ∧
    Pseudo.expandOne k (.median v x) = [.wr .w4 (.reg .medRadius) v, .wr .w4 (.reg .cmd) 0x3#32] ++ wait ∧
    Pseudo.expandOne k (.gray x) = [.wr .w4 (.reg .cmd) 0x4#32] ++ wait ∧
    Pseudo.expandOne k .ack = [.wr .w4 (.reg .status) 0x0000000E#32] ∧
    Pseudo.expandOne k (.loadb o [b₀, b₁]) =
      [.wr .w1 (.imem o) (b₀.setWidth 32), .wr .w1 (.imem (o + 1)) (b₁.setWidth 32)]

/-- R98: "Labels generated by `wait` are unique per use". -/
def Obligations.WaitLabelsAreUniquePerUse : Prop :=
  ∀ ps : List Pseudo, (∀ n, Pseudo.stmt (.label (.generated n)) ∉ ps) →
    ((definedLabels (Pseudo.expand ps)).filter fun l =>
      match l with
      | .user _ => false
      | .generated _ => true).Nodup

/-! ### Reset (spec/70_reset_and_hazards.md R220 to R222) -/

/-- R220, R53: power-on reset, at any point of the event order, puts every register in its reset value, the phase to IDLE
and IRQ to 0, and leaves no byte of IMEM known; the parameters stay. The model's choices: that HOST and the schedule stand as they are
(log 10, log 3), and that no known byte is an empty list of written bytes (log 2). -/
def Obligations.PowerOnResetLeavesTheResetTable : Prop :=
  ∀ (s : State) (ts : List Turn), s.sched = .powerOn :: ts →
    ∃ t, step s = .next t ∧ t.params = s.params ∧ t.sched = ts ∧ t.host = s.host ∧
      t.readReg .id = 0x49504C01#32 ∧ t.readReg .capImem = BitVec.ofNat 32 s.params.imemBytes ∧
      t.readReg .capScratch = BitVec.ofNat 32 s.params.scratchBytes ∧
      t.readReg .capKradius = BitVec.ofNat 32 s.params.kmaxRadius ∧
      (∀ r ∈ [Reg.status, .ctrl, .cmd, .imgBase, .imgWidth, .imgHeight, .imgChannels, .sigma, .medRadius, .kradius],
        t.readReg r = 0#32) ∧
      t.status.busy = false ∧ t.irq = false ∧ t.imem.cells = []

/-- R221, R222: a reset asserted while powered resets the registers; in the phase IDLE it leaves IMEM unchanged, and in
the phase RUN it leaves unchanged every byte outside the output range of the abandoned command (the image region for BLUR
and MEDIAN, W·H bytes for EDGES and GRAY), and every byte where the abandoned word is illegal: R95 gives it no effect on
IMEM, so it has no output range (DEDUCED, log 11). -/
def Obligations.ResetKeepsImemOutsideTheAbandonedRange : Prop :=
  ∀ (s : State) (ts : List Turn), s.sched = .reset :: ts →
    ∃ t, step s = .next t ∧ t.params = s.params ∧ t.status.busy = false ∧ t.irq = false ∧
      (∀ r ∈ [Reg.status, .ctrl, .cmd, .imgBase, .imgWidth, .imgHeight, .imgChannels, .sigma, .medRadius, .kradius],
        t.readReg r = 0#32) ∧
      (s.status.busy = false → t.imem = s.imem) ∧
      (s.status.busy = true →
        ((decode s.latch.cmd = .ok .blur ∨ decode s.latch.cmd = .ok .median) → ∀ a,
          (a < s.latch.base.toNat ∨ s.latch.base.toNat + s.latch.w.toNat * s.latch.h.toNat * s.latch.c.toNat ≤ a) →
            t.imem.read a = s.imem.read a) ∧
        ((decode s.latch.cmd = .ok .edges ∨ decode s.latch.cmd = .ok .gray) → ∀ a,
          (a < s.latch.base.toNat ∨ s.latch.base.toNat + s.latch.w.toNat * s.latch.h.toNat ≤ a) →
            t.imem.read a = s.imem.read a) ∧
        ((∃ e, decode s.latch.cmd = .error e) → ∀ a, t.imem.read a = s.imem.read a))

/-- The state after power-on reset is a good state, for all legal parameters and any draw. The hidden stores' values in
it are the model's (log 8). -/
def Obligations.ResetStateIsGood : Prop :=
  ∀ (p : Config.Params) (draw : Nat), p.wellFormed = true → (State.resetWith p draw).Inv

/-! ### The whole machine -/

/-- R25 to R30, R40, R45 to R49, R67: every step keeps the invariant: parameters legal, STATUS one the rules write, IMEM
and SCRATCH canonical (the model's form: log 2) and inside their sizes, hidden stores in shape, KRADIUS within KMAX_RADIUS, the latch equal to the
live registers while BUSY. -/
def Obligations.StepKeepsTheInvariant : Prop :=
  ∀ s t : State, s.Inv → step s = .next t → t.Inv

/-- R8, R41: no step changes the parameters, so the capability registers are constant. -/
def Obligations.StepKeepsTheParameters : Prop :=
  ∀ s t : State, step s = .next t → t.params = s.params

/-- A machine whose HOST runs a well-formed script inside the block never stops: every step answers a next state in which
that still holds. (The two faults are the model's own: log 6, log 7.) -/
def Obligations.SafeHostNeverStopsTheMachine : Prop :=
  ∀ s : State, s.HostSafe → ∃ t, step s = .next t ∧ t.HostSafe

/-- R203, R224, R226, R227: "A refusal never affects a running command": after any finite number of HOST events a running
command completes with the result it would have had at once: IMEM, IMG_CHANNELS, KRADIUS, CMD and the completion in
STATUS. That ENGINE's turn follows when the schedule of HOST turns has run out is the model's choice (log 3). -/
def Obligations.HostNeverAffectsARunningCommand : Prop :=
  ∀ (k : Nat) (s : State), s.Inv → s.HostSafe → s.status.busy = true → s.sched = List.replicate k .host →
    ∃ t₀ t, s.engineStep = .next t₀ ∧ Host.Core.run core (k + 1) s = .next t ∧
      t.imem = t₀.imem ∧ t.imgChannels = t₀.imgChannels ∧ t.kradius = t₀.kradius ∧ t.cmd = t₀.cmd ∧
      t.status.busy = false ∧ t.status.done = t₀.status.done ∧ t.status.err = t₀.status.err ∧
      t.status.errCode = t₀.status.errCode ∧ t.status.errDetail = t₀.status.errDetail

/-- R77, R45 to R50: "no observable result depends on" the hidden stores: two machines that differ only in SCRATCH, KT,
HIST, DXB and DYB run for any number of steps with the same outcome, and still differ only there. -/
def Obligations.HiddenStoresAreNeverObservable : Prop :=
  ∀ (n : Nat) (s : State) (scratch : Memory) (kt hist : List Word) (dxb dyb : List (List (BitVec 16))),
    rowBufferOk s.dxb = true → rowBufferOk s.dyb = true → rowBufferOk dxb = true → rowBufferOk dyb = true →
    (∀ t, Host.Core.run core n s = .next t →
      ∃ t', Host.Core.run core n (s.withHidden scratch kt hist dxb dyb) = .next t' ∧ State.SameVisible t t') ∧
    (∀ f, Host.Core.run core n s = .fault f → Host.Core.run core n (s.withHidden scratch kt hist dxb dyb) = .fault f)

/-! ### Arithmetic and weights of BLUR, beside the statements above -/

/-- R13: on finite operands `*f`, `/f` and `+f` round the exact product, quotient and sum once (units of 2^-149), a first
operand +0 of `+f` returns the second (log 14), and `toF32(n)` is exact for every n up to 2^24. -/
def Obligations.Binary32OperationsRoundTheExactResult : Prop :=
  (∀ (a b : Bool) (u v : Nat),
    F32.mul (.fin a u) (.fin b v) = F32.round (a != b) (u * v) (2 ^ 149) ∧
    (0 < v → F32.div (.fin a u) (.fin b v) = F32.round (a != b) (u * 2 ^ 149) v) ∧
    (∀ x : Int, x = (if a then -(u : Int) else u) + (if b then -(v : Int) else v) → (a = true ∨ 0 < u) → x ≠ 0 →
      F32.add (.fin a u) (.fin b v) = F32.round (decide (x < 0)) x.natAbs 1)) ∧
  (∀ f : F32, F32.add (.fin false 0) f = f) ∧
  ∀ n, n ≤ 2 ^ 24 → ∃ p, p < 0x7F800000 ∧ F32.ofNat n = .fin false (unitsOfPattern p) ∧
    unitsOfPattern p = n * 2 ^ 149

/-- R115, and the source's weight formula that R114 quotes: before normalisation the weight at offset `i = k - r` is
within 2^-22 of the real `exp(-i^2 / (2 * sigma^2))`, for every sigma past the threshold and every radius up to 4096. The
bound 2^-22 is the model's estimate of the roundings R115 makes, no number of the spec. -/
def Obligations.KernelWeightsFollowTheGaussian : Prop :=
  ∀ (v : Word) (r u k : Nat), 0x358637BE ≤ v.toNat → F32.ofBits v = .fin false u →
    kernelRadius (F32.ofBits v) = some r → r ≤ 4096 → k ≤ 2 * r →
    ∃ e, rawWeight (F32.ofBits v) r k = .fin false e ∧
      |(e : ℝ) / 2 ^ 149 - Real.exp (-((k : ℝ) - r) ^ 2 / (2 * ((u : ℝ) / 2 ^ 149) ^ 2))| ≤ 1 / 2 ^ 22
end

