-- ==== Sys2Proof/Laws/Binary32.lean ====
section
/-! SUPPORT. The rounding of spec/00_scope.md R13: what the significand is, how far it is from the exact value, and which
units the pattern stands for. -/

namespace Sys2Proof.Machine

/-- The rounded quotient is at most half a divisor above the exact one. -/
theorem roundEven_upper (n : Nat) {d : Nat} (hd : 0 < d) : 2 * (roundEven n d * d) ≤ 2 * n + d := by
  have h1 := Nat.div_add_mod n d
  have h2 := Nat.mod_lt n hd
  rw [Nat.mul_comm d] at h1
  simp only [roundEven]
  split
  · rw [Nat.add_mul]; omega
  · omega

/-- The rounded quotient is at most half a divisor below the exact one. -/
theorem roundEven_lower (n : Nat) {d : Nat} (hd : 0 < d) : 2 * n ≤ 2 * (roundEven n d * d) + d := by
  have h1 := Nat.div_add_mod n d
  have h2 := Nat.mod_lt n hd
  rw [Nat.mul_comm d] at h1
  simp only [roundEven]
  split
  · rw [Nat.add_mul]; omega
  · next h => omega

/-- An exact quotient is left alone. -/
theorem roundEven_mul (q : Nat) {d : Nat} (hd : 0 < d) : roundEven (q * d) d = q := by
  simp only [roundEven, Nat.mul_div_cancel _ hd, Nat.mul_mod_left]
  rw [if_neg]; omega

/-- The rounded quotient is the floor or one more. -/
theorem roundEven_bounds (n d : Nat) : n / d ≤ roundEven n d ∧ roundEven n d ≤ n / d + 1 := by
  simp only [roundEven]; split <;> omega

/-- The floor of a value that is not subnormal has exactly 24 bits above its ulp exponent. -/
theorem ulpExponent_bounds {u : Nat} (h : 2 ^ 24 ≤ u) :
    2 ^ 23 * 2 ^ ulpExponent u ≤ u ∧ u < 2 ^ 24 * 2 ^ ulpExponent u := by
  have hne : u ≠ 0 := by omega
  have h24 : 24 ≤ u.log2 := (Nat.le_log2 hne).2 h
  have hk : ulpExponent u = u.log2 - 23 := by rw [ulpExponent, if_neg (by omega)]
  rw [hk, ← Nat.pow_add, ← Nat.pow_add, show 23 + (u.log2 - 23) = u.log2 by omega,
    show 24 + (u.log2 - 23) = u.log2 + 1 by omega]
  exact ⟨Nat.log2_self_le hne, Nat.lt_log2_self⟩

/-- The significand of a rounded value has at most 24 bits, or is the carry `2^24`; above the subnormals it has at least
24 bits. -/
theorem significand_bounds (num den : Nat) :
    roundEven num (den * 2 ^ ulpExponent (num / den)) ≤ 2 ^ 24 ∧
      (ulpExponent (num / den) = 0 ∨ 2 ^ 23 ≤ roundEven num (den * 2 ^ ulpExponent (num / den))) := by
  have hb := roundEven_bounds num (den * 2 ^ ulpExponent (num / den))
  rw [← Nat.div_div_eq_div_mul] at hb
  by_cases h : num / den < 2 ^ 24
  · have hk : ulpExponent (num / den) = 0 := by rw [ulpExponent, if_pos h]
    rw [hk] at hb ⊢
    simp only [Nat.pow_zero, Nat.div_one] at hb ⊢
    exact ⟨by omega, .inl (by trivial)⟩
  · have hu := ulpExponent_bounds (Nat.le_of_not_lt h)
    have hp : 0 < 2 ^ ulpExponent (num / den) := Nat.two_pow_pos _
    have h1 : num / den / 2 ^ ulpExponent (num / den) < 2 ^ 24 := (Nat.div_lt_iff_lt_mul hp).2 hu.2
    have h2 : 2 ^ 23 ≤ num / den / 2 ^ ulpExponent (num / den) := (Nat.le_div_iff_mul_le hp).2 hu.1
    exact ⟨by omega, .inr (by omega)⟩

/-- The units of the pattern with ulp exponent `k` and significand `m` (R94). -/
theorem unitsOfPattern_significand {k m : Nat} (hm : m ≤ 2 ^ 24) (hk : k = 0 ∨ 2 ^ 23 ≤ m) :
    unitsOfPattern (k * 2 ^ 23 + m) = m * 2 ^ k := by
  unfold unitsOfPattern
  by_cases h1 : m < 2 ^ 23
  · have hk0 : k = 0 := by omega
    subst hk0
    have e1 : (0 * 2 ^ 23 + m) / 2 ^ 23 = 0 := by omega
    have e2 : (0 * 2 ^ 23 + m) % 2 ^ 23 = m := by omega
    simp only [e1, e2, if_true, Nat.pow_zero, Nat.mul_one]
  · by_cases h2 : m = 2 ^ 24
    · subst h2
      have e1 : (k * 2 ^ 23 + 2 ^ 24) / 2 ^ 23 = k + 2 := by omega
      have e2 : (k * 2 ^ 23 + 2 ^ 24) % 2 ^ 23 = 0 := by omega
      simp only [e1, e2]
      rw [if_neg (by omega), Nat.add_zero, show k + 2 - 1 = k + 1 by omega, Nat.pow_succ]
      ring
    · have e1 : (k * 2 ^ 23 + m) / 2 ^ 23 = k + 1 := by omega
      have e2 : (k * 2 ^ 23 + m) % 2 ^ 23 = m - 2 ^ 23 := by omega
      simp only [e1, e2]
      rw [if_neg (by omega), Nat.add_sub_cancel, show 2 ^ 23 + (m - 2 ^ 23) = m by omega]

/-- A finite rounding is the significand times the ulp. -/
theorem units_of_round {neg : Bool} {num den u : Nat} (h : F32.round neg num den = .fin neg u) :
    u = roundEven num (den * 2 ^ ulpExponent (num / den)) * 2 ^ ulpExponent (num / den) := by
  have hs := significand_bounds num den
  simp only [F32.round, F32.ofMagnitude] at h
  split at h
  · next hlt =>
    have hp : roundPattern num den =
        ulpExponent (num / den) * 2 ^ 23 + roundEven num (den * 2 ^ ulpExponent (num / den)) := by
      simp only [roundPattern] at hlt ⊢; omega
    rw [hp, unitsOfPattern_significand hs.1 hs.2] at h
    simpa using h.symm
  · split at h <;> cases h

/-- The rounding error is at most half a unit in the last place. -/
theorem round_error {neg : Bool} {num den u : Nat} (hd : 0 < den) (h : F32.round neg num den = .fin neg u) :
    2 * (u * den) ≤ 2 * num + den * 2 ^ ulpExponent (num / den) ∧
      2 * num ≤ 2 * (u * den) + den * 2 ^ ulpExponent (num / den) := by
  have hpos : 0 < den * 2 ^ ulpExponent (num / den) := Nat.mul_pos hd (Nat.two_pow_pos _)
  have h1 := roundEven_upper num hpos
  have h2 := roundEven_lower num hpos
  rw [units_of_round h]
  have e : roundEven num (den * 2 ^ ulpExponent (num / den)) * 2 ^ ulpExponent (num / den) * den =
      roundEven num (den * 2 ^ ulpExponent (num / den)) * (den * 2 ^ ulpExponent (num / den)) := by ring
  rw [e]; exact ⟨h1, h2⟩

/-- A rounding is never a NaN, and has the sign asked for. -/
theorem round_cases (neg : Bool) (num den : Nat) :
    F32.round neg num den = .inf neg ∨ ∃ u, F32.round neg num den = .fin neg u := by
  simp only [F32.round, F32.ofMagnitude]
  split
  · exact .inr ⟨_, rfl⟩
  · next h => rw [if_pos (by simp only [roundPattern] at h ⊢; omega)]; exact .inl rfl

end Sys2Proof.Machine
end

