-- ==== Sys2Proof/Laws/Memory.lean ====
section
/-! SUPPORT. The laws of byte memories: a read after a write, the canonical form kept by every write, the size kept. -/

namespace Sys2Proof.Machine

theorem lookupCell_append (l₁ l₂ : List Host.Cell) (a : Nat) :
    lookupCell (l₁ ++ l₂) a = (lookupCell l₁ a).or (lookupCell l₂ a) := by
  induction l₁ with
  | nil => simp [lookupCell]
  | cons c l₁ ih => cases c; simp only [List.cons_append, lookupCell]; split <;> simp [ih]

/-- A filter by address keeps the byte at every address it lets through, and hides the others. -/
theorem lookupCell_filter (p : Nat → Bool) (l : List Host.Cell) (a : Nat) :
    lookupCell (l.filter fun c => p c.1) a = if p a then lookupCell l a else none := by
  induction l with
  | nil => simp [lookupCell]
  | cons c l ih =>
    obtain ⟨b, v⟩ := c
    simp only [List.filter_cons]
    by_cases hb : b = a
    · subst hb; cases hp : p b <;> simp [lookupCell, ih, hp]
    · cases hp : p b <;> simp [lookupCell, ih, hb]

theorem lookupCell_cellsFrom (bs : List Byte) (a b : Nat) :
    lookupCell (cellsFrom a bs) b = if a ≤ b then bs[b - a]? else none := by
  induction bs generalizing a with
  | nil => simp [cellsFrom, lookupCell]
  | cons v bs ih =>
    simp only [cellsFrom, lookupCell, ih]
    by_cases h : a = b
    · subst h; simp
    · by_cases h' : a ≤ b
      · have : b - a = (b - (a + 1)) + 1 := by omega
        simp [h, h', this, show a + 1 ≤ b by omega]
      · simp [h, h', show ¬ a + 1 ≤ b by omega]

/-- What a byte reads as after a write of consecutive bytes: the stored byte inside the written range, the old byte
outside it. -/
theorem read_writeBytes (m : Memory) (a : Nat) (bs : List Byte) (b : Nat) :
    (m.writeBytes a bs).read b = if h : a ≤ b ∧ b < a + bs.length then bs[b - a]'(by omega) else m.read b := by
  simp only [Memory.read, Memory.writeBytes, lookupCell_append,
    lookupCell_filter (fun x => decide (x < a)), lookupCell_filter (fun x => decide (a + bs.length ≤ x)),
    lookupCell_cellsFrom, decide_eq_true_eq]
  by_cases h1 : b < a
  · simp [h1, show ¬ a ≤ b by omega, show ¬ a + bs.length ≤ b by omega]
  · by_cases h2 : b < a + bs.length
    · have hlt : b - a < bs.length := by omega
      simp [h1, h2, show a ≤ b by omega, List.getElem?_eq_getElem hlt]
    · have : bs[b - a]? = none := by simp; omega
      simp [h1, h2, show a ≤ b by omega, this, show a + bs.length ≤ b by omega]

/-- Inside the written range. -/
theorem read_writeBytes_of_lt (m : Memory) (a : Nat) (bs : List Byte) (i : Nat) (h : i < bs.length) :
    (m.writeBytes a bs).read (a + i) = bs[i] := by
  rw [read_writeBytes, dif_pos ⟨by omega, by omega⟩]; simp

/-- Outside the written range. -/
theorem read_writeBytes_outside (m : Memory) (a : Nat) (bs : List Byte) (b : Nat)
    (h : b < a ∨ a + bs.length ≤ b) : (m.writeBytes a bs).read b = m.read b := by
  rw [read_writeBytes, dif_neg (by omega)]

@[simp] theorem writeBytes_draw (m : Memory) (a : Nat) (bs : List Byte) : (m.writeBytes a bs).draw = m.draw := rfl

@[simp] theorem length_readBytes (m : Memory) (a n : Nat) : (m.readBytes a n).length = n := by simp [Memory.readBytes]

@[simp] theorem length_wordBytes (n : Nat) (v : Word) : (wordBytes n v).length = n := by simp [wordBytes]

/-! ### The canonical form -/

theorem cellsRiseFrom_mono {lo lo' : Nat} {l : List Host.Cell} (h : cellsRiseFrom lo l = true) (hl : lo' ≤ lo) :
    cellsRiseFrom lo' l = true := by
  cases l with
  | nil => rfl
  | cons c l => simp only [cellsRiseFrom, Bool.and_eq_true, decide_eq_true_eq] at h ⊢; exact ⟨by omega, h.2⟩

theorem cellsRiseFrom_filter (p : Host.Cell → Bool) {lo : Nat} {l : List Host.Cell} (h : cellsRiseFrom lo l = true) :
    cellsRiseFrom lo (l.filter p) = true := by
  induction l generalizing lo with
  | nil => rfl
  | cons c l ih =>
    obtain ⟨a, v⟩ := c
    simp only [cellsRiseFrom, Bool.and_eq_true, decide_eq_true_eq] at h
    simp only [List.filter_cons]
    split
    · simp only [cellsRiseFrom, Bool.and_eq_true, decide_eq_true_eq]; exact ⟨h.1, ih h.2⟩
    · exact cellsRiseFrom_mono (ih h.2) (by omega)

/-- Two rising lists join to one when every address of the first is below the start of the second. -/
theorem cellsRiseFrom_append {lo mid : Nat} {l₁ l₂ : List Host.Cell} (h₁ : cellsRiseFrom lo l₁ = true)
    (h₂ : cellsRiseFrom mid l₂ = true) (hm : lo ≤ mid) (hlt : ∀ c ∈ l₁, c.1 < mid) :
    cellsRiseFrom lo (l₁ ++ l₂) = true := by
  induction l₁ generalizing lo with
  | nil => exact cellsRiseFrom_mono h₂ hm
  | cons c l₁ ih =>
    obtain ⟨a, v⟩ := c
    simp only [cellsRiseFrom, Bool.and_eq_true, decide_eq_true_eq, List.cons_append] at h₁ ⊢
    have ha : a < mid := hlt (a, v) (by simp)
    exact ⟨h₁.1, ih h₁.2 (by omega) fun c hc => hlt c (by simp [hc])⟩

theorem cellsRiseFrom_cellsFrom (a : Nat) (bs : List Byte) : cellsRiseFrom a (cellsFrom a bs) = true := by
  induction bs generalizing a with
  | nil => rfl
  | cons b bs ih => simp [cellsFrom, cellsRiseFrom, ih]

theorem mem_cellsFrom {a : Nat} {bs : List Byte} {c : Host.Cell} (h : c ∈ cellsFrom a bs) :
    a ≤ c.1 ∧ c.1 < a + bs.length := by
  induction bs generalizing a with
  | nil => simp [cellsFrom] at h
  | cons b bs ih =>
    simp only [cellsFrom, List.mem_cons] at h
    rcases h with rfl | h
    · simp
    · have := ih h; simp only [List.length_cons]; omega

theorem cellsRiseFrom_of_forall_le {lo lo' : Nat} {l : List Host.Cell} (h : cellsRiseFrom lo l = true)
    (hle : ∀ c ∈ l, lo' ≤ c.1) : cellsRiseFrom lo' l = true := by
  cases l with
  | nil => rfl
  | cons c l =>
    simp only [cellsRiseFrom, Bool.and_eq_true, decide_eq_true_eq] at h ⊢
    exact ⟨hle c (by simp), h.2⟩

/-- Every write keeps the canonical form. -/
theorem writeBytes_wf (m : Memory) (a : Nat) (bs : List Byte) (h : m.wf = true) : (m.writeBytes a bs).wf = true := by
  unfold Memory.wf Memory.writeBytes
  have hlow := cellsRiseFrom_filter (fun c => decide (c.1 < a)) h
  have hhigh : cellsRiseFrom (a + bs.length) (m.cells.filter fun c => decide (a + bs.length ≤ c.1)) = true :=
    cellsRiseFrom_of_forall_le (cellsRiseFrom_filter _ h) (by simp)
  rw [List.append_assoc]
  refine cellsRiseFrom_append hlow
    (cellsRiseFrom_append (cellsRiseFrom_cellsFrom a bs) hhigh (by omega) ?_) (by omega) (by simp)
  intro c hc; exact (mem_cellsFrom hc).2

/-- `MemWrite` keeps the canonical form. -/
theorem memWrite_wf (m : Memory) (a n : Nat) (v : Word) (h : m.wf = true) : (m.memWrite a n v).wf = true :=
  writeBytes_wf m a _ h

/-- A write inside `[0, n)` keeps a memory inside `[0, n)`. -/
theorem writeBytes_within (m : Memory) (a : Nat) (bs : List Byte) (n : Nat) (h : m.within n = true)
    (hb : bs = [] ∨ a + bs.length ≤ n) : (m.writeBytes a bs).within n = true := by
  simp only [Memory.within, Memory.writeBytes, List.all_eq_true, decide_eq_true_eq, List.mem_append,
    List.mem_filter] at h ⊢
  rintro c ((⟨hc, -⟩ | hc) | ⟨hc, -⟩)
  · exact h c hc
  · have := mem_cellsFrom hc
    rcases hb with rfl | hb
    · simp [cellsFrom] at hc
    · omega
  · exact h c hc

end Sys2Proof.Machine
end

