-- ==== Sys2Proof/Laws/State.lean ====
section
/-! SUPPORT. One lemma per field per named update of State, so that no proof unfolds a record update. -/

namespace Sys2Proof.Machine

/-! `failWith` -/

@[simp] theorem failWith_params (e : CmdError) (s : State) : (s.failWith e).params = s.params := rfl
@[simp] theorem failWith_status (e : CmdError) (s : State) : (s.failWith e).status = s.status.failed e.code e.detail := rfl
@[simp] theorem failWith_irqEn (e : CmdError) (s : State) : (s.failWith e).irqEn = s.irqEn := rfl
@[simp] theorem failWith_cmd (e : CmdError) (s : State) : (s.failWith e).cmd = s.cmd := rfl
@[simp] theorem failWith_imgBase (e : CmdError) (s : State) : (s.failWith e).imgBase = s.imgBase := rfl
@[simp] theorem failWith_imgWidth (e : CmdError) (s : State) : (s.failWith e).imgWidth = s.imgWidth := rfl
@[simp] theorem failWith_imgHeight (e : CmdError) (s : State) : (s.failWith e).imgHeight = s.imgHeight := rfl
@[simp] theorem failWith_imgChannels (e : CmdError) (s : State) : (s.failWith e).imgChannels = s.imgChannels := rfl
@[simp] theorem failWith_sigma (e : CmdError) (s : State) : (s.failWith e).sigma = s.sigma := rfl
@[simp] theorem failWith_medRadius (e : CmdError) (s : State) : (s.failWith e).medRadius = s.medRadius := rfl
@[simp] theorem failWith_kradius (e : CmdError) (s : State) : (s.failWith e).kradius = s.kradius := rfl
@[simp] theorem failWith_imem (e : CmdError) (s : State) : (s.failWith e).imem = s.imem := rfl
@[simp] theorem failWith_latch (e : CmdError) (s : State) : (s.failWith e).latch = s.latch := rfl
@[simp] theorem failWith_scratch (e : CmdError) (s : State) : (s.failWith e).scratch = s.scratch := rfl
@[simp] theorem failWith_kt (e : CmdError) (s : State) : (s.failWith e).kt = s.kt := rfl
@[simp] theorem failWith_hist (e : CmdError) (s : State) : (s.failWith e).hist = s.hist := rfl
@[simp] theorem failWith_dxb (e : CmdError) (s : State) : (s.failWith e).dxb = s.dxb := rfl
@[simp] theorem failWith_dyb (e : CmdError) (s : State) : (s.failWith e).dyb = s.dyb := rfl
@[simp] theorem failWith_host (e : CmdError) (s : State) : (s.failWith e).host = s.host := rfl
@[simp] theorem failWith_sched (e : CmdError) (s : State) : (s.failWith e).sched = s.sched := rfl
@[simp] theorem failWith_freeNext (e : CmdError) (s : State) : (s.failWith e).freeNext = s.freeNext := rfl

/-! `completeOk` -/

@[simp] theorem completeOk_params (s : State) : (s.completeOk).params = s.params := rfl
@[simp] theorem completeOk_status (s : State) : (s.completeOk).status = s.status.succeeded := rfl
@[simp] theorem completeOk_irqEn (s : State) : (s.completeOk).irqEn = s.irqEn := rfl
@[simp] theorem completeOk_cmd (s : State) : (s.completeOk).cmd = s.cmd := rfl
@[simp] theorem completeOk_imgBase (s : State) : (s.completeOk).imgBase = s.imgBase := rfl
@[simp] theorem completeOk_imgWidth (s : State) : (s.completeOk).imgWidth = s.imgWidth := rfl
@[simp] theorem completeOk_imgHeight (s : State) : (s.completeOk).imgHeight = s.imgHeight := rfl
@[simp] theorem completeOk_imgChannels (s : State) : (s.completeOk).imgChannels = s.imgChannels := rfl
@[simp] theorem completeOk_sigma (s : State) : (s.completeOk).sigma = s.sigma := rfl
@[simp] theorem completeOk_medRadius (s : State) : (s.completeOk).medRadius = s.medRadius := rfl
@[simp] theorem completeOk_kradius (s : State) : (s.completeOk).kradius = s.kradius := rfl
@[simp] theorem completeOk_imem (s : State) : (s.completeOk).imem = s.imem := rfl
@[simp] theorem completeOk_latch (s : State) : (s.completeOk).latch = s.latch := rfl
@[simp] theorem completeOk_scratch (s : State) : (s.completeOk).scratch = s.scratch := rfl
@[simp] theorem completeOk_kt (s : State) : (s.completeOk).kt = s.kt := rfl
@[simp] theorem completeOk_hist (s : State) : (s.completeOk).hist = s.hist := rfl
@[simp] theorem completeOk_dxb (s : State) : (s.completeOk).dxb = s.dxb := rfl
@[simp] theorem completeOk_dyb (s : State) : (s.completeOk).dyb = s.dyb := rfl
@[simp] theorem completeOk_host (s : State) : (s.completeOk).host = s.host := rfl
@[simp] theorem completeOk_sched (s : State) : (s.completeOk).sched = s.sched := rfl
@[simp] theorem completeOk_freeNext (s : State) : (s.completeOk).freeNext = s.freeNext := rfl

/-! `acknowledge` -/

@[simp] theorem acknowledge_params (v : Word) (s : State) : (s.acknowledge v).params = s.params := rfl
@[simp] theorem acknowledge_irqEn (v : Word) (s : State) : (s.acknowledge v).irqEn = s.irqEn := rfl
@[simp] theorem acknowledge_cmd (v : Word) (s : State) : (s.acknowledge v).cmd = s.cmd := rfl
@[simp] theorem acknowledge_imgBase (v : Word) (s : State) : (s.acknowledge v).imgBase = s.imgBase := rfl
@[simp] theorem acknowledge_imgWidth (v : Word) (s : State) : (s.acknowledge v).imgWidth = s.imgWidth := rfl
@[simp] theorem acknowledge_imgHeight (v : Word) (s : State) : (s.acknowledge v).imgHeight = s.imgHeight := rfl
@[simp] theorem acknowledge_imgChannels (v : Word) (s : State) : (s.acknowledge v).imgChannels = s.imgChannels := rfl
@[simp] theorem acknowledge_sigma (v : Word) (s : State) : (s.acknowledge v).sigma = s.sigma := rfl
@[simp] theorem acknowledge_medRadius (v : Word) (s : State) : (s.acknowledge v).medRadius = s.medRadius := rfl
@[simp] theorem acknowledge_kradius (v : Word) (s : State) : (s.acknowledge v).kradius = s.kradius := rfl
@[simp] theorem acknowledge_imem (v : Word) (s : State) : (s.acknowledge v).imem = s.imem := rfl
@[simp] theorem acknowledge_latch (v : Word) (s : State) : (s.acknowledge v).latch = s.latch := rfl
@[simp] theorem acknowledge_scratch (v : Word) (s : State) : (s.acknowledge v).scratch = s.scratch := rfl
@[simp] theorem acknowledge_kt (v : Word) (s : State) : (s.acknowledge v).kt = s.kt := rfl
@[simp] theorem acknowledge_hist (v : Word) (s : State) : (s.acknowledge v).hist = s.hist := rfl
@[simp] theorem acknowledge_dxb (v : Word) (s : State) : (s.acknowledge v).dxb = s.dxb := rfl
@[simp] theorem acknowledge_dyb (v : Word) (s : State) : (s.acknowledge v).dyb = s.dyb := rfl
@[simp] theorem acknowledge_host (v : Word) (s : State) : (s.acknowledge v).host = s.host := rfl
@[simp] theorem acknowledge_sched (v : Word) (s : State) : (s.acknowledge v).sched = s.sched := rfl
@[simp] theorem acknowledge_freeNext (v : Word) (s : State) : (s.acknowledge v).freeNext = s.freeNext := rfl

/-! `startCommand` -/

@[simp] theorem startCommand_params (v : Word) (s : State) : (s.startCommand v).params = s.params := rfl
@[simp] theorem startCommand_status (v : Word) (s : State) : (s.startCommand v).status = { s.status with busy := true, done := false, err := false, errCode := 0#4, errDetail := 0#8 } := rfl
@[simp] theorem startCommand_irqEn (v : Word) (s : State) : (s.startCommand v).irqEn = s.irqEn := rfl
@[simp] theorem startCommand_cmd (v : Word) (s : State) : (s.startCommand v).cmd = v := rfl
@[simp] theorem startCommand_imgBase (v : Word) (s : State) : (s.startCommand v).imgBase = s.imgBase := rfl
@[simp] theorem startCommand_imgWidth (v : Word) (s : State) : (s.startCommand v).imgWidth = s.imgWidth := rfl
@[simp] theorem startCommand_imgHeight (v : Word) (s : State) : (s.startCommand v).imgHeight = s.imgHeight := rfl
@[simp] theorem startCommand_imgChannels (v : Word) (s : State) : (s.startCommand v).imgChannels = s.imgChannels := rfl
@[simp] theorem startCommand_sigma (v : Word) (s : State) : (s.startCommand v).sigma = s.sigma := rfl
@[simp] theorem startCommand_medRadius (v : Word) (s : State) : (s.startCommand v).medRadius = s.medRadius := rfl
@[simp] theorem startCommand_kradius (v : Word) (s : State) : (s.startCommand v).kradius = s.kradius := rfl
@[simp] theorem startCommand_imem (v : Word) (s : State) : (s.startCommand v).imem = s.imem := rfl
@[simp] theorem startCommand_latch (v : Word) (s : State) : (s.startCommand v).latch = s.latchOf v := rfl
@[simp] theorem startCommand_scratch (v : Word) (s : State) : (s.startCommand v).scratch = s.scratch := rfl
@[simp] theorem startCommand_kt (v : Word) (s : State) : (s.startCommand v).kt = s.kt := rfl
@[simp] theorem startCommand_hist (v : Word) (s : State) : (s.startCommand v).hist = s.hist := rfl
@[simp] theorem startCommand_dxb (v : Word) (s : State) : (s.startCommand v).dxb = s.dxb := rfl
@[simp] theorem startCommand_dyb (v : Word) (s : State) : (s.startCommand v).dyb = s.dyb := rfl
@[simp] theorem startCommand_host (v : Word) (s : State) : (s.startCommand v).host = s.host := rfl
@[simp] theorem startCommand_sched (v : Word) (s : State) : (s.startCommand v).sched = s.sched := rfl
@[simp] theorem startCommand_freeNext (v : Word) (s : State) : (s.startCommand v).freeNext = s.freeNext := rfl

/-! `refuse` -/

@[simp] theorem refuse_params (s : State) : (s.refuse).params = s.params := rfl
@[simp] theorem refuse_status (s : State) : (s.refuse).status = { s.status with hostErr := true } := rfl
@[simp] theorem refuse_irqEn (s : State) : (s.refuse).irqEn = s.irqEn := rfl
@[simp] theorem refuse_cmd (s : State) : (s.refuse).cmd = s.cmd := rfl
@[simp] theorem refuse_imgBase (s : State) : (s.refuse).imgBase = s.imgBase := rfl
@[simp] theorem refuse_imgWidth (s : State) : (s.refuse).imgWidth = s.imgWidth := rfl
@[simp] theorem refuse_imgHeight (s : State) : (s.refuse).imgHeight = s.imgHeight := rfl
@[simp] theorem refuse_imgChannels (s : State) : (s.refuse).imgChannels = s.imgChannels := rfl
@[simp] theorem refuse_sigma (s : State) : (s.refuse).sigma = s.sigma := rfl
@[simp] theorem refuse_medRadius (s : State) : (s.refuse).medRadius = s.medRadius := rfl
@[simp] theorem refuse_kradius (s : State) : (s.refuse).kradius = s.kradius := rfl
@[simp] theorem refuse_imem (s : State) : (s.refuse).imem = s.imem := rfl
@[simp] theorem refuse_latch (s : State) : (s.refuse).latch = s.latch := rfl
@[simp] theorem refuse_scratch (s : State) : (s.refuse).scratch = s.scratch := rfl
@[simp] theorem refuse_kt (s : State) : (s.refuse).kt = s.kt := rfl
@[simp] theorem refuse_hist (s : State) : (s.refuse).hist = s.hist := rfl
@[simp] theorem refuse_dxb (s : State) : (s.refuse).dxb = s.dxb := rfl
@[simp] theorem refuse_dyb (s : State) : (s.refuse).dyb = s.dyb := rfl
@[simp] theorem refuse_host (s : State) : (s.refuse).host = s.host := rfl
@[simp] theorem refuse_sched (s : State) : (s.refuse).sched = s.sched := rfl
@[simp] theorem refuse_freeNext (s : State) : (s.refuse).freeNext = s.freeNext := rfl

/-! `resetRegisters` -/

@[simp] theorem resetRegisters_params (s : State) : (s.resetRegisters).params = s.params := rfl
@[simp] theorem resetRegisters_status (s : State) : (s.resetRegisters).status = Status.reset := rfl
@[simp] theorem resetRegisters_irqEn (s : State) : (s.resetRegisters).irqEn = false := rfl
@[simp] theorem resetRegisters_cmd (s : State) : (s.resetRegisters).cmd = 0#32 := rfl
@[simp] theorem resetRegisters_imgBase (s : State) : (s.resetRegisters).imgBase = 0#32 := rfl
@[simp] theorem resetRegisters_imgWidth (s : State) : (s.resetRegisters).imgWidth = 0#32 := rfl
@[simp] theorem resetRegisters_imgHeight (s : State) : (s.resetRegisters).imgHeight = 0#32 := rfl
@[simp] theorem resetRegisters_imgChannels (s : State) : (s.resetRegisters).imgChannels = 0#32 := rfl
@[simp] theorem resetRegisters_sigma (s : State) : (s.resetRegisters).sigma = 0#32 := rfl
@[simp] theorem resetRegisters_medRadius (s : State) : (s.resetRegisters).medRadius = 0#32 := rfl
@[simp] theorem resetRegisters_kradius (s : State) : (s.resetRegisters).kradius = 0#32 := rfl
@[simp] theorem resetRegisters_imem (s : State) : (s.resetRegisters).imem = s.imem := rfl
@[simp] theorem resetRegisters_latch (s : State) : (s.resetRegisters).latch = s.latch := rfl
@[simp] theorem resetRegisters_scratch (s : State) : (s.resetRegisters).scratch = s.scratch := rfl
@[simp] theorem resetRegisters_kt (s : State) : (s.resetRegisters).kt = s.kt := rfl
@[simp] theorem resetRegisters_hist (s : State) : (s.resetRegisters).hist = s.hist := rfl
@[simp] theorem resetRegisters_dxb (s : State) : (s.resetRegisters).dxb = s.dxb := rfl
@[simp] theorem resetRegisters_dyb (s : State) : (s.resetRegisters).dyb = s.dyb := rfl
@[simp] theorem resetRegisters_host (s : State) : (s.resetRegisters).host = s.host := rfl
@[simp] theorem resetRegisters_sched (s : State) : (s.resetRegisters).sched = s.sched := rfl
@[simp] theorem resetRegisters_freeNext (s : State) : (s.resetRegisters).freeNext = s.freeNext := rfl

/-! `abandonCommand` -/

@[simp] theorem abandonCommand_params (s : State) : (s.abandonCommand).params = s.params := rfl
@[simp] theorem abandonCommand_status (s : State) : (s.abandonCommand).status = s.status := rfl
@[simp] theorem abandonCommand_irqEn (s : State) : (s.abandonCommand).irqEn = s.irqEn := rfl
@[simp] theorem abandonCommand_cmd (s : State) : (s.abandonCommand).cmd = s.cmd := rfl
@[simp] theorem abandonCommand_imgBase (s : State) : (s.abandonCommand).imgBase = s.imgBase := rfl
@[simp] theorem abandonCommand_imgWidth (s : State) : (s.abandonCommand).imgWidth = s.imgWidth := rfl
@[simp] theorem abandonCommand_imgHeight (s : State) : (s.abandonCommand).imgHeight = s.imgHeight := rfl
@[simp] theorem abandonCommand_imgChannels (s : State) : (s.abandonCommand).imgChannels = s.imgChannels := rfl
@[simp] theorem abandonCommand_sigma (s : State) : (s.abandonCommand).sigma = s.sigma := rfl
@[simp] theorem abandonCommand_medRadius (s : State) : (s.abandonCommand).medRadius = s.medRadius := rfl
@[simp] theorem abandonCommand_kradius (s : State) : (s.abandonCommand).kradius = s.kradius := rfl
@[simp] theorem abandonCommand_imem (s : State) : (s.abandonCommand).imem = s.imem.writeBytes s.latch.base.toNat s.abandonedBytes := rfl
@[simp] theorem abandonCommand_latch (s : State) : (s.abandonCommand).latch = s.latch := rfl
@[simp] theorem abandonCommand_scratch (s : State) : (s.abandonCommand).scratch = s.scratch := rfl
@[simp] theorem abandonCommand_kt (s : State) : (s.abandonCommand).kt = s.kt := rfl
@[simp] theorem abandonCommand_hist (s : State) : (s.abandonCommand).hist = s.hist := rfl
@[simp] theorem abandonCommand_dxb (s : State) : (s.abandonCommand).dxb = s.dxb := rfl
@[simp] theorem abandonCommand_dyb (s : State) : (s.abandonCommand).dyb = s.dyb := rfl
@[simp] theorem abandonCommand_host (s : State) : (s.abandonCommand).host = s.host := rfl
@[simp] theorem abandonCommand_sched (s : State) : (s.abandonCommand).sched = s.sched := rfl
@[simp] theorem abandonCommand_freeNext (s : State) : (s.abandonCommand).freeNext = s.freeNext + 1 := rfl

/-! `grayEffect` -/

@[simp] theorem grayEffect_params (g : Geometry) (s : State) : (grayEffect g s).params = s.params := rfl
@[simp] theorem grayEffect_status (g : Geometry) (s : State) : (grayEffect g s).status = s.status := rfl
@[simp] theorem grayEffect_irqEn (g : Geometry) (s : State) : (grayEffect g s).irqEn = s.irqEn := rfl
@[simp] theorem grayEffect_cmd (g : Geometry) (s : State) : (grayEffect g s).cmd = s.cmd := rfl
@[simp] theorem grayEffect_imgBase (g : Geometry) (s : State) : (grayEffect g s).imgBase = s.imgBase := rfl
@[simp] theorem grayEffect_imgWidth (g : Geometry) (s : State) : (grayEffect g s).imgWidth = s.imgWidth := rfl
@[simp] theorem grayEffect_imgHeight (g : Geometry) (s : State) : (grayEffect g s).imgHeight = s.imgHeight := rfl
@[simp] theorem grayEffect_imgChannels (g : Geometry) (s : State) : (grayEffect g s).imgChannels = 1#32 := rfl
@[simp] theorem grayEffect_sigma (g : Geometry) (s : State) : (grayEffect g s).sigma = s.sigma := rfl
@[simp] theorem grayEffect_medRadius (g : Geometry) (s : State) : (grayEffect g s).medRadius = s.medRadius := rfl
@[simp] theorem grayEffect_kradius (g : Geometry) (s : State) : (grayEffect g s).kradius = s.kradius := rfl
@[simp] theorem grayEffect_imem (g : Geometry) (s : State) : (grayEffect g s).imem = s.imem.writeBytes g.base (s.grayImage g) := rfl
@[simp] theorem grayEffect_latch (g : Geometry) (s : State) : (grayEffect g s).latch = s.latch := rfl
@[simp] theorem grayEffect_scratch (g : Geometry) (s : State) : (grayEffect g s).scratch = s.scratch := rfl
@[simp] theorem grayEffect_kt (g : Geometry) (s : State) : (grayEffect g s).kt = s.kt := rfl
@[simp] theorem grayEffect_hist (g : Geometry) (s : State) : (grayEffect g s).hist = s.hist := rfl
@[simp] theorem grayEffect_dxb (g : Geometry) (s : State) : (grayEffect g s).dxb = s.dxb := rfl
@[simp] theorem grayEffect_dyb (g : Geometry) (s : State) : (grayEffect g s).dyb = s.dyb := rfl
@[simp] theorem grayEffect_host (g : Geometry) (s : State) : (grayEffect g s).host = s.host := rfl
@[simp] theorem grayEffect_sched (g : Geometry) (s : State) : (grayEffect g s).sched = s.sched := rfl
@[simp] theorem grayEffect_freeNext (g : Geometry) (s : State) : (grayEffect g s).freeNext = s.freeNext := rfl

/-! `edgesEffect` -/

@[simp] theorem edgesEffect_params (g : Geometry) (s : State) : (edgesEffect g s).params = s.params := rfl
@[simp] theorem edgesEffect_status (g : Geometry) (s : State) : (edgesEffect g s).status = s.status := rfl
@[simp] theorem edgesEffect_irqEn (g : Geometry) (s : State) : (edgesEffect g s).irqEn = s.irqEn := rfl
@[simp] theorem edgesEffect_cmd (g : Geometry) (s : State) : (edgesEffect g s).cmd = s.cmd := rfl
@[simp] theorem edgesEffect_imgBase (g : Geometry) (s : State) : (edgesEffect g s).imgBase = s.imgBase := rfl
@[simp] theorem edgesEffect_imgWidth (g : Geometry) (s : State) : (edgesEffect g s).imgWidth = s.imgWidth := rfl
@[simp] theorem edgesEffect_imgHeight (g : Geometry) (s : State) : (edgesEffect g s).imgHeight = s.imgHeight := rfl
@[simp] theorem edgesEffect_imgChannels (g : Geometry) (s : State) : (edgesEffect g s).imgChannels = 1#32 := rfl
@[simp] theorem edgesEffect_sigma (g : Geometry) (s : State) : (edgesEffect g s).sigma = s.sigma := rfl
@[simp] theorem edgesEffect_medRadius (g : Geometry) (s : State) : (edgesEffect g s).medRadius = s.medRadius := rfl
@[simp] theorem edgesEffect_kradius (g : Geometry) (s : State) : (edgesEffect g s).kradius = s.kradius := rfl
@[simp] theorem edgesEffect_latch (g : Geometry) (s : State) : (edgesEffect g s).latch = s.latch := rfl
@[simp] theorem edgesEffect_scratch (g : Geometry) (s : State) : (edgesEffect g s).scratch = s.grayInScratch g := rfl
@[simp] theorem edgesEffect_kt (g : Geometry) (s : State) : (edgesEffect g s).kt = s.kt := rfl
@[simp] theorem edgesEffect_hist (g : Geometry) (s : State) : (edgesEffect g s).hist = s.hist := rfl
@[simp] theorem edgesEffect_host (g : Geometry) (s : State) : (edgesEffect g s).host = s.host := rfl
@[simp] theorem edgesEffect_sched (g : Geometry) (s : State) : (edgesEffect g s).sched = s.sched := rfl
@[simp] theorem edgesEffect_freeNext (g : Geometry) (s : State) : (edgesEffect g s).freeNext = s.freeNext := rfl

/-! `medianEffect` -/

@[simp] theorem medianEffect_params (g : Geometry) (r : Nat) (s : State) : (medianEffect g r s).params = s.params := rfl
@[simp] theorem medianEffect_status (g : Geometry) (r : Nat) (s : State) : (medianEffect g r s).status = s.status := rfl
@[simp] theorem medianEffect_irqEn (g : Geometry) (r : Nat) (s : State) : (medianEffect g r s).irqEn = s.irqEn := rfl
@[simp] theorem medianEffect_cmd (g : Geometry) (r : Nat) (s : State) : (medianEffect g r s).cmd = s.cmd := rfl
@[simp] theorem medianEffect_imgBase (g : Geometry) (r : Nat) (s : State) : (medianEffect g r s).imgBase = s.imgBase := rfl
@[simp] theorem medianEffect_imgWidth (g : Geometry) (r : Nat) (s : State) : (medianEffect g r s).imgWidth = s.imgWidth := rfl
@[simp] theorem medianEffect_imgHeight (g : Geometry) (r : Nat) (s : State) : (medianEffect g r s).imgHeight = s.imgHeight := rfl
@[simp] theorem medianEffect_imgChannels (g : Geometry) (r : Nat) (s : State) : (medianEffect g r s).imgChannels = s.imgChannels := rfl
@[simp] theorem medianEffect_sigma (g : Geometry) (r : Nat) (s : State) : (medianEffect g r s).sigma = s.sigma := rfl
@[simp] theorem medianEffect_medRadius (g : Geometry) (r : Nat) (s : State) : (medianEffect g r s).medRadius = s.medRadius := rfl
@[simp] theorem medianEffect_kradius (g : Geometry) (r : Nat) (s : State) : (medianEffect g r s).kradius = s.kradius := rfl
@[simp] theorem medianEffect_latch (g : Geometry) (r : Nat) (s : State) : (medianEffect g r s).latch = s.latch := rfl
@[simp] theorem medianEffect_scratch (g : Geometry) (r : Nat) (s : State) : (medianEffect g r s).scratch = (medianRun s g r).scratch := rfl
@[simp] theorem medianEffect_kt (g : Geometry) (r : Nat) (s : State) : (medianEffect g r s).kt = s.kt := rfl
@[simp] theorem medianEffect_hist (g : Geometry) (r : Nat) (s : State) : (medianEffect g r s).hist = (medianRun s g r).hist := rfl
@[simp] theorem medianEffect_dxb (g : Geometry) (r : Nat) (s : State) : (medianEffect g r s).dxb = s.dxb := rfl
@[simp] theorem medianEffect_dyb (g : Geometry) (r : Nat) (s : State) : (medianEffect g r s).dyb = s.dyb := rfl
@[simp] theorem medianEffect_host (g : Geometry) (r : Nat) (s : State) : (medianEffect g r s).host = s.host := rfl
@[simp] theorem medianEffect_sched (g : Geometry) (r : Nat) (s : State) : (medianEffect g r s).sched = s.sched := rfl
@[simp] theorem medianEffect_freeNext (g : Geometry) (r : Nat) (s : State) : (medianEffect g r s).freeNext = s.freeNext := rfl

/-! `blurEffect` -/

@[simp] theorem blurEffect_params (g : Geometry) (sg : F32) (r : Nat) (s : State) : (blurEffect g sg r s).params = s.params := rfl
@[simp] theorem blurEffect_status (g : Geometry) (sg : F32) (r : Nat) (s : State) : (blurEffect g sg r s).status = s.status := rfl
@[simp] theorem blurEffect_irqEn (g : Geometry) (sg : F32) (r : Nat) (s : State) : (blurEffect g sg r s).irqEn = s.irqEn := rfl
@[simp] theorem blurEffect_cmd (g : Geometry) (sg : F32) (r : Nat) (s : State) : (blurEffect g sg r s).cmd = s.cmd := rfl
@[simp] theorem blurEffect_imgBase (g : Geometry) (sg : F32) (r : Nat) (s : State) : (blurEffect g sg r s).imgBase = s.imgBase := rfl
@[simp] theorem blurEffect_imgWidth (g : Geometry) (sg : F32) (r : Nat) (s : State) : (blurEffect g sg r s).imgWidth = s.imgWidth := rfl
@[simp] theorem blurEffect_imgHeight (g : Geometry) (sg : F32) (r : Nat) (s : State) : (blurEffect g sg r s).imgHeight = s.imgHeight := rfl
@[simp] theorem blurEffect_imgChannels (g : Geometry) (sg : F32) (r : Nat) (s : State) : (blurEffect g sg r s).imgChannels = s.imgChannels := rfl
@[simp] theorem blurEffect_sigma (g : Geometry) (sg : F32) (r : Nat) (s : State) : (blurEffect g sg r s).sigma = s.sigma := rfl
@[simp] theorem blurEffect_medRadius (g : Geometry) (sg : F32) (r : Nat) (s : State) : (blurEffect g sg r s).medRadius = s.medRadius := rfl
@[simp] theorem blurEffect_kradius (g : Geometry) (sg : F32) (r : Nat) (s : State) : (blurEffect g sg r s).kradius = BitVec.ofNat 32 r := rfl
@[simp] theorem blurEffect_latch (g : Geometry) (sg : F32) (r : Nat) (s : State) : (blurEffect g sg r s).latch = s.latch := rfl
@[simp] theorem blurEffect_kt (g : Geometry) (sg : F32) (r : Nat) (s : State) : (blurEffect g sg r s).kt = kernelWeights sg r ++ s.kt.drop (2 * r + 1) := rfl
@[simp] theorem blurEffect_hist (g : Geometry) (sg : F32) (r : Nat) (s : State) : (blurEffect g sg r s).hist = s.hist := rfl
@[simp] theorem blurEffect_dxb (g : Geometry) (sg : F32) (r : Nat) (s : State) : (blurEffect g sg r s).dxb = s.dxb := rfl
@[simp] theorem blurEffect_dyb (g : Geometry) (sg : F32) (r : Nat) (s : State) : (blurEffect g sg r s).dyb = s.dyb := rfl
@[simp] theorem blurEffect_host (g : Geometry) (sg : F32) (r : Nat) (s : State) : (blurEffect g sg r s).host = s.host := rfl
@[simp] theorem blurEffect_sched (g : Geometry) (sg : F32) (r : Nat) (s : State) : (blurEffect g sg r s).sched = s.sched := rfl
@[simp] theorem blurEffect_freeNext (g : Geometry) (sg : F32) (r : Nat) (s : State) : (blurEffect g sg r s).freeNext = s.freeNext := rfl

/-! `withHidden` -/

@[simp] theorem withHidden_params (m : Memory) (kt hist : List Word) (dxb dyb : List (List (BitVec 16))) (s : State) : (s.withHidden m kt hist dxb dyb).params = s.params := rfl
@[simp] theorem withHidden_status (m : Memory) (kt hist : List Word) (dxb dyb : List (List (BitVec 16))) (s : State) : (s.withHidden m kt hist dxb dyb).status = s.status := rfl
@[simp] theorem withHidden_irqEn (m : Memory) (kt hist : List Word) (dxb dyb : List (List (BitVec 16))) (s : State) : (s.withHidden m kt hist dxb dyb).irqEn = s.irqEn := rfl
@[simp] theorem withHidden_cmd (m : Memory) (kt hist : List Word) (dxb dyb : List (List (BitVec 16))) (s : State) : (s.withHidden m kt hist dxb dyb).cmd = s.cmd := rfl
@[simp] theorem withHidden_imgBase (m : Memory) (kt hist : List Word) (dxb dyb : List (List (BitVec 16))) (s : State) : (s.withHidden m kt hist dxb dyb).imgBase = s.imgBase := rfl
@[simp] theorem withHidden_imgWidth (m : Memory) (kt hist : List Word) (dxb dyb : List (List (BitVec 16))) (s : State) : (s.withHidden m kt hist dxb dyb).imgWidth = s.imgWidth := rfl
@[simp] theorem withHidden_imgHeight (m : Memory) (kt hist : List Word) (dxb dyb : List (List (BitVec 16))) (s : State) : (s.withHidden m kt hist dxb dyb).imgHeight = s.imgHeight := rfl
@[simp] theorem withHidden_imgChannels (m : Memory) (kt hist : List Word) (dxb dyb : List (List (BitVec 16))) (s : State) : (s.withHidden m kt hist dxb dyb).imgChannels = s.imgChannels := rfl
@[simp] theorem withHidden_sigma (m : Memory) (kt hist : List Word) (dxb dyb : List (List (BitVec 16))) (s : State) : (s.withHidden m kt hist dxb dyb).sigma = s.sigma := rfl
@[simp] theorem withHidden_medRadius (m : Memory) (kt hist : List Word) (dxb dyb : List (List (BitVec 16))) (s : State) : (s.withHidden m kt hist dxb dyb).medRadius = s.medRadius := rfl
@[simp] theorem withHidden_kradius (m : Memory) (kt hist : List Word) (dxb dyb : List (List (BitVec 16))) (s : State) : (s.withHidden m kt hist dxb dyb).kradius = s.kradius := rfl
@[simp] theorem withHidden_imem (m : Memory) (kt hist : List Word) (dxb dyb : List (List (BitVec 16))) (s : State) : (s.withHidden m kt hist dxb dyb).imem = s.imem := rfl
@[simp] theorem withHidden_latch (m : Memory) (kt hist : List Word) (dxb dyb : List (List (BitVec 16))) (s : State) : (s.withHidden m kt hist dxb dyb).latch = s.latch := rfl
@[simp] theorem withHidden_scratch (m : Memory) (kt hist : List Word) (dxb dyb : List (List (BitVec 16))) (s : State) : (s.withHidden m kt hist dxb dyb).scratch = m := rfl
@[simp] theorem withHidden_kt (m : Memory) (kt hist : List Word) (dxb dyb : List (List (BitVec 16))) (s : State) : (s.withHidden m kt hist dxb dyb).kt = kt := rfl
@[simp] theorem withHidden_hist (m : Memory) (kt hist : List Word) (dxb dyb : List (List (BitVec 16))) (s : State) : (s.withHidden m kt hist dxb dyb).hist = hist := rfl
@[simp] theorem withHidden_dxb (m : Memory) (kt hist : List Word) (dxb dyb : List (List (BitVec 16))) (s : State) : (s.withHidden m kt hist dxb dyb).dxb = dxb := rfl
@[simp] theorem withHidden_dyb (m : Memory) (kt hist : List Word) (dxb dyb : List (List (BitVec 16))) (s : State) : (s.withHidden m kt hist dxb dyb).dyb = dyb := rfl
@[simp] theorem withHidden_host (m : Memory) (kt hist : List Word) (dxb dyb : List (List (BitVec 16))) (s : State) : (s.withHidden m kt hist dxb dyb).host = s.host := rfl
@[simp] theorem withHidden_sched (m : Memory) (kt hist : List Word) (dxb dyb : List (List (BitVec 16))) (s : State) : (s.withHidden m kt hist dxb dyb).sched = s.sched := rfl
@[simp] theorem withHidden_freeNext (m : Memory) (kt hist : List Word) (dxb dyb : List (List (BitVec 16))) (s : State) : (s.withHidden m kt hist dxb dyb).freeNext = s.freeNext := rfl

/-- An acknowledge changes only DONE, ERR and HOSTERR (R31). -/
@[simp] theorem acknowledge_busy (v : Word) (s : State) : (s.acknowledge v).status.busy = s.status.busy := rfl
@[simp] theorem acknowledge_errCode (v : Word) (s : State) : (s.acknowledge v).status.errCode = s.status.errCode := rfl
@[simp] theorem acknowledge_errDetail (v : Word) (s : State) :
    (s.acknowledge v).status.errDetail = s.status.errDetail := rfl

/-- A failed completion as a record (R199). -/
theorem failWith_eq (e : CmdError) (s : State) :
    s.failWith e = { s with status := s.status.failed e.code e.detail } := rfl

/-- A successful completion as a record (R200). -/
theorem completeOk_eq (s : State) : s.completeOk = { s with status := s.status.succeeded } := rfl

end Sys2Proof.Machine
end

