-- ==== Sys2Proof/Laws/Bus.lean ====
section
/-! SUPPORT. What a HOST access reaches and does, said once per case (spec/20_memory.md R61 to R64, R69). -/

namespace Sys2Proof.Machine

theorem atOffset_offset (r : Reg) : Reg.atOffset r.offset = some r := by cases r <;> rfl

theorem atOffset_of_reserved {o : Nat} (h : 0x38 ≤ o) : Reg.atOffset o = none := by
  simp only [Reg.atOffset, List.find?_eq_none, beq_iff_eq]
  intro r _
  cases r <;> simp only [Reg.offset] <;> omega

theorem offset_lt_window (r : Reg) : r.offset < imemWindow := by cases r <;> decide

theorem offset_aligned (r : Reg) : r.offset % 4 = 0 := by cases r <;> rfl

@[simp] theorem reach_reg (s : State) (r : Reg) : s.reach .w4 r.offset = .register r := by
  simp [State.reach, offset_lt_window, offset_aligned, atOffset_offset]

theorem reach_reserved (s : State) {o : Nat} (h : 0x38 ≤ o) (h2 : o < imemWindow) (h3 : o % 4 = 0) :
    s.reach .w4 o = .reserved := by
  simp [State.reach, h2, h3, atOffset_of_reserved h]

/-- A register-window access that is not 4 bytes wide and aligned is refused (R64). -/
theorem reach_register_window_refused (s : State) {w : Width} {o : Nat} (h : o < imemWindow)
    (hw : w ≠ .w4 ∨ o % 4 ≠ 0) : s.reach w o = .refused := by
  unfold State.reach
  rw [if_pos h, if_neg (by rintro ⟨rfl, h'⟩; simp_all)]

/-- Every IMEM-window access while BUSY is refused (R69). -/
theorem reach_busy (s : State) {w : Width} {o : Nat} (h : imemWindow ≤ o) (hb : s.status.busy = true) :
    s.reach w o = .refused := by
  unfold State.reach
  rw [if_neg (by omega), if_pos hb]

/-- A misaligned IMEM-window access is refused (R63). -/
theorem reach_misaligned (s : State) {w : Width} {o : Nat} (h : imemWindow ≤ o) (hw : o % w.bytes ≠ 0) :
    s.reach w o = .refused := by
  unfold State.reach
  rw [if_neg (by omega), if_pos hw, ite_self]

/-- An access above IMEM is refused (R61). -/
theorem reach_unmapped (s : State) {w : Width} {o : Nat} (h : imemWindow + s.params.imemBytes ≤ o) :
    s.reach w o = .refused := by
  unfold State.reach
  rw [if_neg (by omega), if_neg (c := o - imemWindow < s.params.imemBytes) (by omega), ite_self, ite_self]

/-- An aligned access inside IMEM with BUSY = 0 is performed (R63). -/
theorem reach_memory (s : State) {w : Width} {a : Nat} (hb : s.status.busy = false) (ha : a % w.bytes = 0)
    (hlt : a < s.params.imemBytes) : s.reach w (imemWindow + a) = .memory a := by
  have hal : (imemWindow + a) % w.bytes = 0 := by
    cases w <;> simp only [Width.bytes, imemWindow] at ha ⊢ <;> omega
  unfold State.reach
  rw [if_neg (by omega), hb, if_neg (by simp), if_neg (by simp [hal]), Nat.add_sub_cancel_left, if_pos hlt]

/-- A register write reaches the register (R64). -/
theorem hostWrite_reg (s : State) (r : Reg) (v : Word) : s.hostWrite .w4 r.offset v = s.writeReg r v := by
  simp [State.hostWrite]

/-- A register read returns the register and has no side effect (R71). -/
theorem hostRead_reg (s : State) (r : Reg) : s.hostRead .w4 r.offset = (s.readReg r, s) := by
  simp [State.hostRead]

/-- A performed read of IMEM. -/
theorem hostRead_memory {s : State} {w : Width} {a o : Nat} (h : s.reach w o = .memory a) :
    s.hostRead w o = (s.imem.memRead a w.bytes, s) := by
  unfold State.hostRead; rw [h]

/-- A performed write of IMEM. -/
theorem hostWrite_memory {s : State} {w : Width} {a o : Nat} (h : s.reach w o = .memory a) (v : Word) :
    s.hostWrite w o v = { s with imem := s.imem.memWrite a w.bytes v } := by
  unfold State.hostWrite; rw [h]

theorem hostWrite_refused {s : State} {w : Width} {o : Nat} (h : s.reach w o = .refused) (v : Word) :
    s.hostWrite w o v = s.refuse := by simp [State.hostWrite, h]

theorem hostRead_refused {s : State} {w : Width} {o : Nat} (h : s.reach w o = .refused) :
    s.hostRead w o = (0#32, s.refuse) := by simp [State.hostRead, h]

/-- Everything a HOST read can do to the state: nothing, or set HOSTERR. -/
theorem hostRead_state_cases (s : State) (w : Width) (o : Nat) :
    (s.hostRead w o).2 = s ∨ (s.hostRead w o).2 = s.refuse := by
  unfold State.hostRead
  split <;> simp

/-- Everything a HOST write can do: a refusal, nothing, an acknowledge, a CTRL write, the start of a command in IDLE, a
parameter register in IDLE, or bytes of IMEM in IDLE. -/
theorem hostWrite_cases (s : State) (w : Width) (o : Nat) (v : Word) :
    s.hostWrite w o v = s.refuse ∨ s.hostWrite w o v = s ∨ s.hostWrite w o v = s.acknowledge v ∨
    s.hostWrite w o v = { s with irqEn := v.getLsbD 0 } ∨
    (s.status.busy = false ∧ s.hostWrite w o v = s.startCommand v) ∨
    (s.status.busy = false ∧ ∃ b ww hh c sg r, s.hostWrite w o v =
      { s with imgBase := b, imgWidth := ww, imgHeight := hh, imgChannels := c, sigma := sg, medRadius := r }) ∨
    (s.status.busy = false ∧ ∃ a, a % w.bytes = 0 ∧ a < s.params.imemBytes ∧
      s.hostWrite w o v = { s with imem := s.imem.memWrite a w.bytes v }) := by
  have hreach : ∀ a, s.reach w o = .memory a → s.status.busy = false ∧ a % w.bytes = 0 ∧ a < s.params.imemBytes := by
    intro a h
    unfold State.reach at h
    split at h
    · split at h
      · split at h <;> cases h
      · cases h
    · split at h
      · cases h
      · next hb =>
        split at h
        · cases h
        · next hal =>
          split at h
          · next hlt =>
            have ha : o - imemWindow = a := by simpa using h
            rw [← ha]
            refine ⟨by simpa using hb, ?_, hlt⟩
            cases w <;> simp only [Width.bytes, imemWindow] at hal ⊢ <;> omega
          · cases h
  unfold State.hostWrite
  split
  · next r _ =>
    unfold State.writeReg
    split
    · exact .inl rfl
    · next hb =>
      cases r <;> simp only [State.storeReg, Reg.busyLocked, Bool.and_true, Bool.not_eq_true] at hb ⊢
      · exact .inr (.inl trivial)
      · exact .inr (.inr (.inl trivial))
      · exact .inr (.inr (.inr (.inl trivial)))
      · exact .inr (.inr (.inr (.inr (.inl ⟨hb, trivial⟩))))
      · exact .inr (.inr (.inr (.inr (.inr (.inl ⟨hb, _, _, _, _, _, _, rfl⟩)))))
      · exact .inr (.inr (.inr (.inr (.inr (.inl ⟨hb, _, _, _, _, _, _, rfl⟩)))))
      · exact .inr (.inr (.inr (.inr (.inr (.inl ⟨hb, _, _, _, _, _, _, rfl⟩)))))
      · exact .inr (.inr (.inr (.inr (.inr (.inl ⟨hb, _, _, _, _, _, _, rfl⟩)))))
      · exact .inr (.inr (.inr (.inr (.inr (.inl ⟨hb, _, _, _, _, _, _, rfl⟩)))))
      · exact .inr (.inr (.inr (.inr (.inr (.inl ⟨hb, _, _, _, _, _, _, rfl⟩)))))
      · exact .inr (.inl trivial)
      · exact .inr (.inl trivial)
      · exact .inr (.inl trivial)
      · exact .inr (.inl trivial)
  · exact .inr (.inl rfl)
  · next a h =>
    obtain ⟨hb, hal, hlt⟩ := hreach a h
    exact .inr (.inr (.inr (.inr (.inr (.inr ⟨hb, a, hal, hlt, rfl⟩)))))
  · exact .inl rfl

end Sys2Proof.Machine
end

