-- ==== Sys2Proof/Laws/Decode.lean ====
section
/-! SUPPORT. The fields of an encoded command word, and what the decoder answers on it (spec/30_encoding.md R90 to
R93). -/

namespace Sys2Proof

theorem opcodeField_encode (i : Instr) : opcodeField (encode i) = instrOpcode i := by cases i <;> rfl

theorem mbzField_encode (i : Instr) : mbzField (encode i) = 0#28 := by cases i <;> rfl

@[simp] theorem opcodeInstr_instrOpcode (i : Instr) : opcodeInstr (instrOpcode i) = some i := by cases i <;> rfl

/-- A word is its two fields. -/
theorem fields_append (v : Word) : mbzField v ++ opcodeField v = v := by
  refine BitVec.eq_of_getElem_eq fun k hk => ?_
  simp only [mbzField, opcodeField, BitVec.getElem_append, BitVec.getElem_extractLsb']
  split
  · rw [Nat.zero_add]; exact BitVec.getLsbD_eq_getElem hk
  · rw [show 4 + (k - 4) = k by omega]; exact BitVec.getLsbD_eq_getElem hk

/-- An opcode stands for at most one command. -/
theorem instrOpcode_of_opcodeInstr {op : BitVec 4} {i : Instr} (h : opcodeInstr op = some i) : instrOpcode i = op := by
  unfold opcodeInstr at h
  split at h
  · cases h; exact Eq.symm ‹_›
  split at h
  · cases h; exact Eq.symm ‹_›
  split at h
  · cases h; exact Eq.symm ‹_›
  split at h
  · cases h; exact Eq.symm ‹_›
  · cases h

end Sys2Proof
end

