-- ==== Sys2Proof/Laws/Events.lean ====
section
/-! SUPPORT. What a turn is: where a target of a host script lies, the script variables, an access beside the schedule,
and the step as the turn the schedule names. -/

namespace Sys2Proof.Machine

/-! ### Targets (R60, R61, R96) -/

@[simp] theorem offset_reg (p : Config.Params) (r : Reg) : (Target.reg r).offset? p = some r.offset := rfl

theorem offset_imem (p : Config.Params) {o : Nat} (h : o < 0x01000000) :
    (Target.imem o).offset? p = some (imemWindow + o) :=
  if_pos (by unfold imemWindow blockBytes; omega)

theorem offset_imem_outside (p : Config.Params) {o : Nat} (h : 0x01000000 ≤ o) : (Target.imem o).offset? p = none :=
  if_neg (by unfold imemWindow blockBytes; omega)

theorem offset_bus (p : Config.Params) {o : Nat} (h : o < 0x02000000) :
    (Target.bus (p.blockBase + o)).offset? p = some o := by
  simp only [Target.offset?, Nat.add_sub_cancel_left]
  exact if_pos (by unfold blockBytes; omega)

theorem offset_bus_outside (p : Config.Params) {addr : Nat}
    (h : addr < p.blockBase ∨ p.blockBase + 0x02000000 ≤ addr) : (Target.bus addr).offset? p = none :=
  if_neg (by unfold blockBytes; omega)

/-! ### Script variables -/

@[simp] theorem var_setVar (h : HostAgent) (x : Nat) (v : Word) : (h.setVar x v).var x = v := by
  simp [HostAgent.var, HostAgent.setVar]

theorem var_setVar_ne (h : HostAgent) {x z : Nat} (v : Word) (hz : z ≠ x) : (h.setVar x v).var z = h.var z := by
  have hp : (fun p : Nat × Word => decide ((!p.1 == x) = true ∧ (p.1 == z) = true)) = fun p => p.1 == z := by
    funext p
    by_cases hpz : p.1 = z <;> simp [hpz, hz]
  simp only [HostAgent.var, HostAgent.setVar]
  rw [List.find?_cons_of_neg (by simpa using Ne.symm hz), List.find?_filter, hp]

/-! ### An access does not look at the schedule -/

theorem hostRead_sched (s : State) (w : Width) (o : Nat) (ts : List Turn) :
    ({ s with sched := ts } : State).hostRead w o = ((s.hostRead w o).1, { (s.hostRead w o).2 with sched := ts }) := by
  have h : ({ s with sched := ts } : State).reach w o = s.reach w o := rfl
  unfold State.hostRead
  rw [h]
  cases s.reach w o with
  | register r => cases r <;> rfl
  | reserved => rfl
  | memory a => rfl
  | refused => rfl

theorem hostWrite_sched (s : State) (w : Width) (o : Nat) (v : Word) (ts : List Turn) :
    ({ s with sched := ts } : State).hostWrite w o v = { s.hostWrite w o v with sched := ts } := by
  have h : ({ s with sched := ts } : State).reach w o = s.reach w o := rfl
  unfold State.hostWrite
  rw [h]
  cases s.reach w o with
  | register r =>
    simp only [State.writeReg]
    split
    · rfl
    · cases r <;> rfl
  | reserved => rfl
  | memory a => rfl
  | refused => rfl

/-! ### The step -/

theorem step_of_sched_cons {s : State} {u : Turn} {ts : List Turn} (h : s.sched = u :: ts) :
    step s = ({ s with sched := ts } : State).takeTurn u := by
  simp only [step, State.nextTurn, h]

theorem step_of_sched_nil {s : State} (h : s.sched = []) : step s = s.takeTurn s.defaultTurn := by
  simp only [step, State.nextTurn, h]

/-- HOST moves where its turn heads the schedule, and where the schedule is empty and no command runs (log 3). -/
theorem step_of_hostTurn {s : State} {ts : List Turn}
    (h : s.sched = .host :: ts ∨ (s.sched = [] ∧ ts = [] ∧ s.status.busy = false)) :
    step s = ({ s with sched := ts } : State).hostTurn := by
  obtain h | ⟨h, rfl, hb⟩ := h
  · exact step_of_sched_cons h
  · rw [step_of_sched_nil h, State.defaultTurn, hb, ← h]
    rfl

/-- ENGINE moves where its turn heads the schedule, and where the schedule is empty and a command runs (log 3). -/
theorem step_of_engineTurn {s : State} {ts : List Turn} (hb : s.status.busy = true)
    (h : s.sched = .engine :: ts ∨ (s.sched = [] ∧ ts = [])) :
    step s = ({ s with sched := ts } : State).engineStep := by
  obtain h | ⟨h, rfl⟩ := h
  · rw [step_of_sched_cons h]
    exact if_pos hb
  · rw [step_of_sched_nil h, State.defaultTurn, hb, ← h]
    exact if_pos hb

/-- HOST's turn runs the statement HOST is at. -/
theorem step_of_hostStmt {s : State} {ts : List Turn} {st : Stmt}
    (h : s.sched = .host :: ts ∨ (s.sched = [] ∧ ts = [] ∧ s.status.busy = false))
    (hc : s.host.current = some st) : step s = ({ s with sched := ts } : State).hostStmt st := by
  rw [step_of_hostTurn h, State.hostTurn]
  simp only [hc]

end Sys2Proof.Machine
end

