-- ==== Sys2Proof/Laws/Raster.lean ====
section
/-! SUPPORT. The laws of the pixel buffer's layout (spec/20_memory.md R65), of clamping (spec/00_scope.md R10), and of
the geometry checks. -/

namespace Sys2Proof.Machine

@[simp] theorem length_raster (w h c : Nat) (f : Nat → Nat → Nat → Byte) : (raster w h c f).length = h * w * c := by
  simp [raster]

/-- A sample's place lies inside the byte array. -/
theorem sampleIndex_lt {w h c y x ch : Nat} (hy : y < h) (hx : x < w) (hc : ch < c) :
    sampleIndex w c y x ch < h * w * c := by
  unfold sampleIndex
  have h1 : y * w + x + 1 ≤ h * w := by
    calc y * w + x + 1 ≤ y * w + w := by omega
      _ = (y + 1) * w := by rw [Nat.add_mul, Nat.one_mul]
      _ ≤ h * w := Nat.mul_le_mul_right _ hy
  calc (y * w + x) * c + ch < (y * w + x) * c + c := by omega
    _ = (y * w + x + 1) * c := by rw [Nat.add_mul _ 1, Nat.one_mul]
    _ ≤ h * w * c := Nat.mul_le_mul_right _ h1

/-- The channel, column and row of a sample's place. -/
theorem sampleIndex_mod {w c y x ch : Nat} (hc : ch < c) : sampleIndex w c y x ch % c = ch := by
  simp [sampleIndex, Nat.mod_eq_of_lt hc]

theorem sampleIndex_div {w c y x ch : Nat} (hc : ch < c) : sampleIndex w c y x ch / c = y * w + x := by
  unfold sampleIndex
  rw [Nat.mul_comm, Nat.mul_add_div (by omega), Nat.div_eq_of_lt hc, Nat.add_zero]

theorem pixel_div {w y x : Nat} (hx : x < w) : (y * w + x) / w = y := by
  rw [Nat.mul_comm, Nat.mul_add_div (by omega), Nat.div_eq_of_lt hx, Nat.add_zero]

theorem pixel_mod {w y x : Nat} (hx : x < w) : (y * w + x) % w = x := by
  simp [Nat.mod_eq_of_lt hx]

/-- The byte of a raster at a sample's place is the sample. -/
theorem getElem_raster {w h c : Nat} (f : Nat → Nat → Nat → Byte) {y x ch : Nat} (hx : x < w)
    (hc : ch < c) (hlt : sampleIndex w c y x ch < (raster w h c f).length) :
    (raster w h c f)[sampleIndex w c y x ch] = f y x ch := by
  simp [raster, sampleIndex_mod hc, sampleIndex_div hc, pixel_div hx, pixel_mod hx]

/-- A sample of an image just written as a raster. -/
theorem read_writeBytes_raster (m : Memory) (a : Nat) {w h c : Nat} (f : Nat → Nat → Nat → Byte) {y x ch : Nat}
    (hy : y < h) (hx : x < w) (hc : ch < c) :
    (m.writeBytes a (raster w h c f)).read (a + sampleIndex w c y x ch) = f y x ch := by
  have hlt : sampleIndex w c y x ch < (raster w h c f).length := by simpa using sampleIndex_lt hy hx hc
  rw [read_writeBytes_of_lt _ _ _ _ hlt, getElem_raster f hx hc hlt]

/-- Two rasters agree when their samples agree. -/
theorem raster_congr {w h c : Nat} {f g : Nat → Nat → Nat → Byte}
    (hfg : ∀ y x ch, y < h → x < w → ch < c → f y x ch = g y x ch) : raster w h c f = raster w h c g := by
  unfold raster
  refine List.map_congr_left fun i hi => ?_
  have hi' : i < h * w * c := by simpa using hi
  have hc : 0 < c := by rcases Nat.eq_zero_or_pos c with rfl | h' <;> omega
  have hp : i / c < h * w := Nat.div_lt_of_lt_mul (by rwa [Nat.mul_comm])
  have hw : 0 < w := by
    rcases Nat.eq_zero_or_pos w with rfl | h'
    · simp at hp
    · exact h'
  exact hfg _ _ _ (Nat.div_lt_of_lt_mul (by rwa [Nat.mul_comm])) (Nat.mod_lt _ hw) (Nat.mod_lt _ hc)

/-- A clamped index lies inside a non-empty range. -/
theorem clampIndex_lt {n : Nat} (hn : 0 < n) (v : Int) : clampIndex v n < n := by
  simp only [clampIndex, clamp]; omega

/-- A valid index is its own clamp. -/
theorem clampIndex_of_lt {n i : Nat} (h : i < n) : clampIndex (i : Int) n = i := by
  simp only [clampIndex, clamp]; omega

/-- The geometry checks pass exactly on a valid geometry (R194 to R196). -/
theorem geometryError_eq_none_iff (p : Config.Params) (g : Geometry) : geometryError p g = none ↔ g.Valid p := by
  simp only [geometryError, Geometry.Valid, Geometry.regionBytes]
  by_cases h1 : g.w = 0 ∨ g.h = 0
  · simp only [h1, if_true]; simp; omega
  · by_cases h2 : g.c = 1 ∨ g.c = 3 ∨ g.c = 4
    · by_cases h3 : p.imemBytes < g.base + g.w * g.h * g.c
      · simp only [h1, h2, h3, not_true_eq_false, if_false, if_true]; simp; omega
      · simp only [h1, h2, h3, not_true_eq_false, if_false, true_iff, true_and]; omega
    · simp only [h1, h2, not_false_eq_true, if_false, if_true]; simp

/-- What the geometry checks report is one of the three causes of R194 to R196. -/
theorem geometryError_cases {p : Config.Params} {g : Geometry} {e : CmdError} (h : geometryError p g = some e) :
    e = .empty ∨ e = .channels ∨ e = .region := by
  simp only [geometryError] at h
  split at h
  · simp_all
  · split at h
    · simp_all
    · split at h <;> simp_all

end Sys2Proof.Machine
end

