-- ==== Sys2Proof/Laws/Exec.lean ====
section
/-! SUPPORT. What each command can do, said once: the outcomes of `exec` case by case. -/

namespace Sys2Proof.Machine

/-- Everything GRAY can do. -/
theorem execGray_cases (s : State) :
    (∃ e, geometryError s.params s.latch.geometry = some e ∧ exec .gray s = .next (s.failWith e)) ∨
    (geometryError s.params s.latch.geometry = none ∧
      exec .gray s = .next (grayEffect s.latch.geometry s).completeOk) := by
  simp only [exec, execGray]
  split <;> simp_all

/-- Everything EDGES can do. -/
theorem execEdges_cases (s : State) :
    (∃ e, geometryError s.params s.latch.geometry = some e ∧ exec .edges s = .next (s.failWith e)) ∨
    (geometryError s.params s.latch.geometry = none ∧
      s.params.scratchBytes < edgesScratchBytes s.latch.geometry ∧ exec .edges s = .next (s.failWith .scratch)) ∨
    (geometryError s.params s.latch.geometry = none ∧
      edgesScratchBytes s.latch.geometry ≤ s.params.scratchBytes ∧
      exec .edges s = .next (edgesEffect s.latch.geometry s).completeOk) := by
  simp only [exec, execEdges]
  split
  · simp_all
  · split
    · simp_all
    · right; right; simp_all

/-- Everything MEDIAN can do. -/
theorem execMedian_cases (s : State) :
    (∃ e, geometryError s.params s.latch.geometry = some e ∧ exec .median s = .next (s.failWith e)) ∨
    (geometryError s.params s.latch.geometry = none ∧ s.latch.r.toNat = 0 ∧
      exec .median s = .next s.completeOk) ∨
    (geometryError s.params s.latch.geometry = none ∧ s.latch.r.toNat ≠ 0 ∧
      s.params.scratchBytes < canvasBytes s.latch.geometry s.latch.r.toNat ∧
      exec .median s = .next (s.failWith .scratch)) ∨
    (geometryError s.params s.latch.geometry = none ∧ s.latch.r.toNat ≠ 0 ∧
      canvasBytes s.latch.geometry s.latch.r.toNat ≤ s.params.scratchBytes ∧
      exec .median s = .next (medianEffect s.latch.geometry s.latch.r.toNat s).completeOk) := by
  simp only [exec, execMedian]
  split
  · simp_all
  · split
    · simp_all
    · split
      · right; right; left; simp_all
      · right; right; right; simp_all

/-- Everything the part of BLUR after the no-op path can do. -/
theorem blurRun_cases (g : Geometry) (sg : F32) (s : State) :
    (blurRun g sg s = s.failWith .kernel ∧ ∀ r, kernelRadius sg = some r → s.params.kmaxRadius < r) ∨
    ∃ r, kernelRadius sg = some r ∧ r ≤ s.params.kmaxRadius ∧
      ((s.params.scratchBytes < g.regionBytes ∧ blurRun g sg s = s.failWith .scratch) ∨
       (g.regionBytes ≤ s.params.scratchBytes ∧ blurRun g sg s = (blurEffect g sg r s).completeOk)) := by
  unfold blurRun
  split
  · left; simp_all
  · next r hr =>
    split
    · left; simp_all
    · right
      refine ⟨r, hr, by omega, ?_⟩
      split
      · left; simp_all
      · right; simp_all

/-- Everything BLUR can do. -/
theorem execBlur_cases (s : State) :
    (∃ e, geometryError s.params s.latch.geometry = some e ∧ exec .blur s = .next (s.failWith e)) ∨
    (geometryError s.params s.latch.geometry = none ∧
      ∃ e, sigmaError (F32.ofBits s.latch.sigma) = some e ∧ exec .blur s = .next (s.failWith e)) ∨
    (geometryError s.params s.latch.geometry = none ∧ sigmaError (F32.ofBits s.latch.sigma) = none ∧
      sigmaIsNoOp (F32.ofBits s.latch.sigma) = true ∧ exec .blur s = .next { s with kradius := 0#32 }.completeOk) ∨
    (geometryError s.params s.latch.geometry = none ∧ sigmaError (F32.ofBits s.latch.sigma) = none ∧
      sigmaIsNoOp (F32.ofBits s.latch.sigma) = false ∧
      exec .blur s = .next (blurRun s.latch.geometry (F32.ofBits s.latch.sigma) s)) := by
  simp only [exec, execBlur]
  split
  · simp_all
  · split
    · simp_all
    · split
      · right; right; left; simp_all
      · right; right; right; simp_all

/-- No command stops the machine: every one answers a next state (R190). -/
theorem exec_next (i : Instr) (s : State) : ∃ t, exec i s = .next t := by
  cases i with
  | blur => obtain ⟨_, _, h⟩ | ⟨_, _, _, h⟩ | ⟨_, _, _, h⟩ | ⟨_, _, _, h⟩ := execBlur_cases s <;> exact ⟨_, h⟩
  | edges => obtain ⟨_, _, h⟩ | ⟨_, _, h⟩ | ⟨_, _, h⟩ := execEdges_cases s <;> exact ⟨_, h⟩
  | median => obtain ⟨_, _, h⟩ | ⟨_, _, h⟩ | ⟨_, _, _, h⟩ | ⟨_, _, _, h⟩ := execMedian_cases s <;> exact ⟨_, h⟩
  | gray => obtain ⟨_, _, h⟩ | ⟨_, h⟩ := execGray_cases s <;> exact ⟨_, h⟩

/-- What the sigma check reports is one of the two causes of R111. -/
theorem sigmaError_cases {sg : F32} {e : CmdError} (h : sigmaError sg = some e) : e = .sigmaNan ∨ e = .sigmaNeg := by
  unfold sigmaError at h
  split at h <;> simp_all

/-- ENGINE's step in full: an illegal word fails, a command executes (R93, R193, R224). -/
theorem engineStep_cases (s : State) :
    (∃ i, decode s.latch.cmd = .ok i ∧ s.engineStep = exec i s) ∨
    (∃ e, decode s.latch.cmd = .error e ∧ s.engineStep = .next (s.failWith (illegalCause e))) := by
  unfold State.engineStep
  split <;> simp_all

end Sys2Proof.Machine
end

