-- ==== Sys2Proof/Laws/Shapes.lean ====
section
/-! SUPPORT. The shapes of what the engine computes: lengths of kernels, histograms, output rows and images, and the
range of derivative cells (spec/10_state.md R47 to R49). -/

namespace Sys2Proof.Machine

/-! ### Kernel -/

@[simp] theorem length_rawWeights (sg : F32) (r : Nat) : (rawWeights sg r).length = 2 * r + 1 := by simp [rawWeights]

@[simp] theorem length_kernelWeights (sg : F32) (r : Nat) : (kernelWeights sg r).length = 2 * r + 1 := by
  simp [kernelWeights]

/-- The tap store read at a tap of the kernel just generated. -/
theorem getD_kernel_append (sg : F32) (r : Nat) (rest : List Word) {k : Nat} (hk : k < 2 * r + 1) :
    (kernelWeights sg r ++ rest).getD k 0#32 = (kernelWeights sg r).getD k 0#32 := by
  simp [List.getD, List.getElem?_append, hk]

/-- A convolution depends on the taps of its kernel and on the bytes of its line only. -/
theorem conv1_congr {kt kt' : List Word} {r n : Nat} {get get' : Nat → Byte} (p : Nat) (hn : 0 < n)
    (hkt : ∀ k, k < 2 * r + 1 → kt.getD k 0#32 = kt'.getD k 0#32) (hget : ∀ j, j < n → get j = get' j) :
    conv1 kt r n get p = conv1 kt' r n get' p := by
  unfold conv1
  congr 1
  apply List.foldl_ext
  intro acc k hk
  simp only [tapProduct, hkt k (by simpa using hk), hget _ (clampIndex_lt hn _)]

/-- What `conv1` computes from a kernel of `2r+1` taps, whatever stands after the taps in the store (R119). -/
theorem conv1_append {K : List Word} {r : Nat} (hK : K.length = 2 * r + 1) (rest : List Word) (n : Nat)
    (get : Nat → Byte) (p : Nat) :
    conv1 (K ++ rest) r n get p =
      F32.toByte ((List.range (2 * r + 1)).foldl (fun acc k => F32.add acc (tapProduct K r n get p k)) F32.zero) := by
  unfold conv1
  congr 1
  refine List.foldl_ext _ _ _ fun acc k hk => ?_
  have hk := List.mem_range.1 hk
  simp only [tapProduct, List.getD_eq_getElem?_getD]
  rw [List.getElem?_append_left (by omega)]

@[simp] theorem length_horizontalPass (s : State) (g : Geometry) (kt : List Word) (r : Nat) :
    (s.horizontalPass g kt r).length = g.h * g.w * g.c := by simp [State.horizontalPass]

@[simp] theorem length_verticalPass (m : Memory) (g : Geometry) (kt : List Word) (r : Nat) :
    (verticalPass m g kt r).length = g.h * g.w * g.c := by simp [verticalPass]

/-! ### Histogram -/

@[simp] theorem length_modifyCount (f : Word → Word) (h : List Word) (b : Nat) :
    (modifyCount f h b).length = h.length := by
  induction h generalizing b with
  | nil => rfl
  | cons n h ih => cases b <;> simp [modifyCount, ih]

/-- One count changes, every other stays. -/
theorem getElem?_modifyCount (f : Word → Word) (h : List Word) (b k : Nat) :
    (modifyCount f h b)[k]? = if k = b then h[k]?.map f else h[k]? := by
  induction h generalizing b k with
  | nil => simp [modifyCount]
  | cons n h ih =>
    cases b with
    | zero => cases k <;> simp [modifyCount]
    | succ b => cases k <;> simp [modifyCount, ih]

@[simp] theorem length_countUp (h : List Word) (b : Byte) : (countUp h b).length = h.length := by simp [countUp]

@[simp] theorem length_countDown (h : List Word) (b : Byte) : (countDown h b).length = h.length := by simp [countDown]

theorem length_foldl_hist {α : Type} (f : List Word → α → List Word) (hf : ∀ h a, (f h a).length = h.length)
    (l : List α) (h : List Word) : (l.foldl f h).length = h.length := by
  induction l generalizing h with
  | nil => rfl
  | cons a l ih => rw [List.foldl_cons, ih, hf]

@[simp] theorem length_columnIn (P : Nat → Nat → Byte) (r y px : Nat) (h : List Word) :
    (columnIn P r y px h).length = h.length := length_foldl_hist _ (by simp) _ _

@[simp] theorem length_windowHistogram (P : Nat → Nat → Byte) (r y : Nat) :
    (windowHistogram P r y).length = 256 := by
  unfold windowHistogram
  rw [length_foldl_hist _ (by simp), emptyHistogram, List.length_replicate]

@[simp] theorem length_slideWindow (P : Nat → Nat → Byte) (r y x : Nat) (h : List Word) :
    (slideWindow P r y x h).length = h.length := length_foldl_hist _ (by simp) _ _

theorem length_medianRow_hist (P : Nat → Nat → Byte) (r y n x : Nat) (h : List Word) :
    (medianRow P r y n x h).1.length = h.length := by
  induction n generalizing x h with
  | zero => rfl
  | succ n ih => simp only [medianRow, ih]; split <;> simp

@[simp] theorem length_medianRow (P : Nat → Nat → Byte) (r y n x : Nat) (h : List Word) :
    (medianRow P r y n x h).2.length = n := by
  induction n generalizing x h with
  | zero => rfl
  | succ n ih => simp [medianRow, ih]

theorem length_medianRows_hist (P : Nat → Nat → Byte) (r w n y : Nat) (h : List Word) (hh : h.length = 256) :
    (medianRows P r w n y h).1.length = 256 := by
  induction n generalizing y h with
  | zero => exact hh
  | succ n ih => simp only [medianRows]; exact ih _ _ (by rw [length_medianRow_hist]; simp)

@[simp] theorem length_medianRows (P : Nat → Nat → Byte) (r w n y : Nat) (h : List Word) :
    (medianRows P r w n y h).2.length = n * w := by
  induction n generalizing y h with
  | zero => simp [medianRows]
  | succ n ih => simp [medianRows, ih, Nat.add_mul]; omega

@[simp] theorem length_canvas (s : State) (g : Geometry) (r ch : Nat) :
    (s.canvas g r ch).length = (g.h + 2 * r) * (g.w + 2 * r) := by simp [State.canvas]

/-- MEDIAN's working stores keep their shape, channel by channel. -/
theorem medianRun_shape (s : State) (g : Geometry) (r n : Nat) (hw : s.scratch.wf = true)
    (hi : s.scratch.within n = true) (hh : s.hist.length = 256) (hc : canvasBytes g r ≤ n) :
    (medianRun s g r).scratch.wf = true ∧ (medianRun s g r).scratch.within n = true ∧
      (medianRun s g r).hist.length = 256 := by
  unfold medianRun
  suffices ∀ (l : List Nat) (m : MedianRun), m.scratch.wf = true → m.scratch.within n = true → m.hist.length = 256 →
      (l.foldl (fun m ch => MedianRun.channel s g r ch m) m).scratch.wf = true ∧
      (l.foldl (fun m ch => MedianRun.channel s g r ch m) m).scratch.within n = true ∧
      (l.foldl (fun m ch => MedianRun.channel s g r ch m) m).hist.length = 256 from this _ _ hw hi hh
  intro l
  induction l with
  | nil => intro m h1 h2 h3; exact ⟨h1, h2, h3⟩
  | cons ch l ih =>
    intro m h1 h2 h3
    rw [List.foldl_cons]
    refine ih _ (writeBytes_wf _ _ _ h1) (writeBytes_within _ _ _ _ h2 (.inr ?_)) (length_medianRows_hist _ _ _ _ _ _ h3)
    rw [canvasBytes, Nat.mul_comm] at hc; simpa using hc

/-! ### Row buffers -/

theorem derivativeCellOk_ofInt {d : Int} (h1 : -255 ≤ d) (h2 : d ≤ 255) :
    derivativeCellOk (BitVec.ofInt 16 d) = true := by
  have : (BitVec.ofInt 16 d).toInt = d := by
    rw [BitVec.toInt_ofInt]
    exact Int.bmod_eq_of_le (by omega) (by omega)
  simp [derivativeCellOk, this, h1, h2]

theorem sobelDx_range (gr : Nat → Nat → Byte) (w h i j : Nat) :
    -255 ≤ sobelDx gr w h i j ∧ sobelDx gr w h i j ≤ 255 := by
  have h1 := (clampedSample gr w h i (j + 1)).isLt
  have h2 := (clampedSample gr w h i (j - 1)).isLt
  unfold sobelDx; omega

theorem sobelDy_range (gr : Nat → Nat → Byte) (w h i j : Nat) :
    -255 ≤ sobelDy gr w h i j ∧ sobelDy gr w h i j ≤ 255 := by
  have h1 := (clampedSample gr w h (i + 1) j).isLt
  have h2 := (clampedSample gr w h (i - 1) j).isLt
  unfold sobelDy; omega

theorem rowBufferOk_set {rows : List (List (BitVec 16))} (h : rowBufferOk rows = true) (k : Nat) {row : List (BitVec 16)}
    (hr : ∀ v ∈ row, derivativeCellOk v = true) : rowBufferOk (rows.set k row) = true := by
  simp only [rowBufferOk, Bool.and_eq_true, decide_eq_true_eq, List.length_set, List.all_eq_true] at h ⊢
  refine ⟨h.1, fun l hl => ?_⟩
  rcases List.mem_or_eq_of_mem_set hl with hl | rfl
  · exact h.2 l hl
  · exact hr

/-- Producing a row keeps both buffers in shape (R49). -/
theorem produce_ok (gr : Nat → Nat → Byte) (w h i : Nat) (b : RowBuffers) (hx : rowBufferOk b.dxb = true)
    (hy : rowBufferOk b.dyb = true) :
    rowBufferOk (b.produce gr w h i).dxb = true ∧ rowBufferOk (b.produce gr w h i).dyb = true := by
  constructor
  · refine rowBufferOk_set hx _ fun v hv => ?_
    simp only [derivativeRow, List.mem_map] at hv
    obtain ⟨j, -, rfl⟩ := hv
    exact derivativeCellOk_ofInt (sobelDx_range ..).1 (sobelDx_range ..).2
  · refine rowBufferOk_set hy _ fun v hv => ?_
    simp only [derivativeRow, List.mem_map] at hv
    obtain ⟨j, -, rfl⟩ := hv
    exact derivativeCellOk_ofInt (sobelDy_range ..).1 (sobelDy_range ..).2

theorem sobelSweep_ok (gr : Nat → Nat → Byte) (w h n i : Nat) (b : RowBuffers) (hx : rowBufferOk b.dxb = true)
    (hy : rowBufferOk b.dyb = true) :
    rowBufferOk (sobelSweep gr w h n i b).1.dxb = true ∧ rowBufferOk (sobelSweep gr w h n i b).1.dyb = true := by
  induction n generalizing i b with
  | zero => exact ⟨hx, hy⟩
  | succ n ih => exact ih _ _ (produce_ok gr w h i b hx hy).1 (produce_ok gr w h i b hx hy).2

@[simp] theorem length_outputRow (b : RowBuffers) (w h o : Nat) : (b.outputRow w h o).length = w := by
  simp [RowBuffers.outputRow]

/-- Every emitted row has `w` bytes. -/
theorem length_of_mem_sobelSweep {gr : Nat → Nat → Byte} {w h n i : Nat} {b : RowBuffers} {row : List Byte}
    (hr : row ∈ (sobelSweep gr w h n i b).2) : row.length = w := by
  induction n generalizing i b with
  | zero => simp [sobelSweep] at hr
  | succ n ih =>
    simp only [sobelSweep, List.mem_append, List.mem_map] at hr
    rcases hr with ⟨o, -, rfl⟩ | hr
    · simp
    · exact ih hr

/-- The sweep from row 0 emits as many rows as the image has (R158, R159). -/
theorem length_sobelSweep (gr : Nat → Nat → Byte) (w h n i : Nat) (b : RowBuffers) (hi : i + n = h) :
    (sobelSweep gr w h n i b).2.length = if n = 0 then 0 else if i = 0 then n else n + 1 := by
  induction n generalizing i b with
  | zero => rfl
  | succ n ih =>
    simp only [sobelSweep, List.length_append, List.length_map, ih (i + 1) _ (by omega), rowsReady]
    by_cases h1 : i = 0 <;> by_cases h2 : n = 0
    · obtain rfl : h = 1 := by omega
      simp [h1, h2]
    · have : ¬ i + 1 = h := by omega
      simp only [h1, h2]; simp; omega
    · have : i + 1 = h := by omega
      simp [h1, h2, this, show 1 ≤ i by omega]
    · have : ¬ i + 1 = h := by omega
      simp [h1, h2, this, show 1 ≤ i by omega]; omega

theorem length_flatten_of_forall {α : Type} {n : Nat} (l : List (List α)) (h : ∀ x ∈ l, x.length = n) :
    l.flatten.length = l.length * n := by
  induction l with
  | nil => simp
  | cons x l ih =>
    simp only [List.flatten_cons, List.length_append, List.length_cons, h x (by simp),
      ih fun y hy => h y (by simp [hy]), Nat.add_mul]
    omega

/-- EDGES writes exactly `h * w` bytes. -/
theorem length_edgesOutput (gr : Nat → Nat → Byte) (w h : Nat) (b : RowBuffers) :
    (sobelSweep gr w h h 0 b).2.flatten.length = h * w := by
  rw [length_flatten_of_forall _ fun _ hx => length_of_mem_sobelSweep hx, length_sobelSweep _ _ _ _ _ _ (by omega)]
  split <;> simp_all

@[simp] theorem length_grayImage (s : State) (g : Geometry) : (s.grayImage g).length = g.h * g.w := by
  simp [State.grayImage]

end Sys2Proof.Machine
end

