-- ==== Sys2Proof/Laws/Invariant.lean ====
section
/-! SUPPORT. Every named update keeps the parts of the invariant it touches. -/

namespace Sys2Proof.Machine

/-! ### STATUS -/

/-- A legal STATUS in the phase RUN has nothing but BUSY and HOSTERR to show (R33). -/
theorem legal_busy {st : Status} (h : st.legal = true) (hb : st.busy = true) :
    st.done = false ∧ st.err = false ∧ st.errCode = 0#4 ∧ st.errDetail = 0#8 := by
  obtain ⟨b, d, e, he, c, dt⟩ := st
  simp only at hb; subst hb
  simp only [Status.legal, Bool.and_eq_true, Bool.or_eq_true, Bool.not_eq_true', beq_iff_eq, Bool.true_eq_false,
    false_or, errorPairs, List.contains_iff_mem] at h
  obtain ⟨⟨⟨⟨-, hp⟩, ⟨hd, he'⟩, hc⟩, -⟩, -⟩ := h
  subst hc
  simp at hp
  exact ⟨hd, he', rfl, hp⟩

theorem legal_succeeded {st : Status} (he : st.err = false) : st.succeeded.legal = true := by
  simp [Status.succeeded, Status.legal, he, errorPairs]

theorem legal_failed {st : Status} (hd : st.done = false) (e : CmdError) :
    (st.failed e.code e.detail).legal = true := by
  cases e <;> simp [Status.failed, Status.legal, hd, errorPairs, CmdError.code, CmdError.detail]

theorem legal_start (b : Bool) :
    ({ busy := true, done := false, err := false, hostErr := b, errCode := 0#4, errDetail := 0#8 } : Status).legal
      = true := by
  cases b <;> decide

theorem legal_hostErr {st : Status} (h : st.legal = true) (b : Bool) : ({ st with hostErr := b }).legal = true := h

theorem legal_acknowledge {st : Status} (h : st.legal = true) (a b c : Bool) :
    ({ st with done := st.done && a, err := st.err && b, hostErr := st.hostErr && c } : Status).legal = true := by
  obtain ⟨bu, d, e, he, cd, dt⟩ := st
  generalize hp : errorPairs.contains (cd, dt) = p at h
  simp only [Status.legal, hp] at h ⊢
  cases bu <;> cases d <;> cases e <;> cases a <;> cases b <;> simp_all

/-! ### Updates -/

theorem Inv_refuse {s : State} (h : s.Inv) : s.refuse.Inv :=
  { h with status := legal_hostErr h.status true }

theorem Inv_acknowledge {s : State} (h : s.Inv) (v : Word) : (s.acknowledge v).Inv :=
  { h with status := legal_acknowledge h.status _ _ _ }

theorem Inv_startCommand {s : State} (h : s.Inv) (v : Word) : (s.startCommand v).Inv :=
  { h with
    status := legal_start _
    latched := fun _ => rfl }

/-- A failed completion of a running command (R199). -/
theorem Inv_failWith {s : State} (h : s.Inv) (hb : s.status.busy = true) (e : CmdError) : (s.failWith e).Inv :=
  { h with
    status := legal_failed (legal_busy h.status hb).1 e
    latched := fun h' => by cases h' }

/-- A successful completion, of a state whose stores are in shape and whose STATUS is that of a running command. -/
theorem Inv_completeOk {s t : State} (h : s.Inv) (hb : s.status.busy = true) (hst : t.status = s.status)
    (hp : t.params = s.params) (him : t.imem.wf = true) (hin : t.imem.within s.params.imemBytes = true)
    (hsm : t.scratch.wf = true) (hsn : t.scratch.within s.params.scratchBytes = true)
    (hkt : t.kt.length = 2 * s.params.kmaxRadius + 1) (hh : t.hist.length = 256) (hx : rowBufferOk t.dxb = true)
    (hy : rowBufferOk t.dyb = true) (hk : t.kradius.toNat ≤ s.params.kmaxRadius) : t.completeOk.Inv where
  params := by rw [completeOk_params, hp]; exact h.params
  status := by rw [completeOk_status, hst]; exact legal_succeeded (legal_busy h.status hb).2.1
  imemWf := him
  imemWithin := by rw [completeOk_params, hp]; exact hin
  scratchWf := hsm
  scratchWithin := by rw [completeOk_params, hp]; exact hsn
  ktLength := by rw [completeOk_params, hp]; exact hkt
  histLength := hh
  dxbOk := hx
  dybOk := hy
  kradius := by rw [completeOk_params, hp]; exact hk
  latched := fun h' => by cases h'

/-- The output range of a valid geometry lies inside IMEM (R196). -/
theorem regionBytes_le {p : Config.Params} {g : Geometry} (h : g.Valid p) :
    g.base + g.h * g.w * g.c ≤ p.imemBytes ∧ g.base + g.h * g.w ≤ p.imemBytes := by
  obtain ⟨-, -, hc, hr⟩ := h
  rw [Nat.mul_comm g.h]
  refine ⟨hr, Nat.le_trans (Nat.add_le_add_left (Nat.le_mul_of_pos_right _ ?_) _) hr⟩
  omega

theorem scratchBytes_lt {p : Config.Params} (h : p.wellFormed = true) : p.scratchBytes < 2 ^ 32 := by
  simp only [Config.Params.wellFormed, Config.Params.scratchBytesOk, Bool.and_eq_true, decide_eq_true_eq] at h
  exact h.1.2

theorem kmaxRadius_le {p : Config.Params} (h : p.wellFormed = true) : p.kmaxRadius ≤ 4096 := by
  simp only [Config.Params.wellFormed, Config.Params.kmaxRadiusOk, Bool.and_eq_true, decide_eq_true_eq] at h
  exact h.2.2

theorem imemBytes_mod {p : Config.Params} (h : p.wellFormed = true) : p.imemBytes % 4 = 0 := by
  simp only [Config.Params.wellFormed, Config.Params.imemBytesOk, Bool.and_eq_true, beq_iff_eq] at h
  exact h.1.1.2.1.1

/-- GRAY's successful completion. -/
theorem Inv_gray {s : State} (h : s.Inv) (hb : s.status.busy = true) (hv : s.latch.geometry.Valid s.params) :
    (grayEffect s.latch.geometry s).completeOk.Inv := by
  refine Inv_completeOk h hb rfl rfl (writeBytes_wf _ _ _ h.imemWf) (writeBytes_within _ _ _ _ h.imemWithin (.inr ?_))
    h.scratchWf h.scratchWithin h.ktLength h.histLength h.dxbOk h.dybOk h.kradius
  rw [length_grayImage]; exact (regionBytes_le hv).2

/-- EDGES' successful completion. -/
theorem Inv_edges {s : State} (h : s.Inv) (hb : s.status.busy = true) (hv : s.latch.geometry.Valid s.params)
    (hs : edgesScratchBytes s.latch.geometry ≤ s.params.scratchBytes) :
    (edgesEffect s.latch.geometry s).completeOk.Inv := by
  have hok := sobelSweep_ok (scratchGray (s.grayInScratch s.latch.geometry) s.latch.geometry.w)
    s.latch.geometry.w s.latch.geometry.h s.latch.geometry.h 0 { dxb := s.dxb, dyb := s.dyb } h.dxbOk h.dybOk
  refine Inv_completeOk h hb rfl rfl (writeBytes_wf _ _ _ h.imemWf) (writeBytes_within _ _ _ _ h.imemWithin (.inr ?_))
    (writeBytes_wf _ _ _ h.scratchWf) (writeBytes_within _ _ _ _ h.scratchWithin (.inr ?_)) h.ktLength h.histLength
    hok.1 hok.2 h.kradius
  · rw [length_edgesOutput]; exact (regionBytes_le hv).2
  · rw [length_grayImage, Nat.mul_comm]; unfold edgesScratchBytes at hs; omega

/-- MEDIAN's successful completion. -/
theorem Inv_median {s : State} (h : s.Inv) (hb : s.status.busy = true) (hv : s.latch.geometry.Valid s.params) {r : Nat}
    (hs : canvasBytes s.latch.geometry r ≤ s.params.scratchBytes) :
    (medianEffect s.latch.geometry r s).completeOk.Inv := by
  have hsh := medianRun_shape s s.latch.geometry r s.params.scratchBytes h.scratchWf h.scratchWithin h.histLength hs
  refine Inv_completeOk h hb rfl rfl (writeBytes_wf _ _ _ h.imemWf) (writeBytes_within _ _ _ _ h.imemWithin (.inr ?_))
    hsh.1 hsh.2.1 h.ktLength hsh.2.2 h.dxbOk h.dybOk h.kradius
  rw [length_raster]; exact (regionBytes_le hv).1

/-- BLUR's successful completion past the no-op. -/
theorem Inv_blur {s : State} (h : s.Inv) (hb : s.status.busy = true) (hv : s.latch.geometry.Valid s.params) (sg : F32)
    {r : Nat} (hr : r ≤ s.params.kmaxRadius) (hs : s.latch.geometry.regionBytes ≤ s.params.scratchBytes) :
    (blurEffect s.latch.geometry sg r s).completeOk.Inv := by
  have hk := kmaxRadius_le h.params
  refine Inv_completeOk h hb rfl rfl (writeBytes_wf _ _ _ h.imemWf) (writeBytes_within _ _ _ _ h.imemWithin (.inr ?_))
    (writeBytes_wf _ _ _ h.scratchWf) (writeBytes_within _ _ _ _ h.scratchWithin (.inr ?_)) ?_ h.histLength h.dxbOk
    h.dybOk ?_
  · rw [length_verticalPass]; exact (regionBytes_le hv).1
  · rw [length_horizontalPass, Nat.mul_comm s.latch.geometry.h]; unfold Geometry.regionBytes at hs; omega
  · rw [blurEffect_kt, List.length_append, length_kernelWeights, List.length_drop, h.ktLength]; omega
  · rw [blurEffect_kradius, BitVec.toNat_ofNat, Nat.mod_eq_of_lt (by omega)]; exact hr

/-- A store of a parameter register in the phase IDLE. -/
theorem Inv_parameters {s : State} (h : s.Inv) (hb : s.status.busy = false) (b w hh c sg r : Word) :
    ({ s with imgBase := b, imgWidth := w, imgHeight := hh, imgChannels := c, sigma := sg, medRadius := r } :
      State).Inv :=
  { h with latched := fun h' => by rw [show s.status.busy = true from h'] at hb; cases hb }

/-- A HOST write of IMEM in the phase IDLE. -/
theorem Inv_memWrite {s : State} (h : s.Inv) (w : Width) {a : Nat} (ha : a % w.bytes = 0) (hlt : a < s.params.imemBytes)
    (v : Word) : ({ s with imem := s.imem.memWrite a w.bytes v } : State).Inv :=
  { h with
    imemWf := memWrite_wf _ _ _ _ h.imemWf
    imemWithin := writeBytes_within _ _ _ _ h.imemWithin (.inr (by
      have := imemBytes_mod h.params
      rw [length_wordBytes]
      cases w <;> simp only [Width.bytes] at ha ⊢ <;> omega)) }

/-- Any HOST write. -/
theorem Inv_hostWrite {s : State} (h : s.Inv) (w : Width) (o : Nat) (v : Word) : (s.hostWrite w o v).Inv := by
  rcases hostWrite_cases s w o v with e | e | e | e | ⟨hb, e⟩ | ⟨hb, b, ww, hh, c, sg, r, e⟩ | ⟨hb, a, ha, hlt, e⟩ <;>
    rw [e]
  · exact Inv_refuse h
  · exact h
  · exact Inv_acknowledge h v
  · exact { h with }
  · exact Inv_startCommand h v
  · exact Inv_parameters h hb b ww hh c sg r
  · exact Inv_memWrite h w ha hlt v

/-- Any HOST read. -/
theorem Inv_hostRead {s : State} (h : s.Inv) (w : Width) (o : Nat) : (s.hostRead w o).2.Inv := by
  rcases hostRead_state_cases s w o with e | e <;> rw [e]
  · exact h
  · exact Inv_refuse h

/-- The registers reset (R220). -/
theorem Inv_resetRegisters {s : State} (h : s.Inv) : s.resetRegisters.Inv :=
  { h with
    status := (by decide : Status.reset.legal = true)
    kradius := Nat.zero_le _
    latched := fun h' => by cases h' }

theorem length_abandonedBytes (s : State) :
    s.abandonedBytes.length = min s.latch.outputLength (s.params.imemBytes - s.latch.base.toNat) := by
  simp [State.abandonedBytes]

/-- An abandoned command (R222). -/
theorem Inv_abandonCommand {s : State} (h : s.Inv) : s.abandonCommand.Inv :=
  { h with
    imemWf := writeBytes_wf _ _ _ h.imemWf
    imemWithin := writeBytes_within _ _ _ _ h.imemWithin (by
      rw [abandonCommand_params]
      by_cases hb : s.latch.base.toNat ≤ s.params.imemBytes
      · right; rw [length_abandonedBytes]; omega
      · left; apply List.eq_nil_of_length_eq_zero; rw [length_abandonedBytes]; omega) }

/-- A change of HOST's own state, of the schedule. -/
theorem Inv_host {s : State} (h : s.Inv) (a : HostAgent) : ({ s with host := a } : State).Inv := { h with }

theorem Inv_sched {s : State} (h : s.Inv) (ts : List Turn) : ({ s with sched := ts } : State).Inv := { h with }

end Sys2Proof.Machine
end

