-- ==== Sys2Proof/Laws/PerInstr.lean ====
section
/-! SUPPORT. Facts about every command as syntax, one lemma per constructor. -/

namespace Sys2Proof.Laws

/-- A command is well formed, its word carries its opcode and zero MBZ bits, and the opcode is the command's own (R90 to
R92). -/
def EncodingFields.Statement (i : Instr) : Prop :=
  i.wellFormed = true ∧ opcodeField (encode i) = instrOpcode i ∧ mbzField (encode i) = 0#28 ∧
    opcodeInstr (instrOpcode i) = some i

theorem EncodingFields.blur : EncodingFields.Statement .blur :=
  ⟨rfl, opcodeField_encode _, mbzField_encode _, opcodeInstr_instrOpcode _⟩

theorem EncodingFields.edges : EncodingFields.Statement .edges :=
  ⟨rfl, opcodeField_encode _, mbzField_encode _, opcodeInstr_instrOpcode _⟩

theorem EncodingFields.median : EncodingFields.Statement .median :=
  ⟨rfl, opcodeField_encode _, mbzField_encode _, opcodeInstr_instrOpcode _⟩

theorem EncodingFields.gray : EncodingFields.Statement .gray :=
  ⟨rfl, opcodeField_encode _, mbzField_encode _, opcodeInstr_instrOpcode _⟩

end Sys2Proof.Laws
end

