-- ==== Sys2Proof/Laws/Sqrt.lean ====
section
/-! SUPPORT. The digit-by-digit square root of spec/42_sobel.md R157 is the integer square root. -/

namespace Sys2Proof.Machine

/-- From a partial root `m` with `m^2 ≤ N < (m + 2^j)^2`, `j` digit steps end at the root. -/
theorem sqrtDigits_eq (N j m : Nat) (h1 : m * m ≤ N) (h2 : N < (m + 2 ^ j) * (m + 2 ^ j)) :
    sqrtDigits N j m = Nat.sqrt N := by
  induction j generalizing m with
  | zero => exact (Nat.eq_sqrt.2 ⟨h1, h2⟩)
  | succ j ih =>
    have e : m + 2 ^ (j + 1) = m + 2 ^ j + 2 ^ j := by rw [Nat.pow_succ]; omega
    rw [e] at h2
    simp only [sqrtDigits]
    split
    · next h => exact ih _ h h2
    · next h => exact ih _ h1 (Nat.lt_of_not_le h)

theorem floorSqrt_eq (N : Nat) : floorSqrt N = Nat.sqrt N := by
  refine sqrtDigits_eq N _ 0 (Nat.zero_le N) ?_
  have h : N < 2 ^ (N.log2 + 1) := Nat.lt_log2_self
  have h2 : 2 ^ (N.log2 + 1) ≤ 2 ^ (N.log2 / 2 + 1 + (N.log2 / 2 + 1)) := Nat.pow_le_pow_right (by decide) (by omega)
  rw [Nat.zero_add, ← Nat.pow_add]
  exact Nat.lt_of_lt_of_le h h2

end Sys2Proof.Machine
end

