-- ==== Sys2Proof/Tests/Slice0.lean ====
section
/-! SUPPORT. The model's own tests. Expected values come from spec/95_test_vectors.md (the V- number is named) or from the
rule named; every theorem called witness_<Name> shows that the hypotheses of obligation <Name> can be met. -/

namespace Sys2Proof.Tests

open Sys2Proof.Machine

/-! ### Decoding: words written bit by bit from R90 (MBZ in bits 31:4, OPCODE in bits 3:0) -/

theorem test_decode_blur : decode 0b00000000000000000000000000000001#32 = .ok .blur := rfl

theorem test_decode_edges : decode 0b00000000000000000000000000000010#32 = .ok .edges := rfl

theorem test_decode_median : decode 0b00000000000000000000000000000011#32 = .ok .median := rfl

theorem test_decode_gray : decode 0b00000000000000000000000000000100#32 = .ok .gray := rfl

/-- V-E1: OPCODE 0x0, 0x5 and 0xF are illegal, OPCODE is checked before MBZ, and MBZ after it. -/
theorem test_decode_illegal :
    [0x00000000#32, 0x00000005#32, 0x0000000F#32, 0x00000010#32].map decode =
        List.replicate 4 (Except.error DecodeError.reservedOpcode) ∧
      [0x00000011#32, 0xFFFFFFF4#32, 0x80000003#32].map decode =
        List.replicate 3 (Except.error DecodeError.mbzSet) := ⟨rfl, rfl⟩

/-- The rows of spec/opcode_table.json, numbered as the table numbers their bits. -/
theorem test_table_words :
    [0x1, 0x2, 0x3, 0x4, 0x5].map (decodeTableWord 32) = [some .blur, some .edges, some .median, some .gray, none] := rfl

/-! ### Well-formedness: what each check refuses (R8, R96) -/

theorem test_params_ok : Config.testParams.wellFormed = true := by decide

theorem test_blockBase_unaligned : { Config.testParams with blockBase := 0x41000000 }.wellFormed = false := by decide

theorem test_imemBytes_not_words : { Config.testParams with imemBytes := 0x1002 }.wellFormed = false := by decide

theorem test_imemBytes_zero : { Config.testParams with imemBytes := 0 }.wellFormed = false := by decide

theorem test_imemBytes_too_large : { Config.testParams with imemBytes := 0x01000004 }.wellFormed = false := by decide

theorem test_scratchBytes_too_large : { Config.testParams with scratchBytes := 2 ^ 32 }.wellFormed = false := by decide

theorem test_kmaxRadius_zero : { Config.testParams with kmaxRadius := 0 }.wellFormed = false := by decide

theorem test_kmaxRadius_too_large : { Config.testParams with kmaxRadius := 4097 }.wellFormed = false := by decide

theorem test_label_twice :
    scriptWellFormed [.label (.user 1), .halt, .label (.user 1)] = false := by decide

theorem test_branch_nowhere :
    scriptWellFormed [.label (.user 1), .branch (.user 2)] = false := by decide

/-- The polling loop of R98 is well formed. -/
theorem test_wait_ok : scriptWellFormed (Pseudo.expand [.wait 0, .wait 0]) = true := by decide

/-! ### Small states -/

/-- The state after reset with the parameter registers written and bytes loaded at the image's base. -/
def loaded (bytes : List Byte) (base w h c : Nat) (sigma : Word) (r : Nat) : State :=
  { State.reset with
    imem := State.reset.imem.writeBytes base bytes
    imgBase := BitVec.ofNat 32 base
    imgWidth := BitVec.ofNat 32 w
    imgHeight := BitVec.ofNat 32 h
    imgChannels := BitVec.ofNat 32 c
    sigma := sigma
    medRadius := BitVec.ofNat 32 r }

/-- The same with a command of the given word started and ENGINE's turn next. -/
def started (v : Word) (bytes : List Byte) (base w h c : Nat) (sigma : Word) (r : Nat) : State :=
  (loaded bytes base w h c sigma r).loadCommand v

/-- The `n` bytes at `a`, STATUS, IMG_CHANNELS and KRADIUS after one step. -/
def shown (s : State) (a n : Nat) : Option (List Byte × Word × Word × Word) :=
  match step s with
  | .next t => some (t.imem.readBytes a n, t.status.word, t.imgChannels, t.kradius)
  | .fault _ => none
  | .refused _ => none

/-- The state after a step, where there is one. -/
def afterStep (s : State) : State :=
  match step s with
  | .next t => t
  | .fault _ => s
  | .refused _ => s

theorem reset_inv : State.reset.Inv where
  params := by decide
  status := by decide
  imemWf := rfl
  imemWithin := rfl
  scratchWf := rfl
  scratchWithin := rfl
  ktLength := List.length_replicate
  histLength := List.length_replicate
  dxbOk := by decide
  dybOk := by decide
  kradius := by decide
  latched := by decide

theorem loaded_inv (bytes : List Byte) (base w h c : Nat) (sigma : Word) (r : Nat) (hb : base + bytes.length ≤ 0x1000) :
    (loaded bytes base w h c sigma r).Inv :=
  { reset_inv with
    imemWf := writeBytes_wf _ _ _ rfl
    imemWithin := writeBytes_within _ _ _ _ rfl (.inr hb)
    latched := fun hc => nomatch hc }

theorem started_inv (v : Word) (bytes : List Byte) (base w h c : Nat) (sigma : Word) (r : Nat)
    (hb : base + bytes.length ≤ 0x1000) : (started v bytes base w h c sigma r).Inv :=
  Inv_sched (Inv_startCommand (loaded_inv bytes base w h c sigma r hb) v) _

theorem started_geometry (v : Word) (bytes : List Byte) (base w h c : Nat) (sigma : Word) (r : Nat) :
    (started v bytes base w h c sigma r).latch.geometry =
      { base := base % 2 ^ 32, w := w % 2 ^ 32, h := h % 2 ^ 32, c := c % 2 ^ 32 } := by
  simp only [started, State.loadCommand, State.startCommand, State.latchOf, Latch.geometry, loaded,
    BitVec.toNat_ofNat]

/-! ### One step of each command -/

/-- V-B2. -/
theorem test_blur_impulse :
    shown (started 0x1#32 [0, 0, 255, 0, 0] 0 5 1 1 0x3F800000#32 0) 0 5 =
      some ([14, 62, 102, 62, 14], 0x00000002#32, 1#32, 3#32) := by decide +kernel

/-- V-B14: -1.0 is SIGMA_NEG and changes nothing. -/
theorem test_blur_negative_sigma :
    shown (started 0x1#32 [10, 200, 30] 0 3 1 1 0xBF800000#32 0) 0 3 =
      some ([10, 200, 30], 0x00040104#32, 1#32, 0#32) := by decide +kernel

/-- V-S2: the border rows are computed. -/
theorem test_edges_border :
    shown (started 0x2#32 [0, 0, 0, 0, 100, 0, 0, 0, 0] 0 3 3 1 0#32 0) 0 9 =
      some ([141, 200, 141, 200, 0, 200, 141, 200, 141], 0x00000002#32, 1#32, 0#32) := by decide +kernel

/-- V-S8: RGB input; the tail is kept and IMG_CHANNELS becomes 1. -/
theorem test_edges_rgb :
    shown (started 0x2#32 [255, 0, 0, 0, 0, 255, 0, 255, 0, 255, 255, 255] 0 2 2 3 0#32 0) 0 12 =
      some ([255, 255, 255, 255, 0, 255, 0, 255, 0, 255, 255, 255], 0x00000002#32, 1#32, 0#32) := by decide +kernel

/-- V-M2. -/
theorem test_median_square :
    shown (started 0x3#32 [10, 200, 30, 40, 50, 60, 70, 80, 255] 0 3 3 1 0#32 1) 0 9 =
      some ([40, 40, 50, 50, 60, 60, 70, 70, 80], 0x00000002#32, 1#32, 0#32) := by decide +kernel

/-- V-M11: a radius of 2^31 is OutOfMemory SCRATCH. -/
theorem test_median_huge_radius :
    shown (started 0x3#32 [7] 0 1 1 1 0#32 0x80000000) 0 1 = some ([7], 0x00020204#32, 1#32, 0#32) := by
  decide +kernel

/-- V-G7: the tail and the bytes beside the region. -/
theorem test_gray_tail :
    shown { started 0x4#32 [3, 4, 5, 6, 7, 8] 2 2 1 3 0#32 0 with
        imem := (State.reset.imem.writeBytes 0 [1, 2, 3, 4, 5, 6, 7, 8, 9, 10]) } 0 10 =
      some ([1, 2, 4, 7, 5, 6, 7, 8, 9, 10], 0x00000002#32, 1#32, 0#32) := by decide +kernel

/-- V-G3: exact sums ending in .5 round up. -/
theorem test_luma_ties :
    [luma 0 0 250, luma 1 1 251, luma 2 0 43, luma 2 2 252, luma 3 1 44] = [29, 30, 6, 31, 7] := by decide

/-! ### HOST accesses, STATUS and IRQ -/

/-- V-H1: a refused read sets HOSTERR and returns 0; a reserved one does neither. -/
theorem test_host_reads :
    (State.reset.hostRead .w4 0x00).1 = 0x49504C01#32 ∧ (State.reset.hostRead .w4 0x2C).1 = 0x1000#32 ∧
      ((State.reset.hostRead .w4 0x02).1, (State.reset.hostRead .w4 0x02).2.status.hostErr) = (0#32, true) ∧
      ((State.reset.hostRead .w2 0x04).1, (State.reset.hostRead .w2 0x04).2.status.hostErr) = (0#32, true) ∧
      ((State.reset.hostRead .w4 0x38).1, (State.reset.hostRead .w4 0x38).2.status.hostErr) = (0#32, false) ∧
      ((State.reset.hostRead .w1 0x01001000).1, (State.reset.hostRead .w1 0x01001000).2.status.hostErr) =
        (0#32, true) := by decide

/-- V-H1: bytes 0x11, 0x22, 0x33, 0x44 at IMEM 0 to 3 read as 0x4433_2211, and as 0x4433 from 2. -/
theorem test_imem_little_endian :
    ((loaded [0x11, 0x22, 0x33, 0x44] 0 0 0 0 0#32 0).hostRead .w4 0x01000000).1 = 0x44332211#32 ∧
      ((loaded [0x11, 0x22, 0x33, 0x44] 0 0 0 0 0#32 0).hostRead .w2 0x01000002).1 = 0x4433#32 := by decide

/-- V-H2: while BUSY a write of IMG_WIDTH is dropped and STATUS reads 0x0000_0009 after it; CTRL is written. -/
theorem test_busy_accesses :
    ((started 0x2#32 [1] 0 1 1 1 0#32 0).hostWrite .w4 0x14 7#32).imgWidth = 1#32 ∧
      (((started 0x2#32 [1] 0 1 1 1 0#32 0).hostWrite .w4 0x14 7#32).hostRead .w4 0x04).1 = 0x00000009#32 ∧
      ((started 0x2#32 [1] 0 1 1 1 0#32 0).hostWrite .w4 0x08 1#32).irqEn = true := by decide

/-- V-E3: clearing ERR keeps ERRCODE and ERRDETAIL. -/
theorem test_clear_err_keeps_code :
    (({ State.reset with status := Status.reset.failed 3#4 0x01#8 }).hostWrite .w4 0x04 0x4#32).status.word =
      0x00010300#32 := by decide

/-- V-E3: IRQ follows DONE when enabled. -/
theorem test_irq :
    ({ State.reset with irqEn := true, status := Status.reset.succeeded }).irq = true ∧
      ({ State.reset with irqEn := true, status := { Status.reset with hostErr := true } }).irq = false := by decide

/-! ### Witnesses: encoding and the step -/

/-- 0 and the opcodes 5 and 0x10 on the first side; 0x11 and 0xFFFF_FFF4 on the second; the four words. -/
theorem witness_DecodeChecksOpcodeBeforeMbz :
    (0x00000000#32).toNat % 16 = 0 ∧ (0x00000010#32).toNat % 16 = 0 ∧ 5 ≤ (0xFFFFFFF5#32).toNat % 16 ∧
      (1 ≤ (0x00000011#32).toNat % 16 ∧ (0x00000011#32).toNat % 16 ≤ 4 ∧ 16 ≤ (0x00000011#32).toNat) ∧
      (1 ≤ (0xFFFFFFF4#32).toNat % 16 ∧ (0xFFFFFFF4#32).toNat % 16 ≤ 4 ∧ 16 ≤ (0xFFFFFFF4#32).toNat) ∧
      (0x00000001#32).toNat = 1 ∧ (0x00000002#32).toNat = 2 ∧ (0x00000003#32).toNat = 3 ∧
      (0x00000004#32).toNat = 4 := by decide

theorem witness_EngineStepRunsTheDecodedCommand :
    ((started 0x4#32 [] 0 0 0 0 0#32 0).status.busy = true ∧
      decode (started 0x4#32 [] 0 0 0 0 0#32 0).latch.cmd = .ok .gray ∧
      (started 0x4#32 [] 0 0 0 0 0#32 0).sched = [.engine]) ∧
    ((State.reset.startCommand 0x1#32).status.busy = true ∧
      decode (State.reset.startCommand 0x1#32).latch.cmd = .ok .blur ∧ (State.reset.startCommand 0x1#32).sched = []) :=
  ⟨⟨rfl, rfl, rfl⟩, rfl, rfl, rfl⟩

theorem witness_IllegalWordCompletesWithIllegalCommand :
    (started 0x0#32 [] 0 0 0 0 0#32 0).status.busy = true ∧ (started 0x0#32 [] 0 0 0 0 0#32 0).sched = [.engine] ∧
      decode (started 0x0#32 [] 0 0 0 0 0#32 0).latch.cmd = .error .reservedOpcode ∧
      (State.reset.startCommand 0x11#32).status.busy = true ∧ (State.reset.startCommand 0x11#32).sched = [] ∧
      decode (State.reset.startCommand 0x11#32).latch.cmd = .error .mbzSet := ⟨rfl, rfl, rfl, rfl, rfl, rfl⟩

theorem witness_TurnWithoutAnEventChangesNothing :
    (({ State.reset with sched := [.engine] } : State).status.busy = false ∧
      ({ State.reset with sched := [.engine] } : State).sched = [.engine]) ∧
    (({ State.reset with sched := [.host] } : State).host.current = none ∧
      ({ State.reset with sched := [.host] } : State).sched = [.host]) ∧
    (State.reset.status.busy = false ∧ State.reset.host.current = none ∧ State.reset.sched = []) :=
  ⟨⟨rfl, rfl⟩, ⟨rfl, rfl⟩, rfl, rfl, rfl⟩

/-! ### Witnesses: completion and errors -/

/-- A command on the geometry of reset fails with EMPTY; the word 0 fails with OPCODE. -/
theorem witness_FailedCommandChangesOnlyStatus :
    (exec .gray State.reset = .next (State.reset.failWith .empty) ∧ (State.reset.failWith .empty).status.errCode ≠ 0#4) ∧
    (State.reset.engineStep = .next (State.reset.failWith .opcode) ∧
      (State.reset.failWith .opcode).status.errCode ≠ 0#4) := ⟨⟨rfl, by decide⟩, rfl, by decide⟩

/-- A successful GRAY (both cases of IMG_CHANNELS and of the output range have a next state). -/
theorem witness_CommandsChangeOnlyTheirOutputs :
    ∃ t, exec .gray (started 0x4#32 [255, 0, 0] 0 1 1 3 0#32 0) = .next t ∧ t.imgChannels = 1#32 ∧
      t.status.done = true := ⟨_, rfl, rfl, rfl⟩

/-- W = 0; H = 0; C = 2; and a region one byte past IMEM. -/
theorem witness_GeometryChecksComeFirstInOrder :
    (started 0x4#32 [] 0 0 1 1 0#32 0).latch.w = 0#32 ∧ (started 0x4#32 [] 0 1 0 1 0#32 0).latch.h = 0#32 ∧
    ((started 0x4#32 [] 0 1 1 2 0#32 0).latch.w ≠ 0#32 ∧ (started 0x4#32 [] 0 1 1 2 0#32 0).latch.h ≠ 0#32 ∧
      (started 0x4#32 [] 0 1 1 2 0#32 0).latch.c ≠ 1#32 ∧ (started 0x4#32 [] 0 1 1 2 0#32 0).latch.c ≠ 3#32 ∧
      (started 0x4#32 [] 0 1 1 2 0#32 0).latch.c ≠ 4#32) ∧
    ((started 0x4#32 [] 0xFFE 1 1 3 0#32 0).latch.w ≠ 0#32 ∧ (started 0x4#32 [] 0xFFE 1 1 3 0#32 0).latch.h ≠ 0#32 ∧
      (started 0x4#32 [] 0xFFE 1 1 3 0#32 0).latch.c = 3#32 ∧
      (started 0x4#32 [] 0xFFE 1 1 3 0#32 0).params.imemBytes <
        (started 0x4#32 [] 0xFFE 1 1 3 0#32 0).latch.base.toNat + (started 0x4#32 [] 0xFFE 1 1 3 0#32 0).latch.w.toNat *
          (started 0x4#32 [] 0xFFE 1 1 3 0#32 0).latch.h.toNat * (started 0x4#32 [] 0xFFE 1 1 3 0#32 0).latch.c.toNat) := by
  decide

/-! ### Witnesses: BLUR. One pixel at the last byte of IMEM, for several sigmas. -/

/-- BLUR of one pixel at the last byte of IMEM. -/
def onePixel (sigma : Word) : State := started 0x1#32 [7] 0xFFF 1 1 1 sigma 0

theorem onePixel_valid (sigma : Word) : (onePixel sigma).latch.geometry.Valid (onePixel sigma).params := by
  rw [onePixel, started_geometry]
  show Geometry.Valid Config.testParams _
  decide

/-- The least and the greatest pattern of each clause. -/
theorem witness_BlurRejectsNanAndNegativeSigma :
    (∀ sigma, (onePixel sigma).latch.geometry.Valid (onePixel sigma).params ∧ (onePixel sigma).latch.sigma = sigma) ∧
    ([0x7F800001#32, 0x7FFFFFFF#32, 0xFF800001#32, 0xFFFFFFFF#32].all fun v =>
      decide (0x7F800000 < v.toNat % 2 ^ 31)) = true ∧
    ([0x80000001#32, 0xFF800000#32].all fun v =>
      decide (v.toNat % 2 ^ 31 ≤ 0x7F800000 ∧ 0x80000000 < v.toNat)) = true ∧
    ([0x00000000#32, 0x7F800000#32, 0x80000000#32].all fun v =>
      decide (v.toNat ≤ 0x7F800000 ∨ v.toNat = 0x80000000)) = true :=
  ⟨fun sigma => ⟨onePixel_valid sigma, rfl⟩, by decide, by decide, by decide⟩

theorem witness_BlurBelowThresholdIsANoOp :
    (∀ sigma, (onePixel sigma).latch.geometry.Valid (onePixel sigma).params ∧ (onePixel sigma).latch.sigma = sigma) ∧
    F32.ofBits 0x80000000#32 = .fin true 0 ∧ F32.ofBits 0x00000001#32 = .fin false 1 ∧
    ([0x00000000#32, 0x358637BD#32, 0x80000000#32].all fun v =>
      decide (v.toNat ≤ 0x358637BD ∨ v.toNat = 0x80000000)) = true :=
  ⟨fun sigma => ⟨onePixel_valid sigma, rfl⟩, by decide +kernel, by decide +kernel, by decide⟩

theorem witness_KernelRadiusIsCeilOfThreeSigma :
    (0x358637BE ≤ (0x358637BE#32).toNat ∧ (0x358637BE#32).toNat ≤ 0x7F800000 ∧
      kernelRadius (F32.ofBits 0x358637BE#32) = some 1) ∧
    (0x358637BE ≤ (0x7F800000#32).toNat ∧ (0x7F800000#32).toNat ≤ 0x7F800000 ∧
      kernelRadius (F32.ofBits 0x7F800000#32) = none) := by decide +kernel

/-- +infinity; sigma 21.5 (r = 65 > 64, V-B14); a 64 by 33 image with sigma 1.0 (2112 > 2048, V-B14). -/
theorem witness_BlurCapacityErrors :
    (kernelRadius (F32.ofBits (onePixel 0x7F800000#32).latch.sigma) = none ∧
      0x358637BE ≤ (onePixel 0x7F800000#32).latch.sigma.toNat ∧
      (onePixel 0x7F800000#32).latch.sigma.toNat ≤ 0x7F800000 ∧
      (onePixel 0x7F800000#32).latch.geometry.Valid (onePixel 0x7F800000#32).params) ∧
    (kernelRadius (F32.ofBits (onePixel 0x41AC0000#32).latch.sigma) = some 65 ∧
      (onePixel 0x41AC0000#32).params.kmaxRadius < 65) ∧
    ((started 0x1#32 [] 0 64 33 1 0x3F800000#32 0).latch.geometry.Valid
        (started 0x1#32 [] 0 64 33 1 0x3F800000#32 0).params ∧
      kernelRadius (F32.ofBits (started 0x1#32 [] 0 64 33 1 0x3F800000#32 0).latch.sigma) = some 3 ∧
      3 ≤ (started 0x1#32 [] 0 64 33 1 0x3F800000#32 0).params.kmaxRadius ∧
      (started 0x1#32 [] 0 64 33 1 0x3F800000#32 0).params.scratchBytes < 64 * 33 * 1) := by decide +kernel

theorem witness_BlurIsHorizontalThenVerticalPass :
    (onePixel 0x3F800000#32).latch.geometry.Valid (onePixel 0x3F800000#32).params ∧
      0x358637BE ≤ (onePixel 0x3F800000#32).latch.sigma.toNat ∧
      (onePixel 0x3F800000#32).latch.sigma.toNat ≤ 0x7F800000 ∧
      kernelRadius (F32.ofBits (onePixel 0x3F800000#32).latch.sigma) = some 3 ∧
      3 ≤ (onePixel 0x3F800000#32).params.kmaxRadius ∧
      (onePixel 0x3F800000#32).latch.w.toNat * (onePixel 0x3F800000#32).latch.h.toNat *
        (onePixel 0x3F800000#32).latch.c.toNat ≤ (onePixel 0x3F800000#32).params.scratchBytes := by decide +kernel

/-- A tie (1.5 units to 2) and the least value that rounds to +infinity. -/
theorem witness_Binary32RoundsToNearestEven :
    (0 < 2 ∧ F32.round false 3 2 = .fin false 2) ∧
    (0 < 1 ∧ F32.round false ((2 ^ 25 - 1) * 2 ^ 252) 1 = .inf false ∧
      (2 ^ 25 - 1) * 2 ^ 253 * 1 ≤ 2 * ((2 ^ 25 - 1) * 2 ^ 252)) := by decide +kernel

/-- e^-1 (pattern 0x3EBC_5AB2), which the bracket settles, and e^-104, which rounds to +0; q up to the largest finite
pattern. -/
theorem witness_ExponentialIsNearestBinary32 :
    (expNegUnits (2 ^ 149) = .fin false (unitsOfPattern 0x3EBC5AB2) ∧
      roundFixed (expLower (2 ^ 149)) = roundFixed (expUpper (2 ^ 149))) ∧
    (expNegUnits (104 * 2 ^ 149) = .fin false 0 ∧ 104 * 2 ^ 149 ≤ 104 * 2 ^ 149) ∧ 0x7F7FFFFF < 0x7F800000 := by
  decide +kernel

theorem witness_ExponentialBracketEnclosesTheReal : 104 * 2 ^ 149 - 1 < 104 * 2 ^ 149 := by decide

theorem witness_KernelIsSymmetric : 0 ≤ 2 * 0 ∧ 8192 ≤ 2 * 4096 := by decide

/-- The least radius, and sigma 1365.3333 (0x44AA_AAAA), whose radius is 4096. -/
theorem witness_KernelWeightsLieInUnitInterval :
    (kernelRadius (F32.ofBits 0x358637BE#32) = some 1 ∧ 0x358637BE ≤ (0x358637BE#32).toNat) ∧
      (kernelRadius (F32.ofBits 0x44AAAAAA#32) = some 4096 ∧ (0x44AAAAAA#32).toNat ≤ 0x7F800000) := by decide +kernel

/-- The side tap of the least radius, and the first and last taps of radius 4096. -/
theorem witness_KernelWeightsFollowTheGaussian :
    (kernelRadius (F32.ofBits 0x358637BE#32) = some 1 ∧
      F32.ofBits 0x358637BE#32 = .fin false (unitsOfPattern 0x358637BE) ∧ 0 ≤ 2 * 1) ∧
    (kernelRadius (F32.ofBits 0x44AAAAAA#32) = some 4096 ∧
      F32.ofBits 0x44AAAAAA#32 = .fin false (unitsOfPattern 0x44AAAAAA) ∧ 8192 ≤ 2 * 4096) := by decide +kernel

/-- A divisor that is not 0; sums of each sign with a first operand -0 and a positive one; toF32 at 2^24. -/
theorem witness_Binary32OperationsRoundTheExactResult :
    0 < 1 ∧ ((-3 : Int) = (if true then -(0 : Int) else 0) + (if true then -(3 : Int) else 3) ∧ (-3 : Int) ≠ 0) ∧
      ((2 : Int) = (if false then -(3 : Int) else 3) + (if true then -(1 : Int) else 1) ∧ (2 : Int) ≠ 0 ∧ 0 < 3) ∧
      2 ^ 24 ≤ 2 ^ 24 := by decide

theorem witness_KernelWeightsSumNearOne :
    kernelRadius (F32.ofBits 0x44AAAAAA#32) = some 4096 ∧ 0x358637BE ≤ (0x44AAAAAA#32).toNat ∧
      (0x44AAAAAA#32).toNat ≤ 0x7F800000 ∧ 4096 ≤ 4096 := by decide +kernel

theorem onePixel_const (sigma : Word) (y x : Nat) (hy : y < (onePixel sigma).latch.h.toNat)
    (hx : x < (onePixel sigma).latch.w.toNat) :
    (onePixel sigma).imem.read ((onePixel sigma).latch.base.toNat +
      ((y * (onePixel sigma).latch.w.toNat + x) * (onePixel sigma).latch.c.toNat + 0)) = 7#8 := by
  obtain rfl : y = 0 := Nat.lt_one_iff.1 hy
  obtain rfl : x = 0 := Nat.lt_one_iff.1 hx
  rfl

theorem witness_BlurKeepsAConstantChannel :
    (onePixel 0x3F800000#32).params.wellFormed = true ∧ 0 < (onePixel 0x3F800000#32).latch.c.toNat ∧
      (∀ y x, y < (onePixel 0x3F800000#32).latch.h.toNat → x < (onePixel 0x3F800000#32).latch.w.toNat →
        (onePixel 0x3F800000#32).imem.read ((onePixel 0x3F800000#32).latch.base.toNat +
          ((y * (onePixel 0x3F800000#32).latch.w.toNat + x) * (onePixel 0x3F800000#32).latch.c.toNat + 0)) = 7#8) ∧
      ∃ t, exec .blur (onePixel 0x3F800000#32) = .next t :=
  ⟨by decide, by decide, onePixel_const _, exec_next _ _⟩

/-! ### Witnesses: GRAY and EDGES -/

/-- C = 1, 3 and 4. -/
theorem witness_GrayWritesExactLumaInPlace :
    (started 0x4#32 [1] 0 1 1 1 0#32 0).latch.geometry.Valid Config.testParams ∧
      (started 0x4#32 [1, 2, 3] 0 1 1 3 0#32 0).latch.geometry.Valid Config.testParams ∧
      (started 0x4#32 [1, 2, 3, 4] 0 1 1 4 0#32 0).latch.geometry.Valid Config.testParams := by decide +kernel

/-- Two RGB pixels, and a command word. -/
def rgbPair (v : Word) : State := started v [255, 0, 0, 0, 0, 255] 0 2 1 3 0#32 1

theorem rgbPair_valid (v : Word) : (rgbPair v).latch.geometry.Valid (rgbPair v).params := by
  rw [rgbPair, started_geometry]
  show Geometry.Valid Config.testParams _
  decide

theorem rgbPair_inv (v : Word) : (rgbPair v).Inv := started_inv _ _ _ _ _ _ _ _ (by decide)

theorem witness_RepeatedGrayChangesNothing :
    (rgbPair 0x4#32).Inv ∧ (rgbPair 0x4#32).status.busy = true ∧
      (rgbPair 0x4#32).latch.geometry.Valid (rgbPair 0x4#32).params ∧ ∃ t, exec .gray (rgbPair 0x4#32) = .next t :=
  ⟨rgbPair_inv _, rfl, rgbPair_valid _, exec_next _ _⟩

/-- V-S12: 40 by 40 needs 2080 bytes. -/
theorem witness_EdgesScratchError :
    (started 0x2#32 [] 0 40 40 1 0#32 0).latch.geometry.Valid (started 0x2#32 [] 0 40 40 1 0#32 0).params ∧
      (started 0x2#32 [] 0 40 40 1 0#32 0).params.scratchBytes < 40 * 40 + 12 * 40 := by decide +kernel

theorem witness_EdgesSweepEqualsClosedForm :
    (rgbPair 0x2#32).Inv ∧ (rgbPair 0x2#32).latch.geometry.Valid (rgbPair 0x2#32).params ∧
      (rgbPair 0x2#32).latch.w.toNat * (rgbPair 0x2#32).latch.h.toNat + 12 * (rgbPair 0x2#32).latch.w.toNat ≤
        (rgbPair 0x2#32).params.scratchBytes := ⟨rgbPair_inv _, rgbPair_valid _, by decide +kernel⟩

theorem witness_RoundedRootIsNearest : 0 < 1 ∧ (0 : Nat) = 0 := by decide

theorem onePixel_inv (sigma : Word) : (onePixel sigma).Inv := started_inv _ _ _ _ _ _ _ _ (by decide)

theorem witness_EdgesOfAUniformImageAreZero :
    (onePixel 0#32).Inv ∧ (onePixel 0#32).latch.geometry.Valid (onePixel 0#32).params ∧
      (onePixel 0#32).latch.w.toNat * (onePixel 0#32).latch.h.toNat + 12 * (onePixel 0#32).latch.w.toNat ≤
        (onePixel 0#32).params.scratchBytes ∧
      ∀ y x c, y < (onePixel 0#32).latch.h.toNat → x < (onePixel 0#32).latch.w.toNat →
        c < (onePixel 0#32).latch.c.toNat →
        (onePixel 0#32).imem.read ((onePixel 0#32).latch.base.toNat +
          ((y * (onePixel 0#32).latch.w.toNat + x) * (onePixel 0#32).latch.c.toNat + c)) = 7#8 := by
  refine ⟨onePixel_inv _, onePixel_valid _, by decide +kernel, fun y x c hy hx hc => ?_⟩
  obtain rfl : c = 0 := Nat.lt_one_iff.1 hc
  exact onePixel_const _ y x hy hx

theorem witness_GrayThenEdgesEqualsEdges :
    (rgbPair 0x4#32).Inv ∧ (rgbPair 0x4#32).status.busy = true ∧
      (rgbPair 0x4#32).latch.geometry.Valid (rgbPair 0x4#32).params ∧
      (rgbPair 0x4#32).latch.w.toNat * (rgbPair 0x4#32).latch.h.toNat + 12 * (rgbPair 0x4#32).latch.w.toNat ≤
        (rgbPair 0x4#32).params.scratchBytes ∧ ∃ t, exec .gray (rgbPair 0x4#32) = .next t :=
  ⟨rgbPair_inv _, rfl, rgbPair_valid _, by decide +kernel, exec_next _ _⟩

/-- One RGBA pixel with the given alpha. -/
def alphaPixel (alpha : Byte) : State := started 0x4#32 [10, 20, 30, alpha] 0 1 1 4 0#32 0

theorem alphaPixel_inv (alpha : Byte) : (alphaPixel alpha).Inv :=
  started_inv _ _ _ _ _ _ _ _ (by show 0 + 4 ≤ 0x1000; decide)

/-- V-G4's first pixel, with two alphas, through GRAY and through EDGES. -/
theorem witness_AlphaNeverReachesGrayOrEdges :
    (alphaPixel 99).Inv ∧ (alphaPixel 0).Inv ∧ (alphaPixel 0).params = (alphaPixel 99).params ∧
      (alphaPixel 0).latch = (alphaPixel 99).latch ∧ (alphaPixel 99).latch.c = 4#32 ∧
      (∀ y, y < (alphaPixel 99).latch.h.toNat → ∀ x, x < (alphaPixel 99).latch.w.toNat → ∀ c, c < 3 →
        (alphaPixel 0).imem.read ((alphaPixel 99).latch.base.toNat + ((y * (alphaPixel 99).latch.w.toNat + x) * 4 + c)) =
          (alphaPixel 99).imem.read
            ((alphaPixel 99).latch.base.toNat + ((y * (alphaPixel 99).latch.w.toNat + x) * 4 + c))) ∧
      (∃ t t', exec .gray (alphaPixel 99) = .next t ∧ exec .gray (alphaPixel 0) = .next t' ∧ t.status.errCode = 0#4) ∧
      ∃ t t', exec .edges (alphaPixel 99) = .next t ∧ exec .edges (alphaPixel 0) = .next t' ∧ t.status.errCode = 0#4 :=
  ⟨alphaPixel_inv _, alphaPixel_inv _, rfl, rfl, rfl, by decide +kernel, ⟨_, _, rfl, rfl, rfl⟩, _, _, rfl, rfl, rfl⟩

/-! ### Witnesses: MEDIAN -/

theorem witness_MedianOfRadiusZeroIsANoOp :
    (onePixel 0#32).latch.geometry.Valid (onePixel 0#32).params ∧ (onePixel 0#32).latch.r = 0#32 :=
  ⟨onePixel_valid _, rfl⟩

/-- V-M11: 40 by 40 with r = 3 (2116 > 2048), and r = 2^31. -/
theorem witness_MedianScratchError :
    ((started 0x3#32 [] 0 40 40 1 0#32 3).latch.geometry.Valid (started 0x3#32 [] 0 40 40 1 0#32 3).params ∧
      (started 0x3#32 [] 0 40 40 1 0#32 3).latch.r ≠ 0#32 ∧
      (started 0x3#32 [] 0 40 40 1 0#32 3).params.scratchBytes < (40 + 2 * 3) * (40 + 2 * 3)) ∧
    ((started 0x3#32 [7] 0 1 1 1 0#32 0x80000000).latch.geometry.Valid
        (started 0x3#32 [7] 0 1 1 1 0#32 0x80000000).params ∧
      (started 0x3#32 [7] 0 1 1 1 0#32 0x80000000).latch.r ≠ 0#32 ∧
      (started 0x3#32 [7] 0 1 1 1 0#32 0x80000000).params.wellFormed = true ∧
      2 ^ 31 ≤ (started 0x3#32 [7] 0 1 1 1 0#32 0x80000000).latch.r.toNat) := by decide +kernel

theorem witness_MedianSweepEqualsOrderStatistic :
    (rgbPair 0x3#32).params.wellFormed = true ∧ (rgbPair 0x3#32).latch.geometry.Valid (rgbPair 0x3#32).params ∧
      (rgbPair 0x3#32).latch.r ≠ 0#32 ∧
      ((rgbPair 0x3#32).latch.w.toNat + 2 * (rgbPair 0x3#32).latch.r.toNat) *
        ((rgbPair 0x3#32).latch.h.toNat + 2 * (rgbPair 0x3#32).latch.r.toNat) ≤
        (rgbPair 0x3#32).params.scratchBytes := ⟨by decide, rgbPair_valid _, by decide, by decide +kernel⟩

theorem witness_MedianKeepsAConstantChannel :
    (onePixel 0#32).params.wellFormed = true ∧ 0 < (onePixel 0#32).latch.c.toNat ∧
      (∀ y x, y < (onePixel 0#32).latch.h.toNat → x < (onePixel 0#32).latch.w.toNat →
        (onePixel 0#32).imem.read ((onePixel 0#32).latch.base.toNat +
          ((y * (onePixel 0#32).latch.w.toNat + x) * (onePixel 0#32).latch.c.toNat + 0)) = 7#8) ∧
      ∃ t, exec .median (onePixel 0#32) = .next t := ⟨by decide, by decide, onePixel_const _, exec_next _ _⟩

/-- One RGB pixel whose channel 2 is given. -/
def bluePixel (b : Byte) : State := started 0x3#32 [10, 20, b] 0 1 1 3 0x3F800000#32 1

/-- Two images that agree on channel 0 and differ on channel 2. -/
theorem witness_ChannelsAreFilteredIndependently :
    (bluePixel 9).params = (bluePixel 30).params ∧ (bluePixel 9).latch = (bluePixel 30).latch ∧
      0 < (bluePixel 30).latch.c.toNat ∧
      (∀ y, y < (bluePixel 30).latch.h.toNat → ∀ x, x < (bluePixel 30).latch.w.toNat →
        (bluePixel 9).imem.read ((bluePixel 30).latch.base.toNat +
            ((y * (bluePixel 30).latch.w.toNat + x) * (bluePixel 30).latch.c.toNat + 0)) =
          (bluePixel 30).imem.read ((bluePixel 30).latch.base.toNat +
            ((y * (bluePixel 30).latch.w.toNat + x) * (bluePixel 30).latch.c.toNat + 0))) ∧
      ∀ i, (∃ t, exec i (bluePixel 30) = .next t) ∧ ∃ t, exec i (bluePixel 9) = .next t :=
  ⟨rfl, rfl, by decide, by decide +kernel, fun _ => ⟨exec_next _ _, exec_next _ _⟩⟩

/-! ### Witnesses: registers and HOST accesses -/

theorem witness_RegisterReadsReturnTheRegister :
    (0x38 ≤ 0x38 ∧ 0x38 < 0x01000000 ∧ 0x38 % 4 = 0) ∧ 0x38 ≤ 0x00FFFFFC ∧ 0x00FFFFFC < 0x01000000 ∧
      0x00FFFFFC % 4 = 0 := by decide

theorem witness_RegisterWritesStoreOrAreIgnored :
    State.reset.status.busy = false ∧ 0x38 ≤ 0x00FFFFFC ∧ 0x00FFFFFC < 0x01000000 ∧ 0x00FFFFFC % 4 = 0 := by decide

theorem witness_StatusAndCtrlWrites : (rgbPair 0x2#32).Inv ∧ (rgbPair 0x2#32).status.busy = true :=
  ⟨rgbPair_inv _, rfl⟩

theorem witness_CmdWriteStartsACommand :
    State.reset.status.busy = false ∧ (rgbPair 0x2#32).status.busy = true := ⟨rfl, rfl⟩

/-- Offsets 0x02 (4 bytes), 0x04 (2 bytes), 0x0100_0001 (2 bytes), 0x0100_1000, and 0x0100_0000 while BUSY. -/
theorem witness_RefusedAccessesOnlySetHosterr :
    ((0x02 < 0x01000000 ∧ 0x02 % 4 ≠ 0) ∧ (0x04 < 0x01000000 ∧ Width.w2 ≠ .w4)) ∧
    (0x01000000 ≤ 0x01000001 ∧ 0x01000001 % Width.w2.bytes ≠ 0) ∧
    (0x01000000 + State.reset.params.imemBytes ≤ 0x01001000 ∧ 0x01000000 ≤ 0x01001000) ∧
    (0x01000000 ≤ 0x01000000 ∧ (rgbPair 0x2#32).status.busy = true) := by decide

theorem witness_BusyLockedWritesAreRefused :
    (rgbPair 0x2#32).status.busy = true ∧ 0x0C ∈ [0x0C, 0x10, 0x14, 0x18, 0x1C, 0x20, 0x24] := by decide

/-- The last word and the last byte of IMEM. -/
theorem witness_ImemAccessesAreLittleEndian :
    State.reset.status.busy = false ∧ (0xFFC % Width.w4.bytes = 0 ∧ 0xFFC < State.reset.params.imemBytes) ∧
      (0xFFF % Width.w1.bytes = 0 ∧ 0xFFF < State.reset.params.imemBytes) := by decide

theorem witness_RunningCommandShowsNothing : (rgbPair 0x2#32).Inv ∧ (rgbPair 0x2#32).status.busy = true :=
  ⟨rgbPair_inv _, rfl⟩

/-! ### Witnesses: host scripts -/

/-- The state after reset with a script loaded and HOST's turn next. -/
def scripted (sc : List Stmt) : State :=
  { State.reset with host := { HostAgent.reset with script := sc }, sched := [.host] }

/-- HOST at a `bnz` on bit 0 of variable 0, which holds `v`. -/
def polling (v : Word) : State :=
  { scripted [] with
    host := { HostAgent.reset with script := [.bnz 0 1#32 (.user 1), .label (.user 1)], vars := [(0, v)] } }

/-- HOST with a script, nothing scheduled and no command running. -/
def idle (sc : List Stmt) : State := { State.reset with host := { HostAgent.reset with script := sc } }

/-- Both premises; every clause: the first and the last offset of a window, labels defined and undefined, accesses just outside. -/
theorem witness_HostStatementsFollowTheTable :
    (∀ st sc, (scripted (st :: sc)).sched = [.host] ∧ (scripted (st :: sc)).host.current = some st) ∧
    (∀ st sc, (idle (st :: sc)).sched = [] ∧ (idle (st :: sc)).status.busy = false ∧
      (idle (st :: sc)).host.current = some st) ∧
    (0 < 0x01000000 ∧ 0x00FFFFFF < 0x01000000 ∧ 0 < 0x02000000 ∧ 0x01FFFFFF < 0x02000000) ∧
    ((polling 0#32).sched = [.host] ∧ (polling 0#32).host.current = some (.bnz 0 1#32 (.user 1)) ∧
      (polling 0#32).host.var 0 &&& 1#32 = 0#32) ∧
    ((polling 1#32).host.current = some (.bnz 0 1#32 (.user 1)) ∧ (polling 1#32).host.var 0 &&& 1#32 ≠ 0#32 ∧
      labelPosition (.user 1) (polling 1#32).host.script = some 1) ∧
    labelPosition (.user 1) (scripted [.branch (.user 1), .label (.user 1)]).host.script = some 1 ∧
    labelPosition (.user 1) (scripted [.branch (.user 1)]).host.script = none ∧
    (0x01000000 ≤ 0x01000000 ∧ 0x3FFFFFFF < (scripted []).params.blockBase ∧
      (scripted []).params.blockBase + 0x02000000 ≤ 0x42000000) :=
  ⟨fun _ _ => ⟨rfl, rfl⟩, fun _ _ => ⟨rfl, rfl, rfl⟩, by decide, by decide, by decide, by decide, by decide, by decide⟩

theorem witness_WaitLabelsAreUniquePerUse :
    ∀ n, Pseudo.stmt (.label (.generated n)) ∉ [Pseudo.wait 0, Pseudo.blur 0#32 1, Pseudo.stmt (.label (.user 0))] := by
  intro n; simp

/-! ### Witnesses: reset and the whole machine -/

theorem witness_PowerOnResetLeavesTheResetTable :
    ({ rgbPair 0x2#32 with sched := [.powerOn] } : State).sched = [.powerOn] := rfl

/-- In IDLE, and in RUN with each command and with an illegal word. -/
theorem witness_ResetKeepsImemOutsideTheAbandonedRange :
    (({ State.reset with sched := [.reset] } : State).sched = [.reset] ∧ State.reset.status.busy = false) ∧
    (({ rgbPair 0x1#32 with sched := [.reset] } : State).sched = [.reset] ∧ (rgbPair 0x1#32).status.busy = true ∧
      decode (rgbPair 0x1#32).latch.cmd = .ok .blur ∧ decode (rgbPair 0x3#32).latch.cmd = .ok .median ∧
      decode (rgbPair 0x2#32).latch.cmd = .ok .edges ∧ decode (rgbPair 0x4#32).latch.cmd = .ok .gray ∧
      ∃ e, decode (rgbPair 0x0#32).latch.cmd = .error e) :=
  ⟨⟨rfl, rfl⟩, rfl, rfl, rfl, rfl, rfl, rfl, _, rfl⟩

/-- The test configuration, and the least and the largest parameters R8 allows. -/
theorem witness_ResetStateIsGood :
    Config.testParams.wellFormed = true ∧
      Config.Params.wellFormed { blockBase := 0, imemBytes := 4, scratchBytes := 0, kmaxRadius := 1 } = true ∧
      Config.Params.wellFormed
        { blockBase := 0x02000000, imemBytes := 0x01000000, scratchBytes := 0xFFFFFFFF, kmaxRadius := 4096 } = true := by
  decide

theorem witness_StepKeepsTheInvariant : (rgbPair 0x2#32).Inv ∧ ∃ t, step (rgbPair 0x2#32) = .next t :=
  ⟨rgbPair_inv _, _, rfl⟩

theorem witness_StepKeepsTheParameters : ∃ t, step (rgbPair 0x3#32) = .next t := ⟨_, rfl⟩

/-- A script that clears STATUS, writes the last word of IMEM, and polls. -/
def safeScript : List Stmt :=
  Pseudo.expand [.ack, .stmt (.wr .w4 (.imem 0xFFC) 0#32), .wait 0, .stmt (.rd .w4 (.bus 0x40000000) 1)]

theorem witness_SafeHostNeverStopsTheMachine : (scripted safeScript).HostSafe := by decide

/-- A running command with two HOST turns before ENGINE's. -/
def busyWithScript : State :=
  { rgbPair 0x2#32 with sched := List.replicate 2 .host, host := { HostAgent.reset with script := safeScript } }

theorem busyWithScript_inv : busyWithScript.Inv := { rgbPair_inv 0x2#32 with }

theorem witness_HostNeverAffectsARunningCommand :
    busyWithScript.Inv ∧ busyWithScript.HostSafe ∧ busyWithScript.status.busy = true ∧
      busyWithScript.sched = List.replicate 2 .host := ⟨busyWithScript_inv, by decide, rfl, rfl⟩

/-- Three empty row slots, and three rows at the ends of the range [-255, 255]. -/
theorem witness_HiddenStoresAreNeverObservable :
    rowBufferOk State.reset.dxb = true ∧ rowBufferOk State.reset.dyb = true ∧
      rowBufferOk [[BitVec.ofInt 16 (-255)], [255#16], [0#16]] = true ∧
      (∃ t, Host.Core.run core 1 (rgbPair 0x2#32) = .next t) ∧
      Host.Core.run core 1 (scripted [.branch (.user 1)]) = .fault .undefinedLabel :=
  ⟨rfl, rfl, by decide, ⟨_, rfl⟩, rfl⟩

end Sys2Proof.Tests
end

section
/-! PROOFS. The rounding of an accumulator to a byte (spec/00_scope.md R14), and the parameters, which every turn of the
event order keeps (R8). -/

namespace Sys2Proof.Machine

/-! ### Rounding to a byte (R14) -/

/-- `roundHA` of a non-negative value, as a natural number. -/
theorem roundHA_false (num den : Nat) : roundHA false num den = ((2 * num + den) / (2 * den) : Nat) := rfl

/-- `roundHA` of a negated value is the negated rounding. -/
theorem roundHA_true (num den : Nat) : roundHA true num den = -roundHA false num den := rfl

/-- `sat8` of a natural number cuts it off at 255. -/
theorem toNat_sat8_natCast (n : Nat) : (sat8 n).toNat = min n 255 := by
  rw [sat8, BitVec.toNat_ofNat]; omega

/-- `sat8` of what is not positive is 0. -/
theorem sat8_of_nonpos {n : Int} (h : n ≤ 0) : sat8 n = 0#8 := by
  rw [sat8, max_eq_right h]; rfl

/-- Settles O17: a non-negative accumulator is its rounding cut off at 255, a negated one rounds to at most 0. -/
theorem accumulatorsRoundHalfAwayAndSaturate : Obligations.AccumulatorsRoundHalfAwayAndSaturate := by
  intro u
  constructor
  · rw [F32.toByte, roundHA_false, toNat_sat8_natCast, ← Nat.pow_succ']
  · rw [F32.toByte, roundHA_true, roundHA_false, sat8_of_nonpos (by omega)]; rfl

/-! ### The parameters -/

@[simp] theorem hostRead_params (s : State) (w : Width) (o : Nat) : (s.hostRead w o).2.params = s.params := by
  obtain h | h := hostRead_state_cases s w o <;> simp [h]

@[simp] theorem hostWrite_params (s : State) (w : Width) (o : Nat) (v : Word) :
    (s.hostWrite w o v).params = s.params := by
  obtain h | h | h | h | ⟨-, h⟩ | ⟨-, _, _, _, _, _, _, h⟩ | ⟨-, _, -, -, h⟩ := hostWrite_cases s w o v
  all_goals simp [h]

@[simp] theorem warmReset_params (s : State) : s.warmReset.params = s.params := by
  unfold State.warmReset; split <;> simp

@[simp] theorem powerOnReset_params (s : State) : s.powerOnReset.params = s.params := rfl

theorem hostBranch_params {l : Label} {s t : State} (h : s.hostBranch l = .next t) : t.params = s.params := by
  unfold State.hostBranch at h
  split at h <;> cases h
  rfl

/-- A statement of HOST's script keeps the parameters. -/
theorem hostStmt_params {st : Stmt} {s t : State} (h : s.hostStmt st = .next t) : t.params = s.params := by
  cases st with
  | wr w a v =>
    simp only [State.hostStmt] at h
    split at h <;> cases h
    exact hostWrite_params s w _ v
  | rd w a x =>
    simp only [State.hostStmt] at h
    split at h <;> cases h
    exact hostRead_params s w _
  | label l => cases h; rfl
  | bnz x m l =>
    simp only [State.hostStmt] at h
    split at h
    · exact hostBranch_params h
    · cases h; rfl
  | branch l => exact hostBranch_params h
  | halt => cases h; rfl

theorem hostTurn_params {s t : State} (h : s.hostTurn = .next t) : t.params = s.params := by
  unfold State.hostTurn at h
  split at h
  · exact hostStmt_params h
  · cases h; rfl

theorem blurRun_params (g : Geometry) (sg : F32) (s : State) : (blurRun g sg s).params = s.params := by
  obtain ⟨h, -⟩ | ⟨_, -, -, ⟨-, h⟩ | ⟨-, h⟩⟩ := blurRun_cases g sg s <;> simp [h]

/-- A command keeps the parameters, whichever of its completions it ends in. -/
theorem exec_params {i : Instr} {s t : State} (h : exec i s = .next t) : t.params = s.params := by
  cases i with
  | blur =>
    obtain ⟨_, -, e⟩ | ⟨-, _, -, e⟩ | ⟨-, -, -, e⟩ | ⟨-, -, -, e⟩ := execBlur_cases s <;> cases e.symm.trans h
    all_goals simp [blurRun_params]
  | edges =>
    obtain ⟨_, -, e⟩ | ⟨-, -, e⟩ | ⟨-, -, e⟩ := execEdges_cases s <;> cases e.symm.trans h <;> simp
  | median =>
    obtain ⟨_, -, e⟩ | ⟨-, -, e⟩ | ⟨-, -, -, e⟩ | ⟨-, -, -, e⟩ := execMedian_cases s <;> cases e.symm.trans h
    all_goals simp
  | gray =>
    obtain ⟨_, -, e⟩ | ⟨-, e⟩ := execGray_cases s <;> cases e.symm.trans h <;> simp

theorem engineStep_params {s t : State} (h : s.engineStep = .next t) : t.params = s.params := by
  obtain ⟨i, -, e⟩ | ⟨_, -, e⟩ := engineStep_cases s
  · exact exec_params (e.symm.trans h)
  · cases e.symm.trans h; rfl

/-- Every turn keeps the parameters. -/
theorem takeTurn_params {u : Turn} {s t : State} (h : s.takeTurn u = .next t) : t.params = s.params := by
  cases u with
  | host => exact hostTurn_params h
  | engine =>
    simp only [State.takeTurn, State.engineTurn] at h
    split at h
    · exact engineStep_params h
    · cases h; rfl
  | reset => cases h; exact warmReset_params s
  | powerOn => cases h; rfl

@[simp] theorem nextTurn_params (s : State) : s.nextTurn.2.params = s.params := by
  unfold State.nextTurn; split <;> rfl

/-- Settles O55: a step is the next turn, and every turn keeps the parameters. -/
theorem stepKeepsTheParameters : Obligations.StepKeepsTheParameters :=
  fun s _ h => (takeTurn_params h).trans (nextTurn_params s)

end Sys2Proof.Machine
end

section
/-! PROOFS. The rounding of spec/00_scope.md R13 is nearest, ties to even, and each operation rounds its exact result
once. -/

namespace Sys2Proof.Machine

/-! ### Rounding a quotient to an integer -/

/-- The rounded quotient is past `a` exactly when the value is past `a + 1/2`, or there when `a` is odd. -/
theorem lt_roundEven_iff (n a : Nat) {d : Nat} (hd : 0 < d) :
    a < roundEven n d ↔ (2 * a + 1) * d < 2 * n ∨ ((2 * a + 1) * d = 2 * n ∧ a % 2 = 1) := by
  have hn := Nat.div_add_mod n d
  have hr := Nat.mod_lt n hd
  have ha : (2 * a + 1) * d = 2 * (d * a) + d := by ring
  have hb := roundEven_bounds n d
  rw [ha]
  obtain h | h | h := Nat.lt_trichotomy a (n / d)
  · have := Nat.mul_le_mul_left d (Nat.succ_le_of_lt h)
    rw [Nat.mul_succ] at this
    omega
  · subst h
    simp only [roundEven]
    split <;> omega
  · have := Nat.mul_le_mul_left d (Nat.succ_le_of_lt h)
    rw [Nat.mul_succ] at this
    omega

/-- The rounded quotient is at most half a divisor from the exact one, and is even at exactly half of one. -/
theorem two_mul_abs_sub_roundEven (n : Nat) {d : Nat} (hd : 0 < d) :
    2 * |(n : Int) - roundEven n d * d| ≤ d ∧
      (2 * |(n : Int) - roundEven n d * d| = d → roundEven n d % 2 = 0) := by
  have hn : (n : Int) = (n / d : Nat) * d + (n % d : Nat) := by exact_mod_cast (Nat.div_add_mod' n d).symm
  have hr := Nat.mod_lt n hd
  simp only [roundEven]
  split
  · have e : (n : Int) - (n / d + 1 : Nat) * d = -((d : Int) - (n % d : Nat)) := by
      rw [Nat.cast_succ, add_mul, one_mul]; omega
    rw [e, abs_neg, abs_of_nonneg (by omega)]
    omega
  · have e : (n : Int) - (n / d : Nat) * d = (n % d : Nat) := by omega
    rw [e, abs_of_nonneg (by omega)]
    omega

/-- No integer is nearer to a quotient than the rounded one, and another is as near only where that one is even. -/
theorem roundEven_nearest (n a : Nat) {d : Nat} (hd : 0 < d) :
    |(n : Int) - roundEven n d * d| ≤ |(n : Int) - a * d| ∧
      (a ≠ roundEven n d → |(n : Int) - roundEven n d * d| = |(n : Int) - a * d| → roundEven n d % 2 = 0) := by
  obtain ⟨hle, htie⟩ := two_mul_abs_sub_roundEven n hd
  obtain rfl | hne := eq_or_ne a (roundEven n d)
  · exact ⟨le_rfl, fun h => absurd rfl h⟩
  · have hgap : (d : Int) ≤ |(n : Int) - roundEven n d * d| + |(n : Int) - a * d| := by
      calc (d : Int) = 1 * |(d : Int)| := by simp
        _ ≤ |(roundEven n d : Int) - a| * |(d : Int)| :=
          mul_le_mul_of_nonneg_right (Int.one_le_abs (by omega)) (abs_nonneg _)
        _ = |((n : Int) - a * d) - (n - roundEven n d * d)| := by rw [← abs_mul]; congr 1; ring
        _ ≤ _ := by rw [add_comm]; exact abs_sub _ _
    exact ⟨by omega, fun _ h => htie (by omega)⟩

/-! ### Patterns and their units -/

/-- Every pattern is an ulp exponent and a significand below `2^24` (R94). -/
theorem exists_significand (p : Nat) :
    ∃ k m, p = k * 2 ^ 23 + m ∧ m < 2 ^ 24 ∧ (k = 0 ∨ 2 ^ 23 ≤ m) := by
  by_cases h : p < 2 ^ 23
  · exact ⟨0, p, by omega, by omega, .inl rfl⟩
  · exact ⟨p / 2 ^ 23 - 1, 2 ^ 23 + p % 2 ^ 23, by omega, by omega, .inr (by omega)⟩

/-- The units rise with the pattern: the next pattern is one unit in the last place more. -/
theorem unitsOfPattern_strictMono : StrictMono unitsOfPattern := by
  refine strictMono_nat_of_lt_succ fun p => ?_
  obtain ⟨k, m, rfl, hm, hk⟩ := exists_significand p
  rw [unitsOfPattern_significand (by omega) hk, Nat.add_assoc, unitsOfPattern_significand (by omega) (by omega)]
  exact Nat.mul_lt_mul_of_pos_right (Nat.lt_succ_self m) (Nat.two_pow_pos k)

/-- A pattern stands for a multiple of `2^k` units, or `k` is not 0 and it stands for less than `2^23` times `2^k`. -/
theorem unitsOfPattern_multiple_or_lt (q k : Nat) :
    (∃ a, unitsOfPattern q = a * 2 ^ k) ∨ (k ≠ 0 ∧ unitsOfPattern q < 2 ^ 23 * 2 ^ k) := by
  obtain ⟨j, m, rfl, hm, hj⟩ := exists_significand q
  rw [unitsOfPattern_significand (by omega) hj]
  obtain h | h := le_or_gt k j
  · exact .inl ⟨m * 2 ^ (j - k), by rw [Nat.mul_assoc, ← Nat.pow_add, Nat.sub_add_cancel h]⟩
  · refine .inr ⟨by omega, ?_⟩
    calc m * 2 ^ j < 2 ^ 24 * 2 ^ j := Nat.mul_lt_mul_of_pos_right hm (Nat.two_pow_pos j)
      _ = 2 ^ 23 * 2 ^ (j + 1) := by ring
      _ ≤ 2 ^ 23 * 2 ^ k := Nat.mul_le_mul_left _ (Nat.pow_le_pow_right (by decide) h)

/-! ### The rounding of R13 -/

/-- A value is below `2^24` units in its last place. -/
theorem lt_ulpExponent_value (num : Nat) {den : Nat} (hd : 0 < den) :
    num < 2 ^ 24 * 2 ^ ulpExponent (num / den) * den := by
  rw [← Nat.div_lt_iff_lt_mul hd]
  obtain h | h := lt_or_ge (num / den) (2 ^ 24)
  · exact h.trans_le (Nat.le_mul_of_pos_right _ (Nat.two_pow_pos _))
  · exact (ulpExponent_bounds h).2

/-- Above the subnormal spacing a value is at least `2^23` units in its last place. -/
theorem ulpExponent_value_le {num den : Nat} (hd : 0 < den) (hk : ulpExponent (num / den) ≠ 0) :
    2 ^ 23 * 2 ^ ulpExponent (num / den) * den ≤ num := by
  rw [← Nat.le_div_iff_mul_le hd]
  refine (ulpExponent_bounds (Nat.le_of_not_lt fun h => hk ?_)).1
  rw [ulpExponent, if_pos h]

/-- The pattern of a finite rounding is its ulp exponent and rounded significand. -/
theorem roundPattern_of_lt {num den : Nat} (h : roundPattern num den < infPattern) :
    roundPattern num den =
      ulpExponent (num / den) * 2 ^ 23 + roundEven num (den * 2 ^ ulpExponent (num / den)) := by
  simp only [roundPattern] at h ⊢; omega

/-- A rounding is finite exactly below the pattern of +infinity, and then has the units of its pattern. -/
theorem round_eq_fin_iff {neg : Bool} {num den u : Nat} :
    F32.round neg num den = .fin neg u ↔
      roundPattern num den < infPattern ∧ unitsOfPattern (roundPattern num den) = u := by
  simp only [F32.round, F32.ofMagnitude]
  split
  · next h => simp [h]
  · next h => split <;> simp [h]

/-- A rounding is infinite exactly at the pattern of +infinity. -/
theorem round_eq_inf_iff {neg : Bool} {num den : Nat} :
    F32.round neg num den = .inf neg ↔ roundPattern num den = infPattern := by
  simp only [F32.round, F32.ofMagnitude]
  split
  · next h => simp; omega
  · split <;> simp_all

/-- The pattern of +infinity is reached from ulp exponent 254 on, and by the carry out of exponent 253. -/
theorem roundPattern_eq_infPattern_iff (num den : Nat) :
    roundPattern num den = infPattern ↔
      254 ≤ ulpExponent (num / den) ∨
        (ulpExponent (num / den) = 253 ∧ 2 ^ 24 - 1 < roundEven num (den * 2 ^ ulpExponent (num / den))) := by
  obtain ⟨hm, hk⟩ := significand_bounds num den
  simp only [roundPattern, infPattern]
  omega

/-- The rounding overflows exactly from half a unit in the last place past the largest finite value on. -/
theorem roundPattern_overflow_iff (num : Nat) {den : Nat} (hd : 0 < den) :
    roundPattern num den = infPattern ↔ (2 ^ 25 - 1) * 2 ^ 253 * den ≤ 2 * num := by
  rw [roundPattern_eq_infPattern_iff]
  obtain h | h | h := Nat.lt_trichotomy (ulpExponent (num / den)) 253
  · have : num < 2 ^ 24 * 2 ^ 252 * den := (lt_ulpExponent_value num hd).trans_le <|
      Nat.mul_le_mul_right _ (Nat.mul_le_mul_left _ (Nat.pow_le_pow_right (by decide) (Nat.le_of_lt_succ h)))
    omega
  · rw [h, lt_roundEven_iff num _ (Nat.mul_pos hd (Nat.two_pow_pos _))]
    omega
  · have : 2 ^ 23 * 2 ^ 254 * den ≤ num := le_trans
      (Nat.mul_le_mul_right _ (Nat.mul_le_mul_left _ (Nat.pow_le_pow_right (by decide) h)))
      (ulpExponent_value_le hd (by omega))
    omega

/-- No binary32 value is nearer than a finite rounding, and another is as near only where its pattern is even. -/
theorem roundPattern_nearest {num den : Nat} (hd : 0 < den) (h : roundPattern num den < infPattern) (q : Nat) :
    |(num : Int) - unitsOfPattern (roundPattern num den) * den| ≤ |(num : Int) - unitsOfPattern q * den| ∧
      (q ≠ roundPattern num den →
        |(num : Int) - unitsOfPattern (roundPattern num den) * den| = |(num : Int) - unitsOfPattern q * den| →
        roundPattern num den % 2 = 0) := by
  have hu := units_of_round (neg := false) (round_eq_fin_iff.2 ⟨h, rfl⟩)
  have hp := roundPattern_of_lt h
  have hlow := ulpExponent_value_le (num := num) hd
  generalize ulpExponent (num / den) = k at *
  have hD : 0 < den * 2 ^ k := Nat.mul_pos hd (Nat.two_pow_pos k)
  have scale : ∀ a : Nat, ((a * 2 ^ k : Nat) : Int) * den = a * ((den * 2 ^ k : Nat) : Int) := by
    intro a; push_cast; ring
  rw [hu, scale]
  obtain ⟨a, ha⟩ | ⟨hk, hq⟩ := unitsOfPattern_multiple_or_lt q k
  · obtain ⟨hle, htie⟩ := roundEven_nearest num a hD
    rw [ha, scale]
    refine ⟨hle, fun hne heq => ?_⟩
    have hne' : a ≠ roundEven num (den * 2 ^ k) := by
      rintro rfl
      exact hne (unitsOfPattern_strictMono.injective (ha.trans hu.symm))
    have := htie hne' heq
    omega
  · -- the value is at least `2^23` ulps, a candidate of the grid that is strictly nearer than `q`
    have hle := (roundEven_nearest num (2 ^ 23) hD).1
    have hqd : unitsOfPattern q * den < 2 ^ 23 * 2 ^ k * den := Nat.mul_lt_mul_of_pos_right hq hd
    have hstrict : |(num : Int) - (2 ^ 23 : Nat) * (den * 2 ^ k : Nat)| < |(num : Int) - unitsOfPattern q * den| := by
      have hq' : (unitsOfPattern q : Int) * den < (2 ^ 23 * 2 ^ k : Nat) * den := by exact_mod_cast hqd
      have hv : ((2 ^ 23 * 2 ^ k : Nat) : Int) * den ≤ num := by exact_mod_cast hlow hk
      rw [← scale, abs_of_nonneg (by omega), abs_of_nonneg (by omega)]
      omega
    exact ⟨(hle.trans_lt hstrict).le, fun _ heq => absurd heq (hle.trans_lt hstrict).ne⟩

/-- Settles O18: the overflow threshold, and the nearest pattern below it. -/
theorem binary32RoundsToNearestEven : Obligations.Binary32RoundsToNearestEven := by
  intro num den hd
  refine ⟨round_eq_inf_iff.trans (roundPattern_overflow_iff num hd), fun u h => ?_⟩
  obtain ⟨hlt, rfl⟩ := round_eq_fin_iff.1 h
  exact ⟨_, hlt, rfl, fun q _ => roundPattern_nearest hd hlt q⟩

/-! ### Operations -/

/-- A finite first operand that is not +0 is added exactly and rounded once: equal signs add the magnitudes, opposite
signs subtract the smaller from the larger. -/
theorem add_fin_fin {a b : Bool} {u v : Nat} (h : a = true ∨ 0 < u) :
    F32.add (.fin a u) (.fin b v) =
      if a = b then F32.round a (u + v) 1
      else if u < v then F32.round b (v - u) 1
      else if v < u then F32.round a (u - v) 1
      else F32.zero := by
  cases a with
  | true => rfl
  | false => cases u with
    | zero => simp at h
    | succ u => rfl

/-- A sign and a magnitude of a non-zero integer are its own. -/
theorem round_of_signed {x : Int} {s : Bool} {m : Nat} (h : x = if s then -(m : Int) else m) (h0 : x ≠ 0) :
    F32.round s m 1 = F32.round (decide (x < 0)) x.natAbs 1 := by
  subst h
  cases s with
  | false => simp [show ¬ (m : Int) < 0 by omega]
  | true =>
    have hm : 0 < m := by simpa [Nat.pos_iff_ne_zero] using h0
    simp [hm]

/-- A non-zero exact sum of finite operands is rounded once. -/
theorem add_fin_rounds {a b : Bool} {u v : Nat} {x : Int} (h : a = true ∨ 0 < u)
    (hx : x = (if a then -(u : Int) else u) + (if b then -(v : Int) else v)) (h0 : x ≠ 0) :
    F32.add (.fin a u) (.fin b v) = F32.round (decide (x < 0)) x.natAbs 1 := by
  rw [add_fin_fin h]
  split
  · next hab =>
    subst hab
    exact round_of_signed (by cases a <;> simp at hx ⊢ <;> omega) h0
  · next hab =>
    obtain rfl := Bool.eq_not.2 (Ne.symm hab)
    split
    · exact round_of_signed (by cases a <;> simp at hx ⊢ <;> omega) h0
    · split
      · exact round_of_signed (by cases a <;> simp at hx ⊢ <;> omega) h0
      · exact absurd (by cases a <;> simp at hx <;> omega) h0

/-- A natural number from 1 to `2^24` can be shifted to a significand. -/
theorem exists_shift {n : Nat} (h0 : 0 < n) (hn : n ≤ 2 ^ 24) :
    ∃ j, j ≤ 23 ∧ 2 ^ 23 ≤ n * 2 ^ j ∧ n * 2 ^ j ≤ 2 ^ 24 := by
  have hlo := Nat.log2_self_le h0.ne'
  have hhi := Nat.lt_log2_self (n := n)
  obtain h | h := le_or_gt n.log2 23
  · refine ⟨23 - n.log2, by omega, ?_, ?_⟩
    · calc 2 ^ 23 = 2 ^ n.log2 * 2 ^ (23 - n.log2) := by rw [← Nat.pow_add, Nat.add_sub_cancel' h]
        _ ≤ _ := Nat.mul_le_mul_right _ hlo
    · calc n * 2 ^ (23 - n.log2) ≤ 2 ^ (n.log2 + 1) * 2 ^ (23 - n.log2) := Nat.mul_le_mul_right _ hhi.le
        _ = 2 ^ 24 := by rw [← Nat.pow_add]; congr 1; omega
  · have : 2 ^ 24 ≤ n := (Nat.pow_le_pow_right (by decide) h).trans hlo
    exact ⟨0, by omega, by omega, by omega⟩

/-- Every natural number up to `2^24` is a binary32 value: `toF32` needs no rounding there (R13). -/
theorem exists_pattern_ofNat {n : Nat} (hn : n ≤ 2 ^ 24) :
    ∃ p, p < 0x7F800000 ∧ unitsOfPattern p = n * 2 ^ 149 := by
  obtain rfl | h0 := Nat.eq_zero_or_pos n
  · exact ⟨0, by decide, by decide⟩
  · obtain ⟨j, hj, hlo, hhi⟩ := exists_shift h0 hn
    refine ⟨(149 - j) * 2 ^ 23 + n * 2 ^ j, by omega, ?_⟩
    rw [unitsOfPattern_significand hhi (.inr hlo), Nat.mul_assoc, ← Nat.pow_add, Nat.add_sub_cancel' (by omega)]

/-- Settles O59: product, quotient and sum are single roundings of the exact result, and `toF32` gives a pattern's
units. -/
theorem binary32OperationsRoundTheExactResult : Obligations.Binary32OperationsRoundTheExactResult := by
  refine ⟨fun a b u v => ⟨rfl, fun hv => ?_, fun x hx h h0 => ?_⟩, fun f => rfl, fun n hn => ?_⟩
  · rw [F32.div, if_neg hv.ne']
  · exact add_fin_rounds h hx h0
  · obtain ⟨p, hp, hu⟩ := exists_pattern_ofNat hn
    exact ⟨p, hp, by rw [hu, F32.ofNat], hu⟩

end Sys2Proof.Machine
end

section
/-! PROOFS. What BLUR and MEDIAN leave in a sample, in terms of the samples of its own channel (spec/40_blur.md R120 and
R121, spec/43_median.md R172 to R175), and from it the independence of the channels (spec/00_scope.md R9). -/

namespace Sys2Proof.Machine

/-! ### BLUR -/

/-- `T[y][x][c]` read back from SCRATCH right after the horizontal pass (R118, R120). -/
theorem scratchSample_horizontalPass (m : Memory) (s : State) (g : Geometry) (kt : List Word) (r : Nat) {y x ch : Nat}
    (hy : y < g.h) (hx : x < g.w) (hc : ch < g.c) :
    scratchSample (m.writeBytes 0 (s.horizontalPass g kt r)) g y x ch =
      conv1 kt r g.w (fun j => s.sampleIn g y j ch) x := by
  rw [scratchSample, State.horizontalPass, ← Nat.zero_add (sampleIndex g.w g.c y x ch),
    read_writeBytes_raster m 0 _ hy hx hc]

/-- An output sample of BLUR: the vertical convolution of the horizontal convolutions of its own channel (R120,
R121). -/
theorem sampleIn_blurEffect (s : State) (g : Geometry) (sg : F32) (r : Nat) {y x ch : Nat}
    (hy : y < g.h) (hx : x < g.w) (hc : ch < g.c) :
    (blurEffect g sg r s).sampleIn g y x ch =
      conv1 (kernelWeights sg r) r g.h
        (fun i => conv1 (kernelWeights sg r) r g.w (fun j => s.sampleIn g i j ch) x) y := by
  have hk : ∀ k, k < 2 * r + 1 → (kernelWeights sg r ++ s.kt.drop (2 * r + 1)).getD k 0#32 =
      (kernelWeights sg r).getD k 0#32 := fun k hk => getD_kernel_append sg r _ hk
  calc (blurEffect g sg r s).sampleIn g y x ch
      = conv1 (kernelWeights sg r ++ s.kt.drop (2 * r + 1)) r g.h (fun i => scratchSample
          (s.scratch.writeBytes 0 (s.horizontalPass g (kernelWeights sg r ++ s.kt.drop (2 * r + 1)) r)) g i x ch) y :=
        read_writeBytes_raster s.imem g.base _ hy hx hc
    _ = _ := conv1_congr y (by omega) hk fun i hi => by
        rw [scratchSample_horizontalPass _ s g _ r hi hx hc]
        exact conv1_congr x (by omega) hk fun _ _ => rfl

/-! ### MEDIAN: what the sweep reads of the canvas -/

section Sweep

variable {P Q : Nat → Nat → Byte} {r w h : Nat}
  (hPQ : ∀ py px, py < h + 2 * r → px < w + 2 * r → P py px = Q py px)

include hPQ

/-- A column of a window inside the canvas is counted from the canvas only. -/
theorem columnIn_congr {y px : Nat} (hy : y < h) (hpx : px < w + 2 * r) (hist : List Word) :
    columnIn P r y px hist = columnIn Q r y px hist := by
  refine List.foldl_ext _ _ _ fun acc k hk => ?_
  rw [hPQ _ _ (by have := List.mem_range.1 hk; omega) hpx]

/-- The first window of an output row lies inside the canvas (R173). -/
theorem windowHistogram_congr {y : Nat} (hy : y < h) (hw : 0 < w) :
    windowHistogram P r y = windowHistogram Q r y :=
  List.foldl_ext _ _ _ fun acc px hpx =>
    columnIn_congr hPQ hy (by have := List.mem_range.1 hpx; omega) acc

/-- The departing and the entering column of a slide lie inside the canvas (R175). -/
theorem slideWindow_congr {y x : Nat} (hy : y < h) (hx : x < w) (hist : List Word) :
    slideWindow P r y x hist = slideWindow Q r y x hist := by
  refine List.foldl_ext _ _ _ fun acc k hk => ?_
  have hk := List.mem_range.1 hk
  rw [hPQ (y + k) (x - 1) (by omega) (by omega), hPQ (y + k) (x + 2 * r) (by omega) (by omega)]

theorem medianRow_congr {y : Nat} (hy : y < h) (n x : Nat) (hx : x + n ≤ w) (hist : List Word) :
    medianRow P r y n x hist = medianRow Q r y n x hist := by
  induction n generalizing x hist with
  | zero => rfl
  | succ n ih => simp only [medianRow, slideWindow_congr hPQ hy (show x < w by omega), ih (x + 1) (by omega)]

/-- The output rows depend on the canvas only, not even on the histogram the sweep starts from (R173). -/
theorem medianRows_congr (hw : 0 < w) (n y : Nat) (hy : y + n ≤ h) (hist hist' : List Word) :
    (medianRows P r w n y hist).2 = (medianRows Q r w n y hist').2 := by
  induction n generalizing y hist hist' with
  | zero => rfl
  | succ n ih =>
    have hrow : medianRow P r y w 0 (windowHistogram P r y) = medianRow Q r y w 0 (windowHistogram Q r y) := by
      rw [windowHistogram_congr hPQ (by omega) hw, medianRow_congr hPQ (by omega) w 0 (by omega)]
    simp only [medianRows, hrow]
    rw [ih (y + 1) (by omega)]

end Sweep

/-! ### MEDIAN: the channel planes -/

/-- The canvas sample `P[py][px]` of a channel, straight from the image (R172). -/
def State.canvasSample (s : State) (g : Geometry) (r ch py px : Nat) : Byte :=
  s.sampleIn g (clampIndex ((py : Int) - r) g.h) (clampIndex ((px : Int) - r) g.w) ch

/-- The medians of one channel, row by row: the sweep over the canvas of that channel. -/
def State.medianPlane (s : State) (g : Geometry) (r ch : Nat) : List Byte :=
  (medianRows (s.canvasSample g r ch) r g.w g.h 0 emptyHistogram).2

/-- The canvas as SCRATCH holds it right after it was written (R172). -/
theorem scratchCanvas_writeBytes_canvas (m : Memory) (s : State) (g : Geometry) (r ch : Nat) {py px : Nat}
    (hy : py < g.h + 2 * r) (hx : px < g.w + 2 * r) :
    scratchCanvas (m.writeBytes 0 (s.canvas g r ch)) (canvasWidth g r) py px = s.canvasSample g r ch py px := by
  have h := read_writeBytes_raster m 0 (c := 1) (ch := 0)
    (fun py px _ => s.canvasSample g r ch py px) hy hx Nat.one_pos
  rwa [sampleIndex, Nat.mul_one, Nat.zero_add] at h

/-- One channel of MEDIAN appends its plane. -/
theorem planes_channel (s : State) (g : Geometry) (r ch : Nat) (m : MedianRun) (hw : 0 < g.w) :
    (MedianRun.channel s g r ch m).planes = m.planes ++ [s.medianPlane g r ch] := by
  simp only [MedianRun.channel, State.medianPlane]
  rw [medianRows_congr (fun _ _ hy hx => scratchCanvas_writeBytes_canvas m.scratch s g r ch hy hx) hw g.h 0 (by omega)]

/-- The planes of MEDIAN, channel by channel. -/
theorem planes_medianRun (s : State) (g : Geometry) (r : Nat) (hw : 0 < g.w) :
    (medianRun s g r).planes = (List.range g.c).map (s.medianPlane g r) := by
  suffices ∀ (l : List Nat) (m : MedianRun), (l.foldl (fun m ch => MedianRun.channel s g r ch m) m).planes =
      m.planes ++ l.map (s.medianPlane g r) from this _ _
  intro l
  induction l with
  | nil => simp
  | cons ch l ih => intro m; simp [ih, planes_channel s g r ch m hw]

/-- An output sample of MEDIAN: its place in the plane of its own channel. -/
theorem sampleIn_medianEffect (s : State) (g : Geometry) (r : Nat) {y x ch : Nat}
    (hy : y < g.h) (hx : x < g.w) (hc : ch < g.c) :
    (medianEffect g r s).sampleIn g y x ch = (s.medianPlane g r ch).getD (y * g.w + x) 0#8 := by
  calc (medianEffect g r s).sampleIn g y x ch = planeSample (medianRun s g r).planes g.w y x ch :=
        read_writeBytes_raster s.imem g.base _ hy hx hc
    _ = _ := by rw [planeSample, planes_medianRun s g r (by omega)]; simp [List.getD, hc]

/-! ### Channel independence (R9) -/

/-- Two states hold the same samples of one channel of an image. -/
def State.SameChannel (g : Geometry) (ch : Nat) (s t : State) : Prop :=
  ∀ y x, y < g.h → x < g.w → t.sampleIn g y x ch = s.sampleIn g y x ch

theorem blurEffect_sameChannel {g : Geometry} {ch : Nat} {s t : State} (hc : ch < g.c) (h : State.SameChannel g ch s t)
    (sg : F32) (r : Nat) : State.SameChannel g ch (blurEffect g sg r s) (blurEffect g sg r t) := by
  intro y x hy hx
  rw [sampleIn_blurEffect t g sg r hy hx hc, sampleIn_blurEffect s g sg r hy hx hc]
  exact conv1_congr y (by omega) (fun _ _ => rfl) fun i hi =>
    conv1_congr x (by omega) (fun _ _ => rfl) fun j hj => h i j hi hj

/-- A plane reads its own channel only: every clamped index lies inside the image. -/
theorem medianPlane_congr {g : Geometry} {ch : Nat} {s t : State} (h : State.SameChannel g ch s t) (hh : 0 < g.h)
    (hw : 0 < g.w) (r : Nat) : t.medianPlane g r ch = s.medianPlane g r ch :=
  medianRows_congr (h := g.h) (fun _ _ _ _ => h _ _ (clampIndex_lt hh _) (clampIndex_lt hw _)) hw g.h 0 (by omega) _ _

theorem medianEffect_sameChannel {g : Geometry} {ch : Nat} {s t : State} (hc : ch < g.c)
    (h : State.SameChannel g ch s t) (r : Nat) : State.SameChannel g ch (medianEffect g r s) (medianEffect g r t) := by
  intro y x hy hx
  rw [sampleIn_medianEffect t g r hy hx hc, sampleIn_medianEffect s g r hy hx hc,
    medianPlane_congr h (Nat.zero_lt_of_lt hy) (Nat.zero_lt_of_lt hx)]

theorem blurRun_sameChannel {g : Geometry} {ch : Nat} {s t : State} (hp : t.params = s.params) (hc : ch < g.c)
    (h : State.SameChannel g ch s t) (sg : F32) : State.SameChannel g ch (blurRun g sg s) (blurRun g sg t) := by
  unfold blurRun
  rw [hp]
  split
  · exact h
  · split
    · exact h
    · split
      · exact h
      · exact blurEffect_sameChannel hc h sg _

/-- BLUR takes the same course from both states: its checks read the parameters and the latch only. -/
theorem execBlur_sameChannel {ch : Nat} {s s' t t' : State} (hp : s'.params = s.params) (hl : s'.latch = s.latch)
    (hc : ch < s.latch.geometry.c) (h : State.SameChannel s.latch.geometry ch s s') :
    exec .blur s = .next t → exec .blur s' = .next t' → State.SameChannel s.latch.geometry ch t t' := by
  simp only [exec, execBlur, hp, hl]
  split
  · rintro ⟨⟩ ⟨⟩; exact h
  · split
    · rintro ⟨⟩ ⟨⟩; exact h
    · split
      · rintro ⟨⟩ ⟨⟩; exact h
      · rintro ⟨⟩ ⟨⟩; exact blurRun_sameChannel hp hc h _

/-- MEDIAN takes the same course from both states: its checks read the parameters and the latch only. -/
theorem execMedian_sameChannel {ch : Nat} {s s' t t' : State} (hp : s'.params = s.params) (hl : s'.latch = s.latch)
    (hc : ch < s.latch.geometry.c) (h : State.SameChannel s.latch.geometry ch s s') :
    exec .median s = .next t → exec .median s' = .next t' → State.SameChannel s.latch.geometry ch t t' := by
  simp only [exec, execMedian, hp, hl]
  split
  · rintro ⟨⟩ ⟨⟩; exact h
  · split
    · rintro ⟨⟩ ⟨⟩; exact h
    · split
      · rintro ⟨⟩ ⟨⟩; exact h
      · rintro ⟨⟩ ⟨⟩; exact medianEffect_sameChannel hc h _

/-- Settles O37: each command keeps agreement on a channel, and `sampleIn` reads the address the statement writes
out. -/
theorem channelsAreFilteredIndependently : Obligations.ChannelsAreFilteredIndependently := by
  rintro i s s' t t' c (rfl | rfl) hp hl hc h ht ht'
  · exact execBlur_sameChannel hp hl hc h ht ht'
  · exact execMedian_sameChannel hp hl hc h ht ht'

end Sys2Proof.Machine
end

section
/-! PROOFS. The invariant of the machine: it holds after reset (spec/10_state.md R53), and every turn of the event order
keeps it. -/

namespace Sys2Proof.Machine

/-! ### The invariant at reset -/

/-- The state after power-on reset is a good one, whatever the draw (R53; log 8). -/
theorem Inv_resetWith {p : Config.Params} (h : p.wellFormed = true) (draw : Nat) : (State.resetWith p draw).Inv where
  params := h
  status := (by decide : Status.reset.legal = true)
  imemWf := rfl
  imemWithin := rfl
  scratchWf := rfl
  scratchWithin := rfl
  ktLength := List.length_replicate
  histLength := List.length_replicate
  dxbOk := rfl
  dybOk := rfl
  kradius := Nat.zero_le _
  latched := fun h' => by cases h'

/-- Settles O53: every clause is a value that reset writes, or the shape of one. -/
theorem resetStateIsGood : Obligations.ResetStateIsGood := fun _ draw h => Inv_resetWith h draw

theorem Inv_powerOnReset {s : State} (h : s.Inv) : s.powerOnReset.Inv :=
  { Inv_resetWith h.params s.freeNext with }

/-- A reset while powered abandons the running command, if there is one, and resets the registers (R220 to R222). -/
theorem Inv_warmReset {s : State} (h : s.Inv) : s.warmReset.Inv := by
  unfold State.warmReset
  split
  · exact Inv_resetRegisters (Inv_abandonCommand h)
  · exact Inv_resetRegisters h

/-! ### The invariant under a command -/

/-- BLUR's completion on the no-op path, which stores KRADIUS 0 (R112). -/
theorem Inv_blurNoOp {s : State} (h : s.Inv) (hb : s.status.busy = true) :
    ({ s with kradius := 0#32 } : State).completeOk.Inv :=
  Inv_completeOk h hb rfl rfl h.imemWf h.imemWithin h.scratchWf h.scratchWithin h.ktLength h.histLength h.dxbOk h.dybOk
    (Nat.zero_le _)

/-- MEDIAN's completion with radius 0, which stores nothing (R171). -/
theorem Inv_medianNoOp {s : State} (h : s.Inv) (hb : s.status.busy = true) : s.completeOk.Inv :=
  Inv_completeOk h hb rfl rfl h.imemWf h.imemWithin h.scratchWf h.scratchWithin h.ktLength h.histLength h.dxbOk h.dybOk
    h.kradius

/-- BLUR past the no-op path: the passes run only when the kernel and the image fit their stores (R117, R118). -/
theorem Inv_blurRun {s : State} (h : s.Inv) (hb : s.status.busy = true) (hv : s.latch.geometry.Valid s.params)
    (sg : F32) : (blurRun s.latch.geometry sg s).Inv := by
  obtain ⟨e, -⟩ | ⟨r, -, hr, ⟨-, e⟩ | ⟨hs, e⟩⟩ := blurRun_cases s.latch.geometry sg s <;> rw [e]
  · exact Inv_failWith h hb _
  · exact Inv_failWith h hb _
  · exact Inv_blur h hb hv sg hr hs

/-- A running command keeps the invariant, whichever of its completions it ends in. -/
theorem Inv_exec {i : Instr} {s t : State} (h : s.Inv) (hb : s.status.busy = true) (ht : exec i s = .next t) :
    t.Inv := by
  have hvalid : geometryError s.params s.latch.geometry = none → s.latch.geometry.Valid s.params :=
    (geometryError_eq_none_iff _ _).1
  cases i with
  | blur =>
    obtain ⟨_, -, e⟩ | ⟨-, _, -, e⟩ | ⟨-, -, -, e⟩ | ⟨hg, -, -, e⟩ := execBlur_cases s <;> cases e.symm.trans ht
    · exact Inv_failWith h hb _
    · exact Inv_failWith h hb _
    · exact Inv_blurNoOp h hb
    · exact Inv_blurRun h hb (hvalid hg) _
  | edges =>
    obtain ⟨_, -, e⟩ | ⟨-, -, e⟩ | ⟨hg, hs, e⟩ := execEdges_cases s <;> cases e.symm.trans ht
    · exact Inv_failWith h hb _
    · exact Inv_failWith h hb _
    · exact Inv_edges h hb (hvalid hg) hs
  | median =>
    obtain ⟨_, -, e⟩ | ⟨-, -, e⟩ | ⟨-, -, -, e⟩ | ⟨hg, -, hs, e⟩ := execMedian_cases s <;> cases e.symm.trans ht
    · exact Inv_failWith h hb _
    · exact Inv_medianNoOp h hb
    · exact Inv_failWith h hb _
    · exact Inv_median h hb (hvalid hg) hs
  | gray =>
    obtain ⟨_, -, e⟩ | ⟨hg, e⟩ := execGray_cases s <;> cases e.symm.trans ht
    · exact Inv_failWith h hb _
    · exact Inv_gray h hb (hvalid hg)

theorem Inv_engineStep {s t : State} (h : s.Inv) (hb : s.status.busy = true) (ht : s.engineStep = .next t) :
    t.Inv := by
  obtain ⟨i, -, e⟩ | ⟨_, -, e⟩ := engineStep_cases s
  · exact Inv_exec h hb (e.symm.trans ht)
  · cases e.symm.trans ht
    exact Inv_failWith h hb _

/-! ### The invariant under HOST and under a step -/

theorem Inv_hostBranch {l : Label} {s t : State} (h : s.Inv) (ht : s.hostBranch l = .next t) : t.Inv := by
  unfold State.hostBranch at ht
  split at ht <;> cases ht
  exact Inv_host h _

/-- A statement of HOST's script is an access and a move of HOST, or a move of HOST alone. -/
theorem Inv_hostStmt {st : Stmt} {s t : State} (h : s.Inv) (ht : s.hostStmt st = .next t) : t.Inv := by
  cases st with
  | wr w a v =>
    simp only [State.hostStmt] at ht
    split at ht <;> cases ht
    exact Inv_host (Inv_hostWrite h w _ v) _
  | rd w a x =>
    simp only [State.hostStmt] at ht
    split at ht <;> cases ht
    exact Inv_host (Inv_hostRead h w _) _
  | label l => cases ht; exact Inv_host h _
  | bnz x m l =>
    simp only [State.hostStmt] at ht
    split at ht
    · exact Inv_hostBranch h ht
    · cases ht; exact Inv_host h _
  | branch l => exact Inv_hostBranch h ht
  | halt => cases ht; exact Inv_host h _

theorem Inv_hostTurn {s t : State} (h : s.Inv) (ht : s.hostTurn = .next t) : t.Inv := by
  unfold State.hostTurn at ht
  split at ht
  · exact Inv_hostStmt h ht
  · cases ht; exact h

/-- Every turn keeps the invariant. -/
theorem Inv_takeTurn {u : Turn} {s t : State} (h : s.Inv) (ht : s.takeTurn u = .next t) : t.Inv := by
  cases u with
  | host => exact Inv_hostTurn h ht
  | engine =>
    simp only [State.takeTurn, State.engineTurn] at ht
    split at ht
    · next hb => exact Inv_engineStep h hb ht
    · cases ht; exact h
  | reset => cases ht; exact Inv_warmReset h
  | powerOn => cases ht; exact Inv_powerOnReset h

theorem Inv_nextTurn {s : State} (h : s.Inv) : s.nextTurn.2.Inv := by
  unfold State.nextTurn
  split
  · exact h
  · exact Inv_sched h _

/-- Settles O54: a step is the next turn, and every turn keeps the invariant. -/
theorem stepKeepsTheInvariant : Obligations.StepKeepsTheInvariant :=
  fun _ _ h ht => Inv_takeTurn (Inv_nextTurn h) ht

end Sys2Proof.Machine
end

section
/-! PROOFS. The registers as HOST reads and writes them (spec/10_state.md R23 to R43), and the interrupt output. -/

namespace Sys2Proof.Machine

/-! ### The STATUS and CTRL words (R24, R32, R43) -/

/-- The STATUS word with the fields' widths left as a sum, the form the library's lemmas about `++` are stated in. -/
def Status.fields (st : Status) : BitVec (8 + 8 + 4 + 4 + 4 + 1 + 1 + 1 + 1) :=
  0#8 ++ st.errDetail ++ 0#4 ++ st.errCode ++ 0#4 ++ BitVec.ofBool st.hostErr ++ BitVec.ofBool st.err
    ++ BitVec.ofBool st.done ++ BitVec.ofBool st.busy

theorem getLsbD_word (st : Status) (k : Nat) : st.word.getLsbD k = st.fields.getLsbD k := rfl

theorem extractLsb'_word (st : Status) (k n : Nat) : st.word.extractLsb' k n = st.fields.extractLsb' k n := rfl

/-- Settles O38: a field lies where the widths of the fields below it add up to. -/
theorem statusWordLayout : Obligations.StatusWordLayout := by
  intro st
  simp only [getLsbD_word, extractLsb'_word, Status.fields]
  refine ⟨?_, ?_, ?_, ?_, ?_, ?_, ?_, ?_, ?_⟩
  iterate 4 · simp only [BitVec.getLsbD_append, BitVec.getLsbD_ofBool, Nat.reduceLT, Nat.reduceSub, ↓reduceIte,
      decide_true, Bool.true_and]
  all_goals simp only [BitVec.extractLsb'_append_eq_of_le, BitVec.extractLsb'_append_eq_right,
    BitVec.extractLsb'_eq_self, Nat.reduceLeDiff, Nat.reduceSub]

/-- `CTRL` reads as its bit 0 (R32). -/
theorem ctrlWord_eq (irqEn : Bool) : ctrlWord irqEn = if irqEn then 1#32 else 0#32 := by cases irqEn <;> rfl

/-- Settles O46: HOSTERR, the one bit a refusal sets, is no input of IRQ. -/
theorem irqIsEnabledCompletion : Obligations.IrqIsEnabledCompletion := by
  refine ⟨fun s => ?_, fun _ => rfl, fun _ _ => rfl⟩
  simp only [State.irq, Bool.and_eq_true, Bool.or_eq_true]

/-! ### Register accesses (R23, R31 to R42) -/

/-- A reserved offset reads 0, without a side effect (R42). -/
theorem hostRead_reserved (s : State) {o : Nat} (h : 0x38 ≤ o) (h2 : o < imemWindow) (h3 : o % 4 = 0) :
    s.hostRead .w4 o = (0#32, s) := by
  simp only [State.hostRead, reach_reserved s h h2 h3]

/-- A write of a reserved offset is ignored (R42). -/
theorem hostWrite_reserved (s : State) {o : Nat} (v : Word) (h : 0x38 ≤ o) (h2 : o < imemWindow) (h3 : o % 4 = 0) :
    s.hostWrite .w4 o v = s := by
  simp only [State.hostWrite, reach_reserved s h h2 h3]

/-- With BUSY = 0 a register write takes place. -/
theorem hostWrite_reg_idle {s : State} (hb : s.status.busy = false) (r : Reg) (v : Word) :
    s.hostWrite .w4 r.offset v = s.storeReg r v := by
  rw [hostWrite_reg, State.writeReg, hb]; rfl

/-- A write of a register that is not busy-locked takes place, BUSY or not. -/
theorem hostWrite_reg_unlocked (s : State) {r : Reg} (hr : r.busyLocked = false) (v : Word) :
    s.hostWrite .w4 r.offset v = s.storeReg r v := by
  rw [hostWrite_reg, State.writeReg, hr, Bool.and_false]; rfl

/-- While BUSY a write of a busy-locked register is refused (R203 (e)). -/
theorem hostWrite_reg_locked {s : State} (hb : s.status.busy = true) {r : Reg} (hr : r.busyLocked = true) (v : Word) :
    s.hostWrite .w4 r.offset v = s.refuse := by
  rw [hostWrite_reg, State.writeReg, hb, hr]; rfl

/-- Settles O39: the offsets of R42 reach their registers, the offsets from 0x38 on reach none. -/
theorem registerReadsReturnTheRegister : Obligations.RegisterReadsReturnTheRegister := by
  intro s
  have hctrl : s.hostRead .w4 Reg.ctrl.offset = ((if s.irqEn then 1#32 else 0#32), s) := by
    rw [hostRead_reg, State.readReg, ctrlWord_eq]
  exact ⟨hostRead_reg s .id, hostRead_reg s .status, hctrl, hostRead_reg s .cmd, hostRead_reg s .imgBase,
    hostRead_reg s .imgWidth, hostRead_reg s .imgHeight, hostRead_reg s .imgChannels, hostRead_reg s .sigma,
    hostRead_reg s .medRadius, hostRead_reg s .kradius, hostRead_reg s .capImem, hostRead_reg s .capScratch,
    hostRead_reg s .capKradius, fun _ => hostRead_reserved s⟩

/-- Settles O40: the parameter registers store in IDLE; the read-only registers are never locked and store nothing. -/
theorem registerWritesStoreOrAreIgnored : Obligations.RegisterWritesStoreOrAreIgnored := by
  intro s v
  have store := fun hb r => hostWrite_reg_idle (s := s) hb r v
  exact ⟨fun hb => ⟨store hb .imgBase, store hb .imgWidth, store hb .imgHeight, store hb .imgChannels, store hb .sigma,
      store hb .medRadius⟩,
    hostWrite_reg_unlocked s (r := .id) rfl v, hostWrite_reg_unlocked s (r := .kradius) rfl v,
    hostWrite_reg_unlocked s (r := .capImem) rfl v, hostWrite_reg_unlocked s (r := .capScratch) rfl v,
    hostWrite_reg_unlocked s (r := .capKradius) rfl v, fun _ => hostWrite_reserved s v⟩

/-- An acknowledge as the conditional clears of R31. -/
theorem acknowledge_eq (v : Word) (s : State) :
    s.acknowledge v =
      { s with status := { s.status with
          done := if v.getLsbD 1 then false else s.status.done
          err := if v.getLsbD 2 then false else s.status.err
          hostErr := if v.getLsbD 3 then false else s.status.hostErr } } := by
  have clear (a b : Bool) : (a && !b) = if b then false else a := by cases b <;> simp
  simp only [State.acknowledge, clear]

/-- Settles O41: STATUS and CTRL are not busy-locked, and a legal STATUS in RUN shows no completion. -/
theorem statusAndCtrlWrites : Obligations.StatusAndCtrlWrites := by
  intro s v
  refine ⟨?_, hostWrite_reg_unlocked s (r := .ctrl) rfl v, fun h hb => ?_, ?_, ?_, ?_, fun _ _ => rfl⟩
  · exact (hostWrite_reg_unlocked s (r := .status) rfl v).trans (acknowledge_eq v s)
  · obtain ⟨hd, he, -⟩ := legal_busy h.status hb
    exact ⟨hd, he⟩
  · exact congrArg Prod.snd (hostRead_reg s .status)
  · exact congrArg Prod.snd (hostRead_reg s .ctrl)
  · exact (congrArg Prod.fst (hostRead_reg s .ctrl)).trans (ctrlWord_eq s.irqEn)

/-- Settles O42: a CMD write starts a command in IDLE and is refused in RUN. -/
theorem cmdWriteStartsACommand : Obligations.CmdWriteStartsACommand := by
  intro s v
  refine ⟨fun hb => ?_, fun hb => hostWrite_reg_locked hb (r := .cmd) rfl v, fun _ _ => rfl⟩
  have hw : s.hostWrite .w4 0x0C v = s.startCommand v := hostWrite_reg_idle hb .cmd v
  refine ⟨hw, ?_⟩
  rw [hw]
  exact congrArg Prod.fst (hostRead_reg (s.startCommand v) .cmd)

end Sys2Proof.Machine
end

section
/-! PROOFS. The hidden stores are never observable (spec/20_memory.md R77): two machines that differ only in them take the
same course. HOST and the resets do not look at them at all; a command reads of them only what it has just written. -/

namespace Sys2Proof.Machine

/-! ### The hidden stores as one value (R45, R47 to R50) -/

/-- The contents of SCRATCH, KT, HIST and the row buffers. -/
structure HiddenStores where
  scratch : Memory
  kt : List Word
  hist : List Word
  rows : RowBuffers

/-- Both row buffers have their shape (R49). -/
def RowBuffers.Ok (b : RowBuffers) : Prop := rowBufferOk b.dxb = true ∧ rowBufferOk b.dyb = true

/-- The hidden stores of a state. -/
def State.hidden (s : State) : HiddenStores :=
  { scratch := s.scratch, kt := s.kt, hist := s.hist, rows := { dxb := s.dxb, dyb := s.dyb } }

/-- The state with other hidden stores: `withHidden` of the bundled contents. -/
def State.withStores (h : HiddenStores) (s : State) : State :=
  s.withHidden h.scratch h.kt h.hist h.rows.dxb h.rows.dyb

/-- Two states that differ in the hidden stores only, with row buffers in shape on both sides. -/
inductive State.Indistinguishable : State → State → Prop where
  | intro (s : State) (h : HiddenStores) (hs : s.hidden.rows.Ok) (hh : h.rows.Ok) :
    State.Indistinguishable s (s.withStores h)

/-- Two outcomes of one kind: next states that differ in the hidden stores only, or the same reason to stop. -/
inductive SameOutcome :
    Host.Outcome State Fault Refusal → Host.Outcome State Fault Refusal → Prop where
  | next {t t' : State} (h : State.Indistinguishable t t') : SameOutcome (.next t) (.next t')
  | fault (f : Fault) : SameOutcome (.fault f) (.fault f)
  | refused (r : Refusal) : SameOutcome (.refused r) (.refused r)

namespace State.Indistinguishable

variable {s t : State}

theorem of_sameVisible (h : State.SameVisible s t) (hs : s.hidden.rows.Ok) (ht : t.hidden.rows.Ok) :
    State.Indistinguishable s t :=
  (show t = s.withStores t.hidden from h) ▸ .intro s t.hidden hs ht

theorem sameVisible (h : State.Indistinguishable s t) : State.SameVisible s t := by cases h; rfl

theorem params (h : State.Indistinguishable s t) : t.params = s.params := by cases h; rfl

theorem status (h : State.Indistinguishable s t) : t.status = s.status := by cases h; rfl

theorem latch (h : State.Indistinguishable s t) : t.latch = s.latch := by cases h; rfl

theorem host (h : State.Indistinguishable s t) : t.host = s.host := by cases h; rfl

theorem sched (h : State.Indistinguishable s t) : t.sched = s.sched := by cases h; rfl

end State.Indistinguishable

theorem SameOutcome.of_next {o o' : Host.Outcome State Fault Refusal} {t : State} (h : SameOutcome o o')
    (ho : o = .next t) : ∃ t', o' = .next t' ∧ State.SameVisible t t' := by
  cases h with
  | next h =>
    cases ho
    exact ⟨_, rfl, h.sameVisible⟩
  | fault f => cases ho
  | refused r => cases ho

theorem SameOutcome.of_fault {o o' : Host.Outcome State Fault Refusal} {f : Fault} (h : SameOutcome o o')
    (ho : o = .fault f) : o' = .fault f := by
  cases h with
  | next h => cases ho
  | fault g => exact ho
  | refused r => cases ho

/-! ### What does not look at the hidden stores -/

/-- An operation that neither reads nor writes a hidden store. -/
def Oblivious (f : State → State) : Prop := ∀ (h : HiddenStores) (s : State), f (s.withStores h) = (f s).withStores h

/-- An oblivious operation leaves the hidden stores as they are. -/
theorem Oblivious.hidden {f : State → State} (hf : Oblivious f) (s : State) : (f s).hidden = s.hidden :=
  calc (f s).hidden = (f (s.withStores s.hidden)).hidden := rfl
    _ = s.hidden := by rw [hf s.hidden s]; rfl

/-- An oblivious operation keeps two states indistinguishable. -/
theorem Oblivious.indistinguishable {f : State → State} (hf : Oblivious f) {s t : State}
    (h : State.Indistinguishable s t) : State.Indistinguishable (f s) (f t) := by
  obtain ⟨h, hs, hh⟩ := h
  rw [hf h s]
  exact .intro _ h (by rwa [hf.hidden s]) hh

theorem oblivious_failWith (e : CmdError) : Oblivious (State.failWith e) := fun _ _ => rfl

theorem oblivious_completeOk : Oblivious State.completeOk := fun _ _ => rfl

theorem oblivious_grayEffect (g : Geometry) : Oblivious (grayEffect g) := fun _ _ => rfl

theorem oblivious_storeReg (r : Reg) (v : Word) : Oblivious (State.storeReg r v) := by
  intro h s; cases r <;> rfl

theorem oblivious_writeReg (r : Reg) (v : Word) : Oblivious (State.writeReg r v) := by
  intro h s
  have hbusy : (s.withStores h).status.busy = s.status.busy := rfl
  simp only [State.writeReg, oblivious_storeReg r v h s, hbusy]
  split <;> rfl

theorem oblivious_hostWrite (w : Width) (o : Nat) (v : Word) : Oblivious (State.hostWrite w o v) := by
  intro h s
  have hreach : (s.withStores h).reach w o = s.reach w o := rfl
  simp only [State.hostWrite, hreach]
  split
  · exact oblivious_writeReg _ v h s
  all_goals rfl

theorem oblivious_hostRead (w : Width) (o : Nat) : Oblivious fun s => (s.hostRead w o).2 := by
  intro h s
  have hreach : (s.withStores h).reach w o = s.reach w o := rfl
  simp only [State.hostRead, hreach]
  split <;> rfl

/-- The value a HOST read returns comes from no hidden store. -/
theorem hostRead_value {s t : State} (h : State.Indistinguishable s t) (w : Width) (o : Nat) :
    (t.hostRead w o).1 = (s.hostRead w o).1 := by
  obtain ⟨h, -, -⟩ := h
  have hreach : (s.withStores h).reach w o = s.reach w o := rfl
  simp only [State.hostRead, hreach]
  split
  · next r _ => cases r <;> rfl
  all_goals rfl

theorem oblivious_warmReset : Oblivious State.warmReset := by
  intro h s
  have hbusy : (s.withStores h).status = s.status := rfl
  unfold State.warmReset
  rw [hbusy]
  split <;> rfl

/-! ### HOST's turn -/

/-- A move of HOST, the same on both sides. -/
theorem Indistinguishable_host {s t : State} (h : State.Indistinguishable s t) {a b : HostAgent} (hab : b = a) :
    State.Indistinguishable { s with host := a } { t with host := b } := by
  subst hab
  exact Oblivious.indistinguishable (f := fun s => { s with host := b }) (fun _ _ => rfl) h

theorem hostBranch_sameOutcome (l : Label) {s t : State} (h : State.Indistinguishable s t) :
    SameOutcome (s.hostBranch l) (t.hostBranch l) := by
  simp only [State.hostBranch, h.host]
  split
  · exact .next (Indistinguishable_host h rfl)
  · exact .fault _

/-- A statement of HOST's script is an access that does not look at the hidden stores, and a move of HOST, or a move of
HOST alone. -/
theorem hostStmt_sameOutcome (st : Stmt) {s t : State} (h : State.Indistinguishable s t) :
    SameOutcome (s.hostStmt st) (t.hostStmt st) := by
  have hadvance : t.host.advance = s.host.advance := congrArg HostAgent.advance h.host
  cases st with
  | wr w a v =>
    simp only [State.hostStmt, h.params]
    split
    · exact .next (Indistinguishable_host ((oblivious_hostWrite w _ v).indistinguishable h) hadvance)
    · exact .fault _
  | rd w a x =>
    simp only [State.hostStmt, h.params]
    split
    · next o _ =>
      exact .next (Indistinguishable_host ((oblivious_hostRead w o).indistinguishable h)
        (by rw [hostRead_value h, h.host]))
    · exact .fault _
  | label l => exact .next (Indistinguishable_host h hadvance)
  | bnz x m l =>
    simp only [State.hostStmt, h.host]
    split
    · exact hostBranch_sameOutcome l h
    · exact .next (Indistinguishable_host h rfl)
  | branch l => exact hostBranch_sameOutcome l h
  | halt => exact .next (Indistinguishable_host h (by rw [h.host]))

theorem hostTurn_sameOutcome {s t : State} (h : State.Indistinguishable s t) : SameOutcome s.hostTurn t.hostTurn := by
  simp only [State.hostTurn, h.host]
  split
  · exact hostStmt_sameOutcome _ h
  · exact .next h

/-! ### BLUR and MEDIAN: the samples of a channel come from the samples of that channel -/

/-- A raster written to a memory is determined by the samples then read. -/
theorem writeBytes_raster_congr {m : Memory} {a w h c : Nat} {f f' : Nat → Nat → Nat → Byte}
    (hff : ∀ y x ch, y < h → x < w → ch < c →
      (m.writeBytes a (raster w h c f)).read (a + sampleIndex w c y x ch) =
        (m.writeBytes a (raster w h c f')).read (a + sampleIndex w c y x ch)) :
    m.writeBytes a (raster w h c f) = m.writeBytes a (raster w h c f') := by
  refine congrArg _ (raster_congr fun y x ch hy hx hc => ?_)
  rw [← read_writeBytes_raster m a f hy hx hc, hff y x ch hy hx hc, read_writeBytes_raster m a f' hy hx hc]

/-- BLUR reads of SCRATCH and KT only what it has written. -/
theorem imem_blurEffect_withStores (g : Geometry) (sg : F32) (r : Nat) (h : HiddenStores) (s : State) :
    (blurEffect g sg r (s.withStores h)).imem = (blurEffect g sg r s).imem :=
  writeBytes_raster_congr (m := s.imem) fun y x _ hy hx hc =>
    blurEffect_sameChannel (s := s) (t := s.withStores h) hc (fun _ _ _ _ => rfl) sg r y x hy hx

/-- MEDIAN reads of SCRATCH and HIST only what it has written. -/
theorem imem_medianEffect_withStores (g : Geometry) (r : Nat) (h : HiddenStores) (s : State) :
    (medianEffect g r (s.withStores h)).imem = (medianEffect g r s).imem :=
  writeBytes_raster_congr (m := s.imem) fun y x _ hy hx hc =>
    medianEffect_sameChannel (s := s) (t := s.withStores h) hc (fun _ _ _ _ => rfl) r y x hy hx

/-! ### EDGES: the sweep reads a row slot only after it has produced a row there (R158) -/

/-- Two pairs of row buffers hold the same in the slots of the rows below `i`. -/
def RowBuffers.AgreeBelow (i : Nat) (b b' : RowBuffers) : Prop :=
  ∀ j, j < i → b.dxb.getD (j % 3) [] = b'.dxb.getD (j % 3) [] ∧ b.dyb.getD (j % 3) [] = b'.dyb.getD (j % 3) []

theorem RowBuffers.Ok.length {b : RowBuffers} (h : b.Ok) : b.dxb.length = 3 ∧ b.dyb.length = 3 := by
  obtain ⟨hx, hy⟩ := h
  simp only [rowBufferOk, Bool.and_eq_true, decide_eq_true_eq] at hx hy
  exact ⟨hx.1, hy.1⟩

/-- A slot of a three-slot buffer after a row was stored in one. -/
theorem getD_set_slot {rows : List (List (BitVec 16))} (h : rows.length = 3) (i j : Nat) (row : List (BitVec 16)) :
    (rows.set (i % 3) row).getD (j % 3) [] = if i % 3 = j % 3 then row else rows.getD (j % 3) [] := by
  have hlt : i % 3 < rows.length := by omega
  simp only [List.getD_eq_getElem?_getD, List.getElem?_set, hlt, if_true]
  split <;> rfl

/-- Producing row `i` on both sides makes them agree on row `i` too. -/
theorem agreeBelow_produce (gr : Nat → Nat → Byte) (w h i : Nat) {b b' : RowBuffers} (hb : b.Ok) (hb' : b'.Ok)
    (hag : b.AgreeBelow i b') : (b.produce gr w h i).AgreeBelow (i + 1) (b'.produce gr w h i) := by
  intro j hj
  simp only [RowBuffers.produce, getD_set_slot hb.length.1, getD_set_slot hb.length.2, getD_set_slot hb'.length.1,
    getD_set_slot hb'.length.2]
  by_cases hij : i % 3 = j % 3
  · simp only [hij, if_true, and_self]
  · simp only [hij, if_false]
    exact hag j (by have : i ≠ j := fun e => hij (congrArg (· % 3) e); omega)

theorem slotCell_congr {rows rows' : List (List (BitVec 16))} {i : Nat}
    (h : rows.getD (i % 3) [] = rows'.getD (i % 3) []) (x : Nat) : slotCell rows i x = slotCell rows' i x := by
  rw [slotCell, h, slotCell]

/-- An output row comes from the slots of its own row and of the rows above and below it (R158, R159). -/
theorem outputRow_congr {w h i o : Nat} {b b' : RowBuffers} (hag : b.AgreeBelow i b') (ho : o < i)
    (hup : clampIndex (o - 1) h < i) (hdown : clampIndex (o + 1) h < i) : b.outputRow w h o = b'.outputRow w h o := by
  have hgx (x : Nat) : b.gx h o x = b'.gx h o x := by
    simp only [RowBuffers.gx, slotCell_congr (hag _ ho).1, slotCell_congr (hag _ hup).1,
      slotCell_congr (hag _ hdown).1]
  have hgy (x : Nat) : b.gy w o x = b'.gy w o x := by
    simp only [RowBuffers.gy, slotCell_congr (hag _ ho).2]
  simp only [RowBuffers.outputRow, hgx, hgy]

/-- The rows that become computable with row `i` need no row past it. -/
theorem rowsReady_needs {h i o : Nat} (ho : o ∈ rowsReady h i) :
    o < i + 1 ∧ clampIndex (o - 1) h < i + 1 ∧ clampIndex (o + 1) h < i + 1 := by
  have hcase : (1 ≤ i ∧ o = i - 1) ∨ (i + 1 = h ∧ o = i) := by
    simp only [rowsReady, List.mem_append] at ho
    refine ho.imp (fun ho => ?_) (fun ho => ?_) <;> split at ho <;> simp_all
  simp only [clampIndex, clamp]
  omega

/-- The sweep emits the same rows from any two buffers. -/
theorem sobelSweep_congr (gr : Nat → Nat → Byte) {w h : Nat} (n i : Nat) {b b' : RowBuffers} (hb : b.Ok)
    (hb' : b'.Ok) (hag : b.AgreeBelow i b') :
    (sobelSweep gr w h n i b).2 = (sobelSweep gr w h n i b').2 := by
  induction n generalizing i b b' with
  | zero => rfl
  | succ n ih =>
    have hag' := agreeBelow_produce gr w h i hb hb' hag
    have hrows : (rowsReady h i).map ((b.produce gr w h i).outputRow w h) =
        (rowsReady h i).map ((b'.produce gr w h i).outputRow w h) :=
      List.map_congr_left fun o ho => by
        obtain ⟨h1, h2, h3⟩ := rowsReady_needs ho
        exact outputRow_congr hag' h1 h2 h3
    have hrest := ih (i + 1) (produce_ok gr w h i b hb.1 hb.2) (produce_ok gr w h i b' hb'.1 hb'.2) hag'
    simp only [sobelSweep, hrows, hrest]

/-- `G[y][x]` read back from SCRATCH right after the reduction (R151). -/
theorem scratchGray_grayInScratch (s : State) (g : Geometry) {y x : Nat} (hy : y < g.h) (hx : x < g.w) :
    scratchGray (s.grayInScratch g) g.w y x = s.reducePixel g y x := by
  have h := read_writeBytes_raster s.scratch 0 (c := 1) (ch := 0) (fun y x _ => s.reducePixel g y x) hy hx Nat.one_pos
  rwa [sampleIndex, Nat.mul_one, Nat.zero_add] at h

/-- A derivative row is made of samples inside the image: every index of a sample is clamped (R152). -/
theorem produce_congr {gr gr' : Nat → Nat → Byte} {w h : Nat} (hw : 0 < w) (hh : 0 < h)
    (hgr : ∀ y x, y < h → x < w → gr y x = gr' y x) (i : Nat) (b : RowBuffers) :
    b.produce gr w h i = b.produce gr' w h i := by
  have hclamped (i j : Int) : clampedSample gr w h i j = clampedSample gr' w h i j :=
    hgr _ _ (clampIndex_lt hh i) (clampIndex_lt hw j)
  simp only [RowBuffers.produce, derivativeRow, sobelDx, sobelDy, hclamped]

/-- The sweep reads the image inside its bounds only. -/
theorem sobelSweep_image_congr {gr gr' : Nat → Nat → Byte} {w h : Nat} (hw : 0 < w) (hh : 0 < h)
    (hgr : ∀ y x, y < h → x < w → gr y x = gr' y x) (n i : Nat) (b : RowBuffers) :
    sobelSweep gr w h n i b = sobelSweep gr' w h n i b := by
  induction n generalizing i b with
  | zero => rfl
  | succ n ih => simp only [sobelSweep, produce_congr hw hh hgr, ih]

/-- EDGES reads of SCRATCH, DXB and DYB only what it has written. -/
theorem imem_edgesEffect_withStores {g : Geometry} (hw : 0 < g.w) (hh : 0 < g.h) {h : HiddenStores} {s : State}
    (hs : s.hidden.rows.Ok) (hr : h.rows.Ok) : (edgesEffect g (s.withStores h)).imem = (edgesEffect g s).imem := by
  have hgray (y x : Nat) (hy : y < g.h) (hx : x < g.w) :
      scratchGray ((s.withStores h).grayInScratch g) g.w y x = scratchGray (s.grayInScratch g) g.w y x := by
    rw [scratchGray_grayInScratch _ g hy hx, scratchGray_grayInScratch _ g hy hx]
    rfl
  have hsweep : (sobelSweep (scratchGray ((s.withStores h).grayInScratch g) g.w) g.w g.h g.h 0 h.rows).2 =
      (sobelSweep (scratchGray (s.grayInScratch g) g.w) g.w g.h g.h 0 s.hidden.rows).2 := by
    rw [sobelSweep_image_congr hw hh hgray]
    exact sobelSweep_congr _ g.h 0 hr hs fun j hj => absurd hj (Nat.not_lt_zero j)
  exact congrArg (fun rows => s.imem.writeBytes g.base rows.flatten) hsweep

/-! ### ENGINE's turn -/

/-- Where two states differ outside IMEM in the hidden stores only, equal IMEM makes them the same to HOST. -/
theorem sameVisible_of_imem {s t : State} (h : State.SameVisible { s with imem := t.imem } t) (hm : t.imem = s.imem) :
    State.SameVisible s t := by
  rwa [hm] at h

theorem blurEffect_indistinguishable (g : Geometry) (sg : F32) (r : Nat) {s t : State}
    (h : State.Indistinguishable s t) : State.Indistinguishable (blurEffect g sg r s) (blurEffect g sg r t) := by
  obtain ⟨h, hs, hh⟩ := h
  exact .of_sameVisible (sameVisible_of_imem rfl (imem_blurEffect_withStores g sg r h s)) hs hh

theorem medianEffect_indistinguishable (g : Geometry) (r : Nat) {s t : State} (h : State.Indistinguishable s t) :
    State.Indistinguishable (medianEffect g r s) (medianEffect g r t) := by
  obtain ⟨h, hs, hh⟩ := h
  exact .of_sameVisible (sameVisible_of_imem rfl (imem_medianEffect_withStores g r h s)) hs hh

theorem edgesEffect_indistinguishable {g : Geometry} (hw : 0 < g.w) (hh : 0 < g.h) {s t : State}
    (h : State.Indistinguishable s t) : State.Indistinguishable (edgesEffect g s) (edgesEffect g t) := by
  obtain ⟨h, hs, hr⟩ := h
  exact .of_sameVisible (sameVisible_of_imem rfl (imem_edgesEffect_withStores hw hh hs hr))
    (sobelSweep_ok _ _ _ _ _ _ hs.1 hs.2) (sobelSweep_ok _ _ _ _ _ _ hr.1 hr.2)

theorem failWith_sameOutcome (e : CmdError) {s t : State} (h : State.Indistinguishable s t) :
    SameOutcome (.next (s.failWith e)) (.next (t.failWith e)) :=
  .next ((oblivious_failWith e).indistinguishable h)

theorem completeOk_sameOutcome {s t : State} (h : State.Indistinguishable s t) :
    SameOutcome (.next s.completeOk) (.next t.completeOk) :=
  .next (oblivious_completeOk.indistinguishable h)

theorem blurRun_sameOutcome (g : Geometry) (sg : F32) {s t : State} (h : State.Indistinguishable s t) :
    SameOutcome (.next (blurRun g sg s)) (.next (blurRun g sg t)) := by
  simp only [blurRun, h.params]
  split
  · exact failWith_sameOutcome _ h
  · split
    · exact failWith_sameOutcome _ h
    · split
      · exact failWith_sameOutcome _ h
      · exact completeOk_sameOutcome (blurEffect_indistinguishable g sg _ h)

/-- A command takes the same course from both states: its checks read the parameters and the latch only. -/
theorem exec_sameOutcome (i : Instr) {s t : State} (h : State.Indistinguishable s t) :
    SameOutcome (exec i s) (exec i t) := by
  cases i with
  | blur =>
    have hchecks (g : Geometry) : geometryError t.params g = geometryError s.params g := by rw [h.params]
    have hgeometry : t.latch.geometry = s.latch.geometry := congrArg Latch.geometry h.latch
    have hsigma : t.latch.sigma = s.latch.sigma := congrArg Latch.sigma h.latch
    simp only [exec, execBlur, hchecks, hgeometry, hsigma]
    split
    · exact failWith_sameOutcome _ h
    · split
      · exact failWith_sameOutcome _ h
      · split
        · exact completeOk_sameOutcome
            (Oblivious.indistinguishable (f := fun s => { s with kradius := 0#32 }) (fun _ _ => rfl) h)
        · exact blurRun_sameOutcome _ _ h
  | edges =>
    simp only [exec, execEdges, h.params, h.latch]
    split
    · exact failWith_sameOutcome _ h
    · next hg =>
      obtain ⟨hw, hh, -⟩ := (geometryError_eq_none_iff _ _).1 hg
      split
      · exact failWith_sameOutcome _ h
      · exact completeOk_sameOutcome (edgesEffect_indistinguishable hw hh h)
  | median =>
    simp only [exec, execMedian, h.params, h.latch]
    split
    · exact failWith_sameOutcome _ h
    · split
      · exact completeOk_sameOutcome h
      · split
        · exact failWith_sameOutcome _ h
        · exact completeOk_sameOutcome (medianEffect_indistinguishable _ _ h)
  | gray =>
    simp only [exec, execGray, h.params, h.latch]
    split
    · exact failWith_sameOutcome _ h
    · exact completeOk_sameOutcome ((oblivious_grayEffect _).indistinguishable h)

theorem engineStep_sameOutcome {s t : State} (h : State.Indistinguishable s t) :
    SameOutcome s.engineStep t.engineStep := by
  simp only [State.engineStep, h.latch]
  split
  · exact exec_sameOutcome _ h
  · exact failWith_sameOutcome _ h

/-! ### A step and a run -/

/-- After a power-on the hidden stores are equal too (R53; log 8). -/
theorem powerOnReset_indistinguishable {s t : State} (h : State.Indistinguishable s t) :
    State.Indistinguishable s.powerOnReset t.powerOnReset := by
  obtain ⟨h, -, -⟩ := h
  exact .intro s.powerOnReset s.powerOnReset.hidden ⟨rfl, rfl⟩ ⟨rfl, rfl⟩

theorem takeTurn_sameOutcome (u : Turn) {s t : State} (h : State.Indistinguishable s t) :
    SameOutcome (s.takeTurn u) (t.takeTurn u) := by
  cases u with
  | host => exact hostTurn_sameOutcome h
  | engine =>
    simp only [State.takeTurn, State.engineTurn, h.status]
    split
    · exact engineStep_sameOutcome h
    · exact .next h
  | reset => exact .next (oblivious_warmReset.indistinguishable h)
  | powerOn => exact .next (powerOnReset_indistinguishable h)

/-- The schedule and the phase name the turn, and neither is hidden. -/
theorem step_sameOutcome {s t : State} (h : State.Indistinguishable s t) : SameOutcome (step s) (step t) := by
  cases hsched : s.sched with
  | nil =>
    have hturn : t.defaultTurn = s.defaultTurn := by simp only [State.defaultTurn, h.status]
    rw [step_of_sched_nil hsched, step_of_sched_nil (h.sched.trans hsched), hturn]
    exact takeTurn_sameOutcome _ h
  | cons u ts =>
    rw [step_of_sched_cons hsched, step_of_sched_cons (h.sched.trans hsched)]
    exact takeTurn_sameOutcome u
      (Oblivious.indistinguishable (f := fun s => { s with sched := ts }) (fun _ _ => rfl) h)

theorem run_sameOutcome (n : Nat) {s t : State} (h : State.Indistinguishable s t) :
    SameOutcome (Host.Core.run core n s) (Host.Core.run core n t) := by
  induction n generalizing s t with
  | zero => exact .next h
  | succ n ih =>
    have hstep : SameOutcome (core.step s) (core.step t) := step_sameOutcome h
    simp only [Host.Core.run]
    generalize core.step s = o at hstep ⊢
    generalize core.step t = o' at hstep ⊢
    cases hstep with
    | next h' => exact ih h'
    | fault f => exact .fault f
    | refused r => exact .refused r

/-- Settles O58, by the run of two indistinguishable machines. -/
theorem hiddenStoresAreNeverObservable : Obligations.HiddenStoresAreNeverObservable := by
  intro n s scratch kt hist dxb dyb hsx hsy hx hy
  have hrun := run_sameOutcome n
    (.intro s { scratch := scratch, kt := kt, hist := hist, rows := { dxb := dxb, dyb := dyb } } ⟨hsx, hsy⟩ ⟨hx, hy⟩)
  exact ⟨fun t => hrun.of_next, fun f => hrun.of_fault⟩

end Sys2Proof.Machine
end

section
/-! PROOFS. What a command may change, store by store and byte by byte (spec/20_memory.md R67, spec/10_state.md R37 and
R40). -/

namespace Sys2Proof.Machine

/-- What command `i` may change between the states before and after it: STATUS, its own hidden stores, IMG_CHANNELS,
KRADIUS and the bytes of its output range. -/
structure CommandFrame (i : Instr) (s t : State) : Prop where
  rest : t = { s with
    status := t.status, imgChannels := t.imgChannels, kradius := t.kradius, imem := t.imem,
    scratch := t.scratch, kt := t.kt, hist := t.hist, dxb := t.dxb, dyb := t.dyb }
  imgChannels : t.imgChannels = s.imgChannels ∨ ((i = .edges ∨ i = .gray) ∧ t.imgChannels = 1#32)
  kradius : t.kradius = s.kradius ∨ i = .blur
  scratch : t.scratch = s.scratch ∨ i = .blur ∨ i = .edges ∨ i = .median
  kt : t.kt = s.kt ∨ i = .blur
  hist : t.hist = s.hist ∨ i = .median
  rows : (t.dxb = s.dxb ∧ t.dyb = s.dyb) ∨ i = .edges
  region : (i = .blur ∨ i = .median) → ∀ a,
    (a < s.latch.base.toNat ∨ s.latch.base.toNat + s.latch.w.toNat * s.latch.h.toNat * s.latch.c.toNat ≤ a) →
      t.imem.read a = s.imem.read a
  plane : (i = .edges ∨ i = .gray) → ∀ a,
    (a < s.latch.base.toNat ∨ s.latch.base.toNat + s.latch.w.toNat * s.latch.h.toNat ≤ a) →
      t.imem.read a = s.imem.read a

/-- A completion that writes STATUS only is in every command's frame. -/
theorem CommandFrame.of_status (i : Instr) {s t : State} (h : t = { s with status := t.status }) :
    CommandFrame i s t := by
  rw [h]
  exact ⟨rfl, .inl rfl, .inl rfl, .inl rfl, .inl rfl, .inl rfl, .inl ⟨rfl, rfl⟩, fun _ _ _ => rfl, fun _ _ _ => rfl⟩

theorem frame_blurNoOp (s : State) : CommandFrame .blur s ({ s with kradius := 0#32 } : State).completeOk :=
  ⟨rfl, .inl rfl, .inr rfl, .inl rfl, .inl rfl, .inl rfl, .inl ⟨rfl, rfl⟩, fun _ _ _ => rfl, fun _ _ _ => rfl⟩

/-- A write of as many bytes as an image region or plane has leaves every byte outside it. -/
theorem read_writeBytes_of_length (m : Memory) {b n a : Nat} {bs : List Byte} (hn : bs.length = n)
    (ha : a < b ∨ b + n ≤ a) : (m.writeBytes b bs).read a = m.read a :=
  read_writeBytes_outside m b bs a (hn ▸ ha)

theorem frame_blurEffect (sg : F32) (r : Nat) (s : State) :
    CommandFrame .blur s (blurEffect s.latch.geometry sg r s).completeOk :=
  ⟨rfl, .inl rfl, .inr rfl, .inr (.inl rfl), .inr rfl, .inl rfl, .inl ⟨rfl, rfl⟩,
    fun _ _ ha => read_writeBytes_of_length _ (by
      rw [length_verticalPass, Nat.mul_comm s.latch.geometry.h]; rfl) ha, by simp⟩

theorem frame_medianEffect (r : Nat) (s : State) :
    CommandFrame .median s (medianEffect s.latch.geometry r s).completeOk :=
  ⟨rfl, .inl rfl, .inl rfl, .inr (.inr (.inr rfl)), .inl rfl, .inr rfl, .inl ⟨rfl, rfl⟩,
    fun _ _ ha => read_writeBytes_of_length _ (by
      rw [length_raster, Nat.mul_comm s.latch.geometry.h]; rfl) ha, by simp⟩

theorem frame_edgesEffect (s : State) : CommandFrame .edges s (edgesEffect s.latch.geometry s).completeOk :=
  ⟨rfl, .inr ⟨.inl rfl, rfl⟩, .inl rfl, .inr (.inr (.inl rfl)), .inl rfl, .inl rfl, .inr rfl, by simp,
    fun _ _ ha => read_writeBytes_of_length _ (by rw [length_edgesOutput, Nat.mul_comm]; rfl) ha⟩

theorem frame_grayEffect (s : State) : CommandFrame .gray s (grayEffect s.latch.geometry s).completeOk :=
  ⟨rfl, .inr ⟨.inr rfl, rfl⟩, .inl rfl, .inl rfl, .inl rfl, .inl rfl, .inl ⟨rfl, rfl⟩, by simp,
    fun _ _ ha => read_writeBytes_of_length _ (by rw [length_grayImage, Nat.mul_comm]; rfl) ha⟩

theorem frame_blurRun (sg : F32) (s : State) : CommandFrame .blur s (blurRun s.latch.geometry sg s) := by
  obtain ⟨e, -⟩ | ⟨r, -, -, ⟨-, e⟩ | ⟨-, e⟩⟩ := blurRun_cases s.latch.geometry sg s <;> rw [e]
  · exact .of_status _ rfl
  · exact .of_status _ rfl
  · exact frame_blurEffect sg r s

/-- Whichever of its completions a command ends in, it stays in its frame. -/
theorem exec_frame {i : Instr} {s t : State} (h : exec i s = .next t) : CommandFrame i s t := by
  cases i with
  | blur =>
    obtain ⟨_, -, e⟩ | ⟨-, _, -, e⟩ | ⟨-, -, -, e⟩ | ⟨-, -, -, e⟩ := execBlur_cases s <;> cases e.symm.trans h
    · exact .of_status _ rfl
    · exact .of_status _ rfl
    · exact frame_blurNoOp s
    · exact frame_blurRun _ s
  | edges =>
    obtain ⟨_, -, e⟩ | ⟨-, -, e⟩ | ⟨-, -, e⟩ := execEdges_cases s <;> cases e.symm.trans h
    · exact .of_status _ rfl
    · exact .of_status _ rfl
    · exact frame_edgesEffect s
  | median =>
    obtain ⟨_, -, e⟩ | ⟨-, -, e⟩ | ⟨-, -, -, e⟩ | ⟨-, -, -, e⟩ := execMedian_cases s <;> cases e.symm.trans h
    · exact .of_status _ rfl
    · exact .of_status _ rfl
    · exact .of_status _ rfl
    · exact frame_medianEffect _ s
  | gray =>
    obtain ⟨_, -, e⟩ | ⟨-, e⟩ := execGray_cases s <;> cases e.symm.trans h
    · exact .of_status _ rfl
    · exact frame_grayEffect s

/-- Settles O10: the frame of a command, clause by clause. -/
theorem commandsChangeOnlyTheirOutputs : Obligations.CommandsChangeOnlyTheirOutputs := by
  intro i s t h
  obtain ⟨rest, imgChannels, kradius, scratch, kt, hist, rows, region, plane⟩ := exec_frame h
  exact ⟨rest, imgChannels, kradius, scratch, kt, hist, rows, region, plane⟩

end Sys2Proof.Machine
end

section
/-! PROOFS. The byte order of an IMEM access (spec/20_memory.md R62, R63). -/

namespace Sys2Proof.Machine

/-- Bytes assembled little-endian, as a sum over their places. -/
theorem bytesToNat_map_range (f : Nat → Byte) (n : Nat) :
    bytesToNat ((List.range n).map f) = ((List.range n).map fun i => (f i).toNat * 2 ^ (8 * i)).sum := by
  induction n generalizing f with
  | zero => rfl
  | succ n ih =>
    rw [List.range_succ_eq_map, List.map_cons, List.map_map, bytesToNat, ih, ← List.sum_map_mul_left]
    simp only [List.map_cons, List.map_map, List.sum_cons, Function.comp_def, Nat.succ_eq_add_one, Nat.mul_zero,
      Nat.pow_zero, Nat.mul_one, Nat.mul_add, Nat.pow_add]
    congr 3
    funext i
    ring

/-- The low bytes of a word, assembled again, are the word modulo their width. -/
theorem bytesToNat_wordBytes (n : Nat) (v : Word) : bytesToNat (wordBytes n v) = v.toNat % 2 ^ (8 * n) := by
  rw [wordBytes, bytesToNat_map_range]
  induction n with
  | zero => simp [Nat.mod_one]
  | succ n ih =>
    rw [List.range_succ, List.map_append, List.sum_append, ih, Nat.mul_succ, Nat.pow_add, Nat.mod_mul]
    simp [Nat.shiftRight_eq_div_pow, Nat.mul_comm]

/-- The bytes just written are read back. -/
theorem readBytes_writeBytes (m : Memory) (a : Nat) (bs : List Byte) :
    (m.writeBytes a bs).readBytes a bs.length = bs := by
  refine List.ext_getElem (by simp) fun i hi hi' => ?_
  simp only [Memory.readBytes, List.getElem_map, List.getElem_range, read_writeBytes_of_lt m a bs i hi']

/-- `MemRead` after `MemWrite` at the same address and width (R62). -/
theorem memRead_memWrite (m : Memory) (a n : Nat) (v : Word) :
    (m.memWrite a n v).memRead a n = BitVec.ofNat 32 (v.toNat % 2 ^ (8 * n)) := by
  have h : (m.memWrite a n v).readBytes a n = wordBytes n v := by
    simpa [Memory.memWrite] using readBytes_writeBytes m a (wordBytes n v)
  rw [Memory.memRead, h, bytesToNat_wordBytes]

/-- Byte `i` of a word at the address it was written to (R62). -/
theorem read_memWrite_of_lt (m : Memory) (a : Nat) {n i : Nat} (v : Word) (hi : i < n) :
    (m.memWrite a n v).read (a + i) = v.extractLsb' (8 * i) 8 := by
  rw [Memory.memWrite, read_writeBytes_of_lt m a _ i (by simpa using hi)]
  simp [wordBytes]

/-- Settles O45: with BUSY = 0 the access reaches IMEM, and the laws of `MemWrite` and `MemRead` say the rest. -/
theorem imemAccessesAreLittleEndian : Obligations.ImemAccessesAreLittleEndian := by
  intro s w a v hb ha hlt
  have hreach : s.reach w (0x01000000 + a) = .memory a := reach_memory s hb ha hlt
  have hread : s.imem.memRead a w.bytes =
      BitVec.ofNat 32 ((List.range w.bytes).map fun i => (s.imem.read (a + i)).toNat * 2 ^ (8 * i)).sum := by
    rw [Memory.memRead, Memory.readBytes, bytesToNat_map_range]
  refine ⟨_, hostWrite_memory hreach v, rfl, fun i hi => read_memWrite_of_lt s.imem a v hi, fun b hout => ?_, ?_, ?_⟩
  · exact read_writeBytes_of_length s.imem (length_wordBytes w.bytes v) hout
  · rw [hostRead_memory hreach, hread]
  · have hreach' : ({ s with imem := s.imem.memWrite a w.bytes v } : State).reach w (0x01000000 + a) = .memory a :=
      hreach
    rw [hostRead_memory hreach', memRead_memWrite]

end Sys2Proof.Machine
end

section
/-! PROOFS. The decoder of spec/30_encoding.md R93 as a function of its two fields, and command words (R92, R95). -/

namespace Sys2Proof

/-! ### The fields as numbers (R91) -/

@[simp] theorem toNat_opcodeField (v : Word) : (opcodeField v).toNat = v.toNat % 16 := by
  simp [opcodeField]

@[simp] theorem toNat_mbzField (v : Word) : (mbzField v).toNat = v.toNat / 16 := by
  have := v.isLt
  rw [mbzField, BitVec.extractLsb'_toNat, Nat.shiftRight_eq_div_pow]
  omega

/-- MBZ is zero exactly in the words below 16. -/
theorem mbzField_eq_zero_iff (v : Word) : mbzField v = 0#28 ↔ v.toNat < 16 := by
  rw [← BitVec.toNat_inj, toNat_mbzField, BitVec.toNat_ofNat]
  omega

/-- The reserved opcodes are 0 and 5 to 15 (R95). -/
theorem opcodeInstr_eq_none_iff (op : BitVec 4) : opcodeInstr op = none ↔ op.toNat = 0 ∨ 5 ≤ op.toNat := by
  revert op
  decide

/-! ### The decoder's three answers (R93) -/

theorem decode_of_reserved {v : Word} (h : opcodeInstr (opcodeField v) = none) :
    decode v = .error .reservedOpcode := by
  simp only [decode, h]

theorem decode_of_opcode {v : Word} {i : Instr} (h : opcodeInstr (opcodeField v) = some i) :
    decode v = if mbzField v = 0#28 then .ok i else .error .mbzSet := by
  simp only [decode, h]

theorem decode_encode (i : Instr) : decode (encode i) = .ok i := by
  rw [decode_of_opcode (i := i) (by simp [opcodeField_encode]), if_pos (mbzField_encode i)]

/-- A decoded word carries the command's opcode and nothing else. -/
theorem fields_of_decode {v : Word} {i : Instr} (h : decode v = .ok i) :
    opcodeField v = instrOpcode i ∧ mbzField v = 0#28 := by
  cases hop : opcodeInstr (opcodeField v) with
  | none => simp [decode_of_reserved hop] at h
  | some j =>
    rw [decode_of_opcode hop] at h
    split at h
    · next hmbz =>
      cases h
      exact ⟨(instrOpcode_of_opcodeInstr hop).symm, hmbz⟩
    · cases h

/-- Settles O2: a word is its two fields, and a decoded word has those of the command's word. -/
theorem onlyTheEncodedWordDecodesToACommand : Obligations.OnlyTheEncodedWordDecodesToACommand := by
  refine fun v i => ⟨fun h => ?_, fun h => h ▸ decode_encode i⟩
  obtain ⟨hop, hmbz⟩ := fields_of_decode h
  rw [← fields_append v, hop, hmbz, encode]

/-- Settles O3: the opcode alone settles the first answer, the number of the word whether MBZ is zero, and each of the
four words left is its command's. -/
theorem decodeChecksOpcodeBeforeMbz : Obligations.DecodeChecksOpcodeBeforeMbz := by
  intro v
  have hword : ∀ i, v.toNat = (encode i).toNat → decode v = .ok i := fun i h =>
    BitVec.eq_of_toNat_eq h ▸ decode_encode i
  refine ⟨fun h => decode_of_reserved ((opcodeInstr_eq_none_iff _).mpr (by simpa using h)), fun h1 h4 h16 => ?_,
    hword .blur, hword .edges, hword .median, hword .gray⟩
  cases hop : opcodeInstr (opcodeField v) with
  | none =>
    rw [opcodeInstr_eq_none_iff, toNat_opcodeField] at hop
    omega
  | some i => rw [decode_of_opcode hop, if_neg (by rw [mbzField_eq_zero_iff]; omega)]

/-- Settles O1: the four words are the encoded commands, and the two illegal words fall under R93's two checks. -/
theorem commandWordsDecodeToTheirCommands : Obligations.CommandWordsDecodeToTheirCommands :=
  ⟨decode_encode .blur, decode_encode .edges, decode_encode .median, decode_encode .gray,
    (decodeChecksOpcodeBeforeMbz _).1 (by decide),
    (decodeChecksOpcodeBeforeMbz _).2.1 (by decide) (by decide) (by decide)⟩

end Sys2Proof
end

section
/-! PROOFS. Host scripts (spec/30_encoding.md R96 to R98): what a statement does in HOST's turn, and the labels that the
expansion of the pseudo-instructions defines. -/

namespace Sys2Proof.Machine

/-! ### Statements (R96) -/

section
variable (s : State) (ts : List Turn) {w : Width} {t : Target} {o : Nat}

/-- A read inside the block, beside the schedule. -/
theorem hostStmt_rd (x : Nat) (ho : t.offset? s.params = some o) :
    ({ s with sched := ts } : State).hostStmt (.rd w t x) =
      .next { (s.hostRead w o).2 with sched := ts, host := (s.host.setVar x (s.hostRead w o).1).advance } := by
  simp only [State.hostStmt, ho, hostRead_sched]

/-- A write inside the block, beside the schedule. -/
theorem hostStmt_wr (v : Word) (ho : t.offset? s.params = some o) :
    ({ s with sched := ts } : State).hostStmt (.wr w t v) =
      .next { s.hostWrite w o v with sched := ts, host := s.host.advance } := by
  simp only [State.hostStmt, ho, hostWrite_sched]

end

/-- An access outside the block is a fault (log 7). -/
theorem hostStmt_outside {s : State} {t : Target} (ho : t.offset? s.params = none) (w : Width) :
    (∀ x, s.hostStmt (.rd w t x) = .fault .outsideBlock) ∧ ∀ v, s.hostStmt (.wr w t v) = .fault .outsideBlock := by
  simp only [State.hostStmt, ho, implies_true, and_self]

theorem hostStmt_bnz_zero {s : State} {x : Nat} {m : Word} (h : s.host.var x &&& m = 0#32) (l : Label) :
    s.hostStmt (.bnz x m l) = .next { s with host := s.host.advance } :=
  if_neg (not_not.mpr h)

theorem hostStmt_bnz_nonzero {s : State} {x : Nat} {m : Word} (h : s.host.var x &&& m ≠ 0#32) (l : Label) :
    s.hostStmt (.bnz x m l) = s.hostBranch l :=
  if_pos h

theorem hostBranch_defined {s : State} {l : Label} {k : Nat} (h : labelPosition l s.host.script = some k) :
    s.hostBranch l = .next { s with host := { s.host with position := k } } := by
  simp [State.hostBranch, HostAgent.jump, h]

/-- A branch to a label the script does not define is a fault (log 6). -/
theorem hostBranch_undefined {s : State} {l : Label} (h : labelPosition l s.host.script = none) :
    s.hostBranch l = .fault .undefinedLabel := by
  simp [State.hostBranch, HostAgent.jump, h]

/-- Settles O48: HOST's turn is the statement it is at, one law per statement; a target's offset is the law of its
kind (R60, R61). -/
theorem hostStatementsFollowTheTable : Obligations.HostStatementsFollowTheTable := by
  intro s ts h Reads Writes
  have hstep : ∀ {st}, s.host.current = some st → step s = ({ s with sched := ts } : State).hostStmt st :=
    step_of_hostStmt h
  have hrd : ∀ {w t o x}, s.host.current = some (.rd w t x) → t.offset? s.params = some o → Reads w o x :=
    fun {w t o x} hc ho => ⟨_, (hstep hc).trans (hostStmt_rd s ts x ho), var_setVar s.host x _,
      fun _ hz => var_setVar_ne s.host _ hz, rfl, rfl, rfl⟩
  have hwr : ∀ {w t o v}, s.host.current = some (.wr w t v) → t.offset? s.params = some o → Writes w o v :=
    fun hc ho => (hstep hc).trans (hostStmt_wr s ts _ ho)
  refine ⟨fun r x hc => hrd hc (offset_reg _ r), fun w o x hc ho => hrd hc (offset_imem _ ho),
    fun w o x hc ho => hrd hc (offset_bus _ ho), fun r v hc => hwr hc (offset_reg _ r),
    fun w o v hc ho => hwr hc (offset_imem _ ho), fun w o v hc ho => hwr hc (offset_bus _ ho),
    fun l hc => hstep hc, fun x m l hc hz => (hstep hc).trans (hostStmt_bnz_zero (s := { s with sched := ts }) hz l),
    fun l hc => ?_, fun w t hc ho => ?_, fun hc => ⟨hstep hc, rfl⟩⟩
  · have hbranch : step s = ({ s with sched := ts } : State).hostBranch l := by
      obtain hc | ⟨x, m, hc, hnz⟩ := hc
      · exact hstep hc
      · exact (hstep hc).trans (hostStmt_bnz_nonzero (s := { s with sched := ts }) hnz l)
    exact ⟨fun k hk => hbranch.trans (hostBranch_defined hk), fun hk => hbranch.trans (hostBranch_undefined hk)⟩
  · have hout : t.offset? s.params = none := by
      obtain ⟨o, rfl, ho⟩ | ⟨addr, rfl, ho⟩ := ho
      · exact offset_imem_outside _ ho
      · exact offset_bus_outside _ ho
    obtain ⟨hread, hwrite⟩ := hostStmt_outside (s := { s with sched := ts }) hout w
    obtain ⟨x, hc⟩ | ⟨v, hc⟩ := hc
    · exact (hstep hc).trans (hread x)
    · exact (hstep hc).trans (hwrite v)

/-! ### Pseudo-instructions (R97, R98) -/

/-- Settles O49: each expansion is its row of the table. -/
theorem pseudoInstructionsExpand : Obligations.PseudoInstructionsExpand :=
  fun _ _ _ _ _ _ _ _ _ => ⟨rfl, rfl, rfl, rfl, rfl, rfl, rfl, rfl, rfl⟩

/-- Whether a label was made by the expansion of a `wait`. -/
def Label.isGenerated : Label → Bool
  | .user _ => false
  | .generated _ => true

@[simp] theorem definedLabels_append (a b : List Stmt) :
    definedLabels (a ++ b) = definedLabels a ++ definedLabels b := by
  induction a with
  | nil => rfl
  | cons st a ih => cases st <;> simp [definedLabels, ih]

@[simp] theorem definedLabels_loadbStmts (o : Nat) (bytes : List Byte) : definedLabels (loadbStmts o bytes) = [] := by
  induction bytes generalizing o with
  | nil => rfl
  | cons b bytes ih => exact ih (o + 1)

/-- A pseudo-instruction generates at most the label of its own number. -/
theorem generated_expandOne (k : Nat) {p : Pseudo} (h : ∀ n, p ≠ .stmt (.label (.generated n))) :
    ((definedLabels (p.expandOne k)).filter Label.isGenerated).Sublist [.generated k] := by
  cases p with
  | wait | blur | edges | median | gray => exact .refl _
  | cmd | image | ack => exact List.nil_sublist _
  | loadb => simp [Pseudo.expandOne]
  | stmt st =>
    cases st with
    | label l =>
      cases l with
      | user => exact List.nil_sublist _
      | generated n => exact absurd rfl (h n)
    | wr | rd | bnz | branch | halt => exact List.nil_sublist _

/-- A script's generated labels are numbered by places of the script, in order. -/
theorem generated_expandFrom (k : Nat) {ps : List Pseudo} (h : ∀ n, Pseudo.stmt (.label (.generated n)) ∉ ps) :
    ((definedLabels (Pseudo.expandFrom k ps)).filter Label.isGenerated).Sublist
      ((List.range' k ps.length).map .generated) := by
  induction ps generalizing k with
  | nil => exact .refl _
  | cons p ps ih =>
    rw [Pseudo.expandFrom, definedLabels_append, List.filter_append]
    exact (generated_expandOne k fun n hp => h n (hp ▸ List.mem_cons_self)).append
      (ih (k + 1) fun n hn => h n (List.mem_cons_of_mem p hn))

/-- Settles O50: places of a script are distinct numbers. -/
theorem waitLabelsAreUniquePerUse : Obligations.WaitLabelsAreUniquePerUse := by
  intro ps h
  have hnodup : ((List.range' 0 ps.length).map Label.generated).Nodup :=
    (List.nodup_range' (step := 1) (by decide)).map fun _ _ => Label.generated.inj
  exact hnodup.sublist (generated_expandFrom 0 h)

end Sys2Proof.Machine
end

section
/-! PROOFS. Which sigmas BLUR turns away, takes as a no-op, or blurs with (spec/40_blur.md R111, R112, R117, R118), what a
completed BLUR leaves (R119 to R122), and the symmetry of its kernel (R116). -/

namespace Sys2Proof.Machine

/-! ### The classes of a sigma pattern (R94, R111, R112) -/

/-- A word with sign bit 0 is the value of its pattern. -/
theorem ofBits_of_lt {v : Word} (h : v.toNat < 2 ^ 31) : F32.ofBits v = F32.ofMagnitude false v.toNat := by
  have hm : v.msb = false := by rw [BitVec.msb_eq_false_iff_two_mul_lt]; omega
  rw [F32.ofBits, hm, Nat.mod_eq_of_lt h]

/-- A word with sign bit 1 is the negated value of its other bits. -/
theorem ofBits_of_ge {v : Word} (h : 2 ^ 31 ≤ v.toNat) : F32.ofBits v = F32.ofMagnitude true (v.toNat % 2 ^ 31) := by
  have hm : v.msb = true := by rw [BitVec.msb_eq_true_iff_two_mul_ge]; omega
  rw [F32.ofBits, hm]

theorem ofMagnitude_finite {neg : Bool} {p : Nat} (h : p < infPattern) :
    F32.ofMagnitude neg p = .fin neg (unitsOfPattern p) := by
  rw [F32.ofMagnitude, if_pos h]

theorem ofMagnitude_nan {neg : Bool} {p : Nat} (h : infPattern < p) : F32.ofMagnitude neg p = .nan := by
  rw [F32.ofMagnitude, if_neg (by omega), if_neg (by omega)]

/-- A finite value is that of a pattern below +infinity. -/
theorem ofMagnitude_eq_fin {s neg : Bool} {p u : Nat} (h : F32.ofMagnitude s p = .fin neg u) :
    p < infPattern ∧ neg = s ∧ u = unitsOfPattern p := by
  rw [F32.ofMagnitude] at h
  split at h
  · next hp => cases h; exact ⟨hp, rfl, rfl⟩
  · split at h <;> cases h

/-- A pattern from +0 to +infinity is a finite value or +infinity. -/
theorem ofBits_nonneg_cases {v : Word} (h : v.toNat ≤ infPattern) :
    (v.toNat < infPattern ∧ F32.ofBits v = .fin false (unitsOfPattern v.toNat)) ∨
      (v.toNat = infPattern ∧ F32.ofBits v = .inf false) := by
  rw [ofBits_of_lt (h.trans_lt (by decide))]
  obtain h | h := h.lt_or_eq
  · exact .inl ⟨h, ofMagnitude_finite h⟩
  · exact .inr ⟨h, by rw [h]; rfl⟩

/-- A word of a finite value, under either sign bit. -/
theorem ofBits_finite {v : Word} {neg : Bool} {u : Nat} (h : F32.ofBits v = .fin neg u) :
    (v.toNat < infPattern ∧ neg = false ∧ u = unitsOfPattern v.toNat) ∨
      (2 ^ 31 ≤ v.toNat ∧ neg = true ∧ u = unitsOfPattern (v.toNat % 2 ^ 31)) := by
  obtain hv | hv := lt_or_ge v.toNat (2 ^ 31)
  · rw [ofBits_of_lt hv] at h
    exact .inl (ofMagnitude_eq_fin h)
  · rw [ofBits_of_ge hv] at h
    exact .inr ⟨hv, (ofMagnitude_eq_fin h).2⟩

/-- The pattern of -0.0. -/
theorem ofBits_negZero {v : Word} (h : v.toNat = 0x80000000) : F32.ofBits v = .fin true 0 := by
  rw [ofBits_of_ge h.ge, h]; rfl

/-- Only the pattern 0 stands for 0 units. -/
theorem unitsOfPattern_pos {p : Nat} (h : 0 < p) : 0 < unitsOfPattern p :=
  (Nat.zero_le _).trans_lt (unitsOfPattern_strictMono h)

/-- `0x3586_37BD` is the largest pattern at or below 10^-6 (R112). -/
theorem unitsOfPattern_le_threshold_iff (p : Nat) : unitsOfPattern p * 10 ^ 6 ≤ 2 ^ 149 ↔ p ≤ 0x358637BD := by
  constructor
  · intro h
    by_contra hp
    have hgt : 2 ^ 149 < unitsOfPattern 0x358637BE * 10 ^ 6 := by decide +kernel
    exact absurd (hgt.trans_le (Nat.mul_le_mul_right _ (unitsOfPattern_strictMono.monotone (not_le.1 hp)))) h.not_gt
  · intro h
    exact (Nat.mul_le_mul_right _ (unitsOfPattern_strictMono.monotone h)).trans (by decide +kernel)

/-- The sigmas at or below the threshold pass the check and are no-ops. -/
theorem sigma_noOp {v : Word} (h : v.toNat ≤ 0x358637BD ∨ v.toNat = 0x80000000) :
    sigmaError (F32.ofBits v) = none ∧ sigmaIsNoOp (F32.ofBits v) = true := by
  obtain h | h := h
  · obtain ⟨-, e⟩ | ⟨e, -⟩ := ofBits_nonneg_cases (h.trans (by decide))
    · rw [e]
      exact ⟨rfl, by simpa [sigmaIsNoOp] using (unitsOfPattern_le_threshold_iff _).2 h⟩
    · rw [e] at h; exact absurd h (by decide)
  · rw [ofBits_negZero h]; exact ⟨rfl, rfl⟩

/-- A negative value, -infinity among them, fails the check (R111). -/
theorem sigmaError_negative {v : Word} (h1 : v.toNat % 2 ^ 31 ≤ infPattern) (h2 : 0x80000000 < v.toNat) :
    sigmaError (F32.ofBits v) = some .sigmaNeg := by
  rw [ofBits_of_ge h2.le]
  obtain h | h := h1.lt_or_eq
  · have hpos := unitsOfPattern_pos (p := v.toNat % 2 ^ 31) (by have := v.isLt; omega)
    rw [ofMagnitude_finite h]
    exact if_neg hpos.ne'
  · rw [h]; rfl

/-- The sigmas past the threshold pass the check and are no no-ops. -/
theorem sigma_pastThreshold {v : Word} (h1 : 0x358637BE ≤ v.toNat) (h2 : v.toNat ≤ 0x7F800000) :
    sigmaError (F32.ofBits v) = none ∧ sigmaIsNoOp (F32.ofBits v) = false := by
  obtain ⟨-, e⟩ | ⟨-, e⟩ := ofBits_nonneg_cases h2
  · rw [e]
    have := (unitsOfPattern_le_threshold_iff v.toNat).not.2 (by omega)
    exact ⟨rfl, by simpa [sigmaIsNoOp] using this⟩
  · rw [e]; exact ⟨rfl, rfl⟩

/-- A word that passes the check and is no no-op is a sigma past the threshold. -/
theorem pastThreshold_of_sigma {v : Word} (he : sigmaError (F32.ofBits v) = none)
    (hn : sigmaIsNoOp (F32.ofBits v) = false) : 0x358637BE ≤ v.toNat ∧ v.toNat ≤ 0x7F800000 := by
  obtain h | h := lt_or_ge v.toNat (2 ^ 31)
  · obtain h' | h' := le_or_gt v.toNat infPattern
    · refine ⟨?_, h'⟩
      by_contra hlt
      rw [(sigma_noOp (.inl (by omega))).2] at hn
      cases hn
    · rw [ofBits_of_lt h, ofMagnitude_nan h'] at he; cases he
  · rw [ofBits_of_ge h, F32.ofMagnitude] at he hn
    split at hn
    · cases hn
    · split at hn
      · cases hn
      · next h1 h2 => rw [if_neg h1, if_neg h2] at he; cases he

/-! ### BLUR after its checks (R110, R198) -/

section
variable {s : State} (hv : s.latch.geometry.Valid s.params)
include hv

theorem execBlur_sigmaError {e : CmdError} (he : sigmaError (F32.ofBits s.latch.sigma) = some e) :
    exec .blur s = .next (s.failWith e) := by
  simp only [exec, execBlur, (geometryError_eq_none_iff _ _).2 hv, he]

theorem execBlur_noOp (h : s.latch.sigma.toNat ≤ 0x358637BD ∨ s.latch.sigma.toNat = 0x80000000) :
    exec .blur s = .next { s with kradius := 0#32 }.completeOk := by
  simp only [exec, execBlur, (geometryError_eq_none_iff _ _).2 hv, (sigma_noOp h).1, (sigma_noOp h).2, if_true]

theorem execBlur_run (h1 : 0x358637BE ≤ s.latch.sigma.toNat) (h2 : s.latch.sigma.toNat ≤ 0x7F800000) :
    exec .blur s = .next (blurRun s.latch.geometry (F32.ofBits s.latch.sigma) s) := by
  have h := sigma_pastThreshold h1 h2
  simp only [exec, execBlur, (geometryError_eq_none_iff _ _).2 hv, h.1, h.2, Bool.false_eq_true, if_false]

end

section
variable {g : Geometry} {sg : F32} {s : State}

theorem blurRun_unbounded (h : kernelRadius sg = none) : blurRun g sg s = s.failWith .kernel := by
  simp only [blurRun, h]

theorem blurRun_kernel {r : Nat} (h : kernelRadius sg = some r) (hr : s.params.kmaxRadius < r) :
    blurRun g sg s = s.failWith .kernel := by
  simp only [blurRun, h, hr, if_true]

theorem blurRun_scratch {r : Nat} (h : kernelRadius sg = some r) (hr : r ≤ s.params.kmaxRadius)
    (hs : s.params.scratchBytes < g.regionBytes) : blurRun g sg s = s.failWith .scratch := by
  simp only [blurRun, h, hr.not_gt, hs, if_false, if_true]

theorem blurRun_effect {r : Nat} (h : kernelRadius sg = some r) (hr : r ≤ s.params.kmaxRadius)
    (hs : g.regionBytes ≤ s.params.scratchBytes) : blurRun g sg s = (blurEffect g sg r s).completeOk := by
  simp only [blurRun, h, hr.not_gt, hs.not_gt, if_false]

end

/-- Settles O16: the two passes of the effect are the written-out convolutions, and the rest is BLUR's frame. -/
theorem blurIsHorizontalThenVerticalPass : Obligations.BlurIsHorizontalThenVerticalPass := by
  intro s r hv h1 h2 hr hk hs W H C base K conv T
  have hexec : exec .blur s = .next (blurEffect s.latch.geometry (F32.ofBits s.latch.sigma) r s).completeOk := by
    rw [execBlur_run hv h1 h2, blurRun_effect hr hk (show s.latch.geometry.regionBytes ≤ _ from hs)]
  refine ⟨_, hexec, fun y x c hy hx hc => ?_, fun y x c hy hx hc => ?_, (exec_frame hexec).region (.inl rfl), ?_, rfl⟩
  · calc _ = conv1 (kernelWeights (F32.ofBits s.latch.sigma) r ++ s.kt.drop (2 * r + 1)) r s.latch.geometry.w
          (fun j => s.sampleIn s.latch.geometry y j c) x :=
        scratchSample_horizontalPass s.scratch s s.latch.geometry _ r hy hx hc
      _ = T y x c := conv1_append (length_kernelWeights _ r) _ _ _ _
  · exact sampleIn_blurEffect s s.latch.geometry _ r hy hx hc
  · exact List.take_left' (length_kernelWeights _ r)

/-- Settles O15: the two capacity checks in their order. -/
theorem blurCapacityErrors : Obligations.BlurCapacityErrors := by
  intro s hv h1 h2
  rw [execBlur_run hv h1 h2]
  refine ⟨fun h => ?_, fun r h => ⟨fun hr => ?_, fun hr hs => ?_⟩⟩
  · rw [blurRun_unbounded h]; rfl
  · rw [blurRun_kernel h hr]; rfl
  · rw [blurRun_scratch h hr (show _ < s.latch.geometry.regionBytes from hs)]; rfl

/-- Settles O13: the threshold lies between two patterns, and the no-op path writes KRADIUS only. -/
theorem blurBelowThresholdIsANoOp : Obligations.BlurBelowThresholdIsANoOp := by
  intro s hv
  refine ⟨fun neg u hu hneg => ?_, fun h => by rw [execBlur_noOp hv h]; rfl⟩
  obtain ⟨hlt, rfl, rfl⟩ | ⟨hge, rfl, rfl⟩ := ofBits_finite hu
  · have := hlt.trans (show infPattern < 0x80000000 by decide)
    rw [unitsOfPattern_le_threshold_iff]
    omega
  · have hzero : s.latch.sigma.toNat % 2 ^ 31 = 0 := by
      by_contra h
      exact (unitsOfPattern_pos (Nat.pos_of_ne_zero h)).ne' (hneg rfl)
    have := s.latch.sigma.isLt
    rw [hneg rfl]
    omega

/-- Settles O12: each class of patterns has its value, and the value its check. -/
theorem blurRejectsNanAndNegativeSigma : Obligations.BlurRejectsNanAndNegativeSigma := by
  intro s hv
  refine ⟨fun h => ?_, fun h1 h2 => ?_, fun h => ?_, fun h => ?_⟩
  · have hnan : F32.ofBits s.latch.sigma = .nan := ofMagnitude_nan h
    rw [execBlur_sigmaError hv (e := .sigmaNan) (by rw [hnan]; rfl)]; rfl
  · rw [execBlur_sigmaError hv (sigmaError_negative h1 h2)]; rfl
  · obtain h | h := h
    · obtain ⟨-, e⟩ | ⟨-, e⟩ := ofBits_nonneg_cases h <;> rw [e] <;> rfl
    · rw [ofBits_negZero h]; rfl
  · rw [execBlur_run hv (by rw [h]; decide) (by rw [h]; decide), blurRun_unbounded (by rw [h]; decide)]; rfl

/-! ### The kernel is symmetric (R116) -/

theorem tapDistance_reflect {r k : Nat} (hk : k ≤ 2 * r) : tapDistance r (2 * r - k) = tapDistance r k := by
  unfold tapDistance; omega

/-- Settles O21: a raw weight depends on the distance from the centre only. -/
theorem kernelIsSymmetric : Obligations.KernelIsSymmetric := by
  intro sigma r k hk
  refine ⟨length_kernelWeights sigma r, ?_⟩
  have hraw : rawWeight sigma r (2 * r - k) = rawWeight sigma r k := by
    rw [rawWeight, tapDistance_reflect hk, rawWeight]
  simp [kernelWeights, rawWeights, hraw, show k < 2 * r + 1 by omega, show 2 * r - k < 2 * r + 1 by omega]

end Sys2Proof.Machine
end

section
/-! PROOFS. What a rounding keeps and how far it moves a value, and from it the error of a binary32 sum of non-negative
terms (spec/00_scope.md R13, spec/40_blur.md R116, R119). -/

namespace Sys2Proof.Machine

/-! ### Binary32 values in units -/

/-- A number of units that a finite pattern stands for. -/
def IsBinary32 (u : Nat) : Prop := ∃ p, p < infPattern ∧ unitsOfPattern p = u

/-- The units of the rounding of `num / den`. -/
def roundUnits (num den : Nat) : Nat := unitsOfPattern (roundPattern num den)

theorem isBinary32_significand {k m : Nat} (hm : m < 2 ^ 24) (hk : k = 0 ∨ 2 ^ 23 ≤ m) (hk' : k ≤ 253) :
    IsBinary32 (m * 2 ^ k) :=
  ⟨k * 2 ^ 23 + m, by rw [infPattern]; omega, unitsOfPattern_significand hm.le hk⟩

theorem isBinary32_two_pow {k : Nat} (hk : k ≤ 276) : IsBinary32 (2 ^ k) := by
  obtain h | h := lt_or_ge k 24
  · simpa using isBinary32_significand (k := 0) (Nat.pow_lt_pow_right (by decide) h) (.inl rfl) (by decide)
  · have := isBinary32_significand (k := k - 23) (m := 2 ^ 23) (by decide) (.inr le_rfl) (by omega)
    rwa [← Nat.pow_add, Nat.add_sub_cancel' (by omega)] at this

/-- The largest finite value (R13). -/
theorem IsBinary32.le_largest {u : Nat} (h : IsBinary32 u) : u ≤ (2 ^ 24 - 1) * 2 ^ 253 := by
  obtain ⟨p, hp, rfl⟩ := h
  calc unitsOfPattern p ≤ unitsOfPattern (253 * 2 ^ 23 + (2 ^ 24 - 1)) :=
        unitsOfPattern_strictMono.monotone (Nat.le_of_lt_succ hp)
    _ = (2 ^ 24 - 1) * 2 ^ 253 := unitsOfPattern_significand (by decide) (.inr (by decide))

/-! ### A rounding is monotone and keeps binary32 values -/

theorem roundPattern_lt_of_le {num den w : Nat} (hd : 0 < den) (hw : IsBinary32 w) (h : num ≤ w * den) :
    roundPattern num den < infPattern := by
  refine lt_of_le_of_ne (by simp only [roundPattern]; omega) fun heq => ?_
  have h1 := (roundPattern_overflow_iff num hd).1 heq
  have h2 := h.trans (Nat.mul_le_mul_right den hw.le_largest)
  omega

theorem round_eq_fin (neg : Bool) {num den : Nat} (h : roundPattern num den < infPattern) :
    F32.round neg num den = .fin neg (roundUnits num den) := round_eq_fin_iff.2 ⟨h, rfl⟩

theorem isBinary32_roundUnits {num den : Nat} (h : roundPattern num den < infPattern) :
    IsBinary32 (roundUnits num den) := ⟨_, h, rfl⟩

/-- No rounding passes a binary32 value from below. -/
theorem roundUnits_le {num den w : Nat} (hd : 0 < den) (hw : IsBinary32 w) (h : num ≤ w * den) :
    roundUnits num den ≤ w := by
  have hlt := roundPattern_lt_of_le hd hw h
  obtain ⟨q, -, rfl⟩ := hw
  have hnear := (roundPattern_nearest hd hlt q).1
  by_contra hgt
  have hmul : unitsOfPattern q * den < roundUnits num den * den := Nat.mul_lt_mul_of_pos_right (not_le.1 hgt) hd
  rw [roundUnits] at hmul
  rw [abs_of_nonpos (by omega), abs_of_nonpos (by omega)] at hnear
  omega

/-- No rounding passes a binary32 value from above. -/
theorem le_roundUnits {num den w : Nat} (hd : 0 < den) (hlt : roundPattern num den < infPattern) (hw : IsBinary32 w)
    (h : w * den ≤ num) : w ≤ roundUnits num den := by
  obtain ⟨q, -, rfl⟩ := hw
  have hnear := (roundPattern_nearest hd hlt q).1
  by_contra hgt
  have hmul : roundUnits num den * den < unitsOfPattern q * den := Nat.mul_lt_mul_of_pos_right (not_le.1 hgt) hd
  rw [roundUnits] at hmul
  rw [abs_of_nonneg (by omega), abs_of_nonneg (by omega)] at hnear
  omega

theorem roundUnits_of_isBinary32 {u : Nat} (h : IsBinary32 u) : roundUnits u 1 = u :=
  le_antisymm (roundUnits_le Nat.one_pos h (by omega))
    (le_roundUnits Nat.one_pos (roundPattern_lt_of_le Nat.one_pos h (by omega)) h (by omega))

/-- A stored pattern reads back as its value (R94). -/
theorem ofBits_toBits {u : Nat} (h : IsBinary32 u) : F32.ofBits (F32.fin false u).toBits = .fin false u := by
  have hlt : roundPattern u 1 < infPattern := roundPattern_lt_of_le Nat.one_pos h (by omega)
  have hp : (F32.fin false u).toBits.toNat = roundPattern u 1 := by
    have : roundPattern u 1 < 2 ^ 31 := hlt.trans (by decide)
    simp only [F32.toBits, BitVec.ofBool_false]
    rw [BitVec.toNat_append]
    simpa using this
  rw [ofBits_of_lt (by rw [hp]; exact hlt.trans (by decide)), hp, ofMagnitude_finite hlt]
  exact congrArg _ (roundUnits_of_isBinary32 h)

/-! ### The rounding error -/

/-- The error is at most half a unit in the last place, which is 1 below `2^24` units, else at most `2^-23` of the
value. -/
theorem abs_roundUnits_sub_le_ulp {num den : Nat} (hd : 0 < den) (h : roundPattern num den < infPattern) :
    ∃ k : Nat, |(roundUnits num den : ℝ) - num / den| ≤ 2 ^ k / 2 ∧ (k = 0 ∨ (2 : ℝ) ^ 23 * 2 ^ k ≤ num / den) := by
  obtain ⟨hup, hlo⟩ := round_error hd (round_eq_fin false h)
  have hd' : (0 : ℝ) < den := by exact_mod_cast hd
  refine ⟨ulpExponent (num / den), ?_, or_iff_not_imp_left.2 fun hk => ?_⟩
  · have hup' : 2 * ((roundUnits num den : ℝ) * den) ≤ 2 * num + den * 2 ^ ulpExponent (num / den) := by
      exact_mod_cast hup
    have hlo' : 2 * (num : ℝ) ≤ 2 * (roundUnits num den * den) + den * 2 ^ ulpExponent (num / den) := by
      exact_mod_cast hlo
    rw [sub_div' hd'.ne', abs_div, abs_of_pos hd', div_le_iff₀ hd', abs_le]
    constructor <;> linarith
  · rw [le_div_iff₀ hd']
    exact_mod_cast ulpExponent_value_le hd hk

/-- Above the subnormals the relative error is at most `2^-24`; a subnormal moves by at most half a unit. -/
theorem abs_roundUnits_sub_le {num den : Nat} (hd : 0 < den) (h : roundPattern num den < infPattern) :
    |(roundUnits num den : ℝ) - num / den| ≤ num / den / 2 ^ 24 + 1 / 2 := by
  obtain ⟨k, he, rfl | hk⟩ := abs_roundUnits_sub_le_ulp hd h
  · have : (0 : ℝ) ≤ (num : ℝ) / den := by positivity
    linarith
  · linarith

/-- The relative error of a value from `2^23` units on. -/
theorem abs_roundUnits_sub_le_of_normal {num den : Nat} (hd : 0 < den) (h : roundPattern num den < infPattern)
    (hn : 2 ^ 23 * den ≤ num) : |(roundUnits num den : ℝ) - num / den| ≤ num / den / 2 ^ 24 := by
  obtain ⟨k, he, rfl | hk⟩ := abs_roundUnits_sub_le_ulp hd h
  · have : (2 : ℝ) ^ 23 ≤ num / den := by
      rw [le_div_iff₀ (by exact_mod_cast hd)]; exact_mod_cast hn
    linarith
  · linarith

/-- The relative error of a whole number of units: below `2^24` it is a binary32 value itself. -/
theorem abs_roundUnits_one_sub_le {n : Nat} (h : roundPattern n 1 < infPattern) :
    |(roundUnits n 1 : ℝ) - n| ≤ n / 2 ^ 24 := by
  obtain hn | hn := lt_or_ge n (2 ^ 24)
  · have : IsBinary32 n := by simpa using isBinary32_significand (k := 0) hn (.inl rfl) (by decide)
    rw [roundUnits_of_isBinary32 this, sub_self, abs_zero]
    positivity
  · simpa using abs_roundUnits_sub_le_of_normal Nat.one_pos h (by omega)

/-- No binary32 value is nearer to the exact value than its rounding. -/
theorem roundUnits_nearest {num den : Nat} (hd : 0 < den) (h : roundPattern num den < infPattern) (q : Nat) :
    |(num : ℝ) / den - roundUnits num den| ≤ |(num : ℝ) / den - unitsOfPattern q| := by
  have hd' : (0 : ℝ) < den := by exact_mod_cast hd
  have hnear : |(num : ℝ) - roundUnits num den * den| ≤ |(num : ℝ) - unitsOfPattern q * den| := by
    exact_mod_cast (roundPattern_nearest hd h q).1
  rw [div_sub' hd'.ne', div_sub' hd'.ne', abs_div, abs_div, mul_comm (den : ℝ), mul_comm (den : ℝ)]
  gcongr

/-! ### Sums of non-negative terms -/

theorem add_units {a b : Nat} (hb : IsBinary32 b) (h : roundPattern (a + b) 1 < infPattern) :
    F32.add (.fin false a) (.fin false b) = .fin false (roundUnits (a + b) 1) := by
  obtain rfl | ha := Nat.eq_zero_or_pos a
  · rw [Nat.zero_add, roundUnits_of_isBinary32 hb]; rfl
  · rw [add_fin_fin (.inr ha), if_pos rfl, round_eq_fin false h]

/-- Summed in order from `a`, every addition errs by at most `2^-24` of its result, and no term exceeds the sum. -/
theorem foldl_add_bounds (us : List Nat) (hb : ∀ u ∈ us, IsBinary32 u) (a : Nat)
    (h : ((a + us.sum : Nat) : ℝ) * (1 + 1 / 2 ^ 24) ^ us.length ≤ 2 ^ 200) :
    ∃ s : Nat, (us.map (F32.fin false)).foldl F32.add (.fin false a) = .fin false s ∧
      ((a + us.sum : Nat) : ℝ) * (1 - 1 / 2 ^ 24) ^ us.length ≤ s ∧
      s ≤ ((a + us.sum : Nat) : ℝ) * (1 + 1 / 2 ^ 24) ^ us.length ∧
      ∀ w, IsBinary32 w → (w ≤ a ∨ w ∈ us) → w ≤ s := by
  induction us generalizing a with
  | nil => exact ⟨a, rfl, by simp, by simp, by simp⟩
  | cons u us ih =>
    have hpow : (1 : ℝ) ≤ (1 + 1 / 2 ^ 24) ^ us.length := one_le_pow₀ (by norm_num)
    have hpow' : (0 : ℝ) ≤ (1 - 1 / 2 ^ 24) ^ us.length := pow_nonneg (by norm_num) _
    simp only [List.sum_cons, List.length_cons, pow_succ _ us.length, Nat.cast_add] at h ⊢
    have hsum : (0 : ℝ) ≤ us.sum := Nat.cast_nonneg _
    have hfit : a + u ≤ 2 ^ 200 * 1 := by
      have h1 : (1 : ℝ) ≤ (1 + 1 / 2 ^ 24) ^ us.length * (1 + 1 / 2 ^ 24) := by linarith
      have h2 : (0 : ℝ) ≤ a + (u + us.sum) := by positivity
      have h3 : (a + u : ℝ) ≤ 2 ^ 200 := by linarith [le_mul_of_one_le_right h2 h1]
      exact_mod_cast h3
    have hlt := roundPattern_lt_of_le Nat.one_pos (isBinary32_two_pow (by decide)) hfit
    obtain ⟨herr1, herr2⟩ := abs_le.1 (abs_roundUnits_one_sub_le hlt)
    push_cast at herr1 herr2
    have hup : (roundUnits (a + u) 1 : ℝ) + us.sum ≤ (a + (u + us.sum)) * (1 + 1 / 2 ^ 24) := by linarith
    have hlo : ((a : ℝ) + (u + us.sum)) * (1 - 1 / 2 ^ 24) ≤ roundUnits (a + u) 1 + us.sum := by linarith
    obtain ⟨s, hs, hs1, hs2, hs3⟩ := ih (fun v hv => hb v (by simp [hv])) (roundUnits (a + u) 1) (by
      rw [Nat.cast_add]
      refine (mul_le_mul_of_nonneg_right hup (zero_le_one.trans hpow)).trans ?_
      linarith)
    rw [Nat.cast_add] at hs1 hs2
    refine ⟨s, ?_, ?_, ?_, fun w hw hmem => ?_⟩
    · rw [List.map_cons, List.foldl_cons, add_units (hb u (by simp)) hlt, hs]
    · have := mul_le_mul_of_nonneg_right hlo hpow'
      linarith
    · have := mul_le_mul_of_nonneg_right hup (zero_le_one.trans hpow)
      linarith
    · have hstep : w ≤ a + u → w ≤ s := fun hle => hs3 w hw (.inl (le_roundUnits Nat.one_pos hlt hw (by omega)))
      obtain hle | hmem := hmem
      · exact hstep (by omega)
      · obtain rfl | hmem := List.mem_cons.1 hmem
        · exact hstep (by omega)
        · exact hs3 w hw (.inr hmem)

/-- A crude bound of a sum, far below overflow. -/
theorem sum_le_of_forall_le {us : List Nat} (hn : us.length ≤ 8193) (h : ∀ u ∈ us, u ≤ 2 ^ 157) : us.sum ≤ 2 ^ 190 := by
  have h1 := List.sum_le_card_nsmul us (2 ^ 157) h
  have h2 := Nat.mul_le_mul_right (2 ^ 157) hn
  rw [smul_eq_mul] at h1
  omega

/-- Bernoulli's inequality for the `2r+1` roundings of a kernel of radius at most 4096. -/
theorem one_sub_le_pow {n : Nat} (hn : n ≤ 8193) : (1 : ℝ) - 8193 / 2 ^ 24 ≤ (1 - 1 / 2 ^ 24) ^ n := by
  have h1 := one_add_mul_le_pow (a := -(1 / 2 ^ 24 : ℝ)) (by norm_num) n
  have h2 : (n : ℝ) ≤ 8193 := by exact_mod_cast hn
  rw [sub_eq_add_neg 1 (1 / 2 ^ 24 : ℝ)]
  linarith

/-- A binary32 sum of at most 8193 terms is within 8193 times `2^-24` of the exact sum. -/
theorem sum_error {us : List Nat} (hb : ∀ u ∈ us, IsBinary32 u) (hn : us.length ≤ 8193) (h : us.sum ≤ 2 ^ 190) :
    ∃ s : Nat, (us.map (F32.fin false)).foldl F32.add (.fin false 0) = .fin false s ∧
      (1 - 8193 / 2 ^ 24 : ℝ) * us.sum ≤ s ∧ (1 - 8193 / 2 ^ 24 : ℝ) * s ≤ us.sum ∧
      ∀ w ∈ us, w ≤ s := by
  have hlow := one_sub_le_pow hn
  have hprod : ((1 : ℝ) + 1 / 2 ^ 24) ^ us.length * (1 - 1 / 2 ^ 24) ^ us.length ≤ 1 := by
    rw [← mul_pow]; exact pow_le_one₀ (by norm_num) (by norm_num)
  have hhigh : ((1 : ℝ) + 1 / 2 ^ 24) ^ us.length * (1 - 8193 / 2 ^ 24) ≤ 1 :=
    (mul_le_mul_of_nonneg_left hlow (by positivity)).trans hprod
  have hsum : (us.sum : ℝ) ≤ 2 ^ 190 := by exact_mod_cast h
  have hsum0 : (0 : ℝ) ≤ us.sum := Nat.cast_nonneg _
  obtain ⟨s, hs, hs1, hs2, hs3⟩ := foldl_add_bounds us hb 0 (by
    rw [Nat.zero_add]
    exact (mul_le_mul hsum (show _ ≤ (2 : ℝ) by linarith) (by positivity) (by positivity)).trans (by norm_num))
  rw [Nat.zero_add] at hs1 hs2
  refine ⟨s, hs, ?_, ?_, fun w hw => hs3 w (hb w hw) (.inr hw)⟩
  · linarith [mul_le_mul_of_nonneg_left hlow hsum0]
  · linarith [mul_le_mul_of_nonneg_left hhigh hsum0]

end Sys2Proof.Machine
end

section
/-! PROOFS. The fixed-point bracket of the exponential (spec/40_blur.md R114; log 12) encloses the real exponential, and
what it rounds to is nearest. -/

namespace Sys2Proof.Machine

/-! ### Fixed point -/

/-- A natural quotient is less than 1 below the exact one. -/
theorem div_le_cast_div_add_one (m n : Nat) : (m : ℝ) / n ≤ ((m / n : Nat) : ℝ) + 1 := by
  rw [← Nat.floor_div_eq_div (K := ℝ)]
  exact (Nat.lt_floor_add_one _).le

/-- The number 1 in the bracket's fixed point. -/
noncomputable def expScale : ℝ := 2 ^ 256

theorem expScale_pos : 0 < expScale := by unfold expScale; positivity

theorem cast_two_pow_expBits : ((2 ^ expBits : Nat) : ℝ) = expScale := by
  rw [Nat.cast_pow, Nat.cast_two]; rfl

/-! ### The Horner sums

The equations of a Horner step are proved with the scale `2 ^ expBits` replaced by a variable: the kernel would count
through the literal `2 ^ 256`. -/

theorem hornerDown_zero (T acc : Nat) : hornerDown T 0 acc = acc := rfl

theorem hornerDown_succ (T j acc : Nat) :
    hornerDown T (j + 1) acc = hornerDown T j (2 ^ expBits + T * acc / ((j + 1) * 2 ^ expBits)) := by
  delta hornerDown hornerDown._f
  generalize 2 ^ expBits = B
  rfl

theorem hornerUp_zero (T acc : Nat) : hornerUp T 0 acc = acc := rfl

theorem hornerUp_succ (T j acc : Nat) :
    hornerUp T (j + 1) acc = hornerUp T j (2 ^ expBits + (T * acc / ((j + 1) * 2 ^ expBits) + 1)) := by
  delta hornerUp hornerUp._f
  generalize 2 ^ expBits = B
  rfl

/-- `j` terms of the Taylor sum of `e^t`, the next one multiplied by `a`. -/
noncomputable def taylorWith (t : ℝ) (j : Nat) (a : ℝ) : ℝ :=
  ∑ i ∈ Finset.range j, t ^ i / i.factorial + t ^ j / j.factorial * a

theorem taylorWith_zero (t a : ℝ) : taylorWith t 0 a = a := by simp [taylorWith]

theorem taylorWith_succ (t : ℝ) (j : Nat) (a : ℝ) :
    taylorWith t (j + 1) a = taylorWith t j (1 + t * a / (j + 1)) := by
  have : ((j + 1 : Nat) : ℝ) ≠ 0 := by positivity
  simp only [taylorWith, Finset.sum_range_succ, pow_succ, Nat.factorial_succ]
  push_cast at this ⊢
  field_simp
  ring

theorem taylorWith_mono {t : ℝ} (ht : 0 ≤ t) (j : Nat) {a b : ℝ} (h : a ≤ b) : taylorWith t j a ≤ taylorWith t j b := by
  have : 0 ≤ t ^ j / (j.factorial : ℝ) := by positivity
  rw [taylorWith, taylorWith]
  linarith [mul_le_mul_of_nonneg_left h this]

/-- A unit more in the innermost place is a Taylor term more in the sum. -/
theorem taylorWith_add_unit (t : ℝ) (j : Nat) (a : ℝ) :
    expScale * taylorWith t j (a + 1 / expScale) = expScale * taylorWith t j a + t ^ j / j.factorial := by
  have := expScale_pos.ne'
  rw [taylorWith, taylorWith]
  field_simp
  ring

/-- One Horner step in fixed point, rounded down, is at most a unit below the exact step. -/
theorem hornerStep_bounds (T acc j : Nat) :
    ((2 ^ expBits + T * acc / ((j + 1) * 2 ^ expBits) : Nat) : ℝ) / expScale ≤
        1 + T / expScale * (acc / expScale) / (j + 1) ∧
      1 + T / expScale * (acc / expScale) / (j + 1) ≤
        ((2 ^ expBits + T * acc / ((j + 1) * 2 ^ expBits) : Nat) : ℝ) / expScale + 1 / expScale := by
  have hS := expScale_pos
  have h1 := Nat.cast_div_le (α := ℝ) (m := T * acc) (n := (j + 1) * 2 ^ expBits)
  have h2 := div_le_cast_div_add_one (T * acc) ((j + 1) * 2 ^ expBits)
  have e : 1 + T / expScale * (acc / expScale) / (j + 1) =
      (expScale + ((T * acc : Nat) : ℝ) / (((j + 1) * 2 ^ expBits : Nat) : ℝ)) / expScale := by
    rw [Nat.cast_mul _ (2 ^ expBits), cast_two_pow_expBits]
    push_cast
    field_simp
  rw [e, ← add_div, Nat.cast_add, cast_two_pow_expBits]
  exact ⟨(div_le_div_iff_of_pos_right hS).2 (by linarith), (div_le_div_iff_of_pos_right hS).2 (by linarith)⟩

/-- The Horner sum rounded down is below the exact one, by at most the sum of the Taylor terms. -/
theorem hornerDown_bounds (T j acc : Nat) :
    (hornerDown T j acc : ℝ) ≤ expScale * taylorWith (T / expScale) j (acc / expScale) ∧
      expScale * taylorWith (T / expScale) j (acc / expScale) ≤
        hornerDown T j acc + ∑ i ∈ Finset.range j, (T / expScale) ^ i / i.factorial := by
  have hS := expScale_pos
  induction j generalizing acc with
  | zero => rw [taylorWith_zero, mul_div_cancel₀ _ hS.ne']; simp [hornerDown_zero]
  | succ j ih =>
    obtain ⟨ih1, ih2⟩ := ih (2 ^ expBits + T * acc / ((j + 1) * 2 ^ expBits))
    obtain ⟨h1, h2⟩ := hornerStep_bounds T acc j
    have ht : 0 ≤ T / expScale := by positivity
    have h1 := mul_le_mul_of_nonneg_left (taylorWith_mono ht j h1) hS.le
    have h2 := mul_le_mul_of_nonneg_left (taylorWith_mono ht j h2) hS.le
    rw [taylorWith_add_unit] at h2
    rw [hornerDown_succ, taylorWith_succ, Finset.sum_range_succ]
    constructor <;> linarith

/-- The Horner sum rounded up is above the exact one, by at most the sum of the Taylor terms. -/
theorem hornerUp_bounds (T j acc : Nat) :
    expScale * taylorWith (T / expScale) j (acc / expScale) ≤ (hornerUp T j acc : ℝ) ∧
      hornerUp T j acc ≤ expScale * taylorWith (T / expScale) j (acc / expScale) +
        ∑ i ∈ Finset.range j, (T / expScale) ^ i / i.factorial := by
  have hS := expScale_pos
  induction j generalizing acc with
  | zero => rw [taylorWith_zero, mul_div_cancel₀ _ hS.ne']; simp [hornerUp_zero]
  | succ j ih =>
    obtain ⟨ih1, ih2⟩ := ih (2 ^ expBits + T * acc / ((j + 1) * 2 ^ expBits) + 1)
    obtain ⟨h1, h2⟩ := hornerStep_bounds T acc j
    have ht : 0 ≤ T / expScale := by positivity
    have h1 := mul_le_mul_of_nonneg_left (taylorWith_mono ht j h1) hS.le
    have h2 := mul_le_mul_of_nonneg_left (taylorWith_mono ht j h2) hS.le
    rw [Nat.cast_add _ 1, add_div, Nat.cast_one, taylorWith_add_unit] at ih1 ih2
    rw [taylorWith_add_unit] at h2
    rw [hornerUp_succ, taylorWith_succ, Finset.sum_range_succ, ← Nat.add_assoc]
    constructor <;> linarith

/-- A Horner sum is at least its first term, 1. -/
theorem le_hornerDown (T j : Nat) {acc : Nat} (h : 2 ^ expBits ≤ acc) : 2 ^ expBits ≤ hornerDown T j acc := by
  induction j generalizing acc with
  | zero => rwa [hornerDown_zero]
  | succ j ih => rw [hornerDown_succ]; exact ih (Nat.le_add_right _ _)

/-! ### The exponential of the reduced argument -/

/-- The lower bound of `e^t` in fixed point, `t = n * 2^-156`. -/
def hornerLow (n : Nat) : Nat := hornerDown (expArg n) expTerms (2 ^ expBits)

/-- The upper bound of `e^t` in fixed point. -/
def hornerHigh (n : Nat) : Nat := hornerUp (expArg n) expTerms (2 * 2 ^ expBits)

theorem expArg_eq (n : Nat) : expArg n = n * 2 ^ 100 := rfl

theorem expArg_div (n : Nat) : expArg n / expScale = (n : ℝ) / 2 ^ 156 := by
  have e : expScale = 2 ^ 156 * 2 ^ 100 := by rw [expScale]; norm_num
  rw [expArg_eq, Nat.cast_mul, Nat.cast_pow, Nat.cast_two, e]
  exact mul_div_mul_right (n : ℝ) (2 ^ 156) (pow_ne_zero 100 two_ne_zero)

theorem hornerLow_le (n : Nat) : (hornerLow n : ℝ) ≤ expScale * Real.exp (n / 2 ^ 156) := by
  refine (hornerDown_bounds _ _ _).1.trans (mul_le_mul_of_nonneg_left ?_ expScale_pos.le)
  rw [expArg_div, cast_two_pow_expBits, div_self expScale_pos.ne', taylorWith, mul_one, ← Finset.sum_range_succ]
  exact Real.sum_le_exp_of_nonneg (by positivity) _

section
variable {n : Nat} (hn : n < 104 * 2 ^ 149)
include hn

theorem reducedArg_le_one : (n : ℝ) / 2 ^ 156 ≤ 1 := by
  have : (n : ℝ) ≤ 104 * 2 ^ 149 := by exact_mod_cast hn.le
  rw [div_le_one (by positivity)]
  linarith

/-- The Taylor remainder is at most twice the next term. -/
theorem exp_le_taylorWith : Real.exp (n / 2 ^ 156) ≤ taylorWith (n / 2 ^ 156) expTerms 2 := by
  refine (Real.exp_bound' (by positivity) (reducedArg_le_one hn) (n := expTerms) (by decide)).trans ?_
  rw [taylorWith, mul_div_mul_comm]
  refine add_le_add_right (mul_le_mul_of_nonneg_left ?_ (by positivity)) _
  rw [expTerms]; norm_num

theorem le_hornerHigh : expScale * Real.exp (n / 2 ^ 156) ≤ hornerHigh n := by
  refine (mul_le_mul_of_nonneg_left ?_ expScale_pos.le).trans (hornerUp_bounds _ _ _).1
  rw [expArg_div, Nat.cast_mul, Nat.cast_two, cast_two_pow_expBits, mul_div_cancel_right₀ _ expScale_pos.ne']
  exact exp_le_taylorWith hn

theorem hornerHigh_le : hornerHigh n ≤ hornerLow n + 7 := by
  have h1 := (hornerDown_bounds (expArg n) expTerms (2 ^ expBits)).2
  have h2 := (hornerUp_bounds (expArg n) expTerms (2 * 2 ^ expBits)).2
  have hsum := Real.sum_le_exp_of_nonneg (x := (n : ℝ) / 2 ^ 156) (by positivity) expTerms
  have he : Real.exp (n / 2 ^ 156) ≤ 3 :=
    (Real.exp_le_exp.2 (reducedArg_le_one hn)).trans Real.exp_one_lt_three.le
  have hterm : expScale * ((n / 2 ^ 156 : ℝ) ^ expTerms / expTerms.factorial) ≤ 1 := by
    have hpow : (n / 2 ^ 156 : ℝ) ^ expTerms ≤ 1 := pow_le_one₀ (by positivity) (reducedArg_le_one hn)
    have hfact : expScale ≤ expTerms.factorial := by rw [expScale, expTerms]; norm_num [Nat.factorial]
    rw [mul_div_left_comm, ← mul_one (1 : ℝ)]
    exact mul_le_mul hpow ((div_le_one (by positivity)).2 hfact) (by have := expScale_pos; positivity) zero_le_one
  rw [expArg_div, cast_two_pow_expBits, div_self expScale_pos.ne', taylorWith] at h1
  rw [expArg_div, Nat.cast_mul, Nat.cast_two, cast_two_pow_expBits, mul_div_cancel_right₀ _ expScale_pos.ne',
    taylorWith] at h2
  have : (hornerHigh n : ℝ) ≤ hornerLow n + 7 := by
    rw [hornerHigh, hornerLow]; linarith
  exact_mod_cast this

end

/-! ### Squaring -/

theorem squareDown_le (j : Nat) {a : Nat} {x : ℝ} (h0 : 0 ≤ x) (hx : (a : ℝ) ≤ x * expScale) :
    (squareDown j a : ℝ) ≤ x ^ 2 ^ j * expScale := by
  have hS := expScale_pos
  induction j generalizing a x with
  | zero => simpa [squareDown] using hx
  | succ j ih =>
    have hsq : ((a * a / 2 ^ expBits : Nat) : ℝ) ≤ x * x * expScale := by
      calc ((a * a / 2 ^ expBits : Nat) : ℝ) ≤ (a * a : Nat) / (2 ^ expBits : Nat) := Nat.cast_div_le
        _ = a * a / expScale := by rw [cast_two_pow_expBits, Nat.cast_mul]
        _ ≤ (x * expScale) * (x * expScale) / expScale := by gcongr
        _ = x * x * expScale := by field_simp
    rw [squareDown, pow_succ', pow_mul, pow_two]
    exact ih (mul_nonneg h0 h0) hsq

theorem le_squareUp (j : Nat) {b : Nat} {x : ℝ} (h0 : 0 ≤ x) (hx : x * expScale ≤ b) :
    x ^ 2 ^ j * expScale ≤ (squareUp j b : ℝ) := by
  have hS := expScale_pos
  induction j generalizing b x with
  | zero => simpa [squareUp] using hx
  | succ j ih =>
    have hsq : x * x * expScale ≤ ((b * b / 2 ^ expBits + 1 : Nat) : ℝ) := by
      calc x * x * expScale = (x * expScale) * (x * expScale) / expScale := by field_simp
        _ ≤ (b : ℝ) * b / expScale := by gcongr
        _ = ((b * b : Nat) : ℝ) / (2 ^ expBits : Nat) := by rw [cast_two_pow_expBits, Nat.cast_mul]
        _ ≤ _ := by rw [Nat.cast_succ]; exact div_le_cast_div_add_one _ _
    rw [squareUp, pow_succ', pow_mul, pow_two]
    exact ih (mul_nonneg h0 h0) hsq

/-- Every squaring at most doubles the width of a bracket of a number at most 1, and adds two units. -/
theorem squareUp_le (j : Nat) {a b w : Nat} (ha : a ≤ 2 ^ expBits) (hb : b ≤ a + w) (hw : (w + 2) * 2 ^ j ≤ 2 ^ 128) :
    squareUp j b ≤ squareDown j a + (w + 2) * 2 ^ j := by
  induction j generalizing a b w with
  | zero => rw [squareUp, squareDown]; omega
  | succ j ih =>
    have hw2 : w * w ≤ 2 ^ expBits := by
      have hle : w ≤ 2 ^ 128 := (Nat.le_add_right w 2).trans ((Nat.le_mul_of_pos_right _ (Nat.two_pow_pos _)).trans hw)
      exact (Nat.mul_le_mul hle hle).trans_eq (Nat.pow_add 2 128 128).symm
    have ha' : a * a / 2 ^ expBits ≤ 2 ^ expBits := Nat.div_le_of_le_mul (Nat.mul_le_mul ha ha)
    have hsq : b * b ≤ a * a + (2 * w + 1) * 2 ^ expBits := by
      calc b * b ≤ (a + w) * (a + w) := Nat.mul_le_mul hb hb
        _ = a * a + 2 * w * a + w * w := by ring
        _ ≤ a * a + 2 * w * 2 ^ expBits + 2 ^ expBits := by gcongr
        _ = _ := by ring
    have hb' : b * b / 2 ^ expBits + 1 ≤ a * a / 2 ^ expBits + (2 * w + 2) := by
      have := Nat.div_le_div_right (c := 2 ^ expBits) hsq
      rw [Nat.add_mul_div_right _ _ (Nat.two_pow_pos _)] at this
      omega
    have e : (2 * w + 2 + 2) * 2 ^ j = (w + 2) * 2 ^ (j + 1) := by ring
    rw [← e] at hw ⊢
    rw [squareUp, squareDown]
    exact ih ha' hb' hw

/-! ### The bracket -/

/-- The reduced exponential inverted, from below. -/
def inverseLow (n : Nat) : Nat := 2 ^ expBits * 2 ^ expBits / hornerHigh n

/-- The reduced exponential inverted, from above. -/
def inverseHigh (n : Nat) : Nat := 2 ^ expBits * 2 ^ expBits / hornerLow n + 1

theorem expLower_eq (n : Nat) : expLower n = squareDown 7 (inverseLow n) := rfl

theorem expUpper_eq (n : Nat) : expUpper n = squareUp 7 (inverseHigh n) := rfl

/-- Seven squarings undo the division of the argument by `2^7`. -/
theorem exp_reduced_pow (n : Nat) : Real.exp (-(n / 2 ^ 156)) ^ 2 ^ 7 = Real.exp (-(n : ℝ) / 2 ^ 149) := by
  rw [← Real.exp_nat_mul]
  congr 1
  push_cast
  ring

/-- Dividing the square of the scale by a number inverts it in fixed point. -/
theorem cast_sq_div (a : Nat) :
    ((2 ^ expBits * 2 ^ expBits : Nat) : ℝ) / a = expScale / a * expScale := by
  rw [Nat.cast_mul, cast_two_pow_expBits]; ring

theorem le_hornerLow (n : Nat) : 2 ^ expBits ≤ hornerLow n := le_hornerDown _ _ le_rfl

theorem le_inverseHigh (n : Nat) : Real.exp (-(n / 2 ^ 156)) * expScale ≤ inverseHigh n := by
  have hS := expScale_pos
  have hpos : (0 : ℝ) < hornerLow n := by exact_mod_cast (Nat.two_pow_pos _).trans_le (le_hornerLow n)
  rw [inverseHigh, Nat.cast_succ]
  refine le_trans ?_ (div_le_cast_div_add_one _ _)
  rw [cast_sq_div, Real.exp_neg, ← one_div]
  gcongr ?_ * _
  calc 1 / Real.exp (n / 2 ^ 156) = expScale / (expScale * Real.exp (n / 2 ^ 156)) := by field_simp
    _ ≤ expScale / hornerLow n := div_le_div_of_nonneg_left hS.le hpos (hornerLow_le n)

theorem le_expUpper (n : Nat) : Real.exp (-(n : ℝ) / 2 ^ 149) * expScale ≤ expUpper n := by
  rw [expUpper_eq, ← exp_reduced_pow]
  exact le_squareUp 7 (Real.exp_nonneg _) (le_inverseHigh n)

section
variable {n : Nat} (hn : n < 104 * 2 ^ 149)
include hn

theorem inverseLow_le : (inverseLow n : ℝ) ≤ Real.exp (-(n / 2 ^ 156)) * expScale := by
  have hS := expScale_pos
  refine Nat.cast_div_le.trans ?_
  rw [cast_sq_div, Real.exp_neg, ← one_div]
  gcongr ?_ * _
  have hpos : 0 < expScale * Real.exp (n / 2 ^ 156) := by positivity
  calc expScale / hornerHigh n ≤ expScale / (expScale * Real.exp (n / 2 ^ 156)) :=
        div_le_div_of_nonneg_left hS.le hpos (le_hornerHigh hn)
    _ = _ := by field_simp

theorem inverseLow_le_scale : inverseLow n ≤ 2 ^ expBits := by
  have h : (inverseLow n : ℝ) ≤ ((2 ^ expBits : Nat) : ℝ) := by
    rw [cast_two_pow_expBits]
    refine (inverseLow_le hn).trans (mul_le_of_le_one_left expScale_pos.le (Real.exp_le_one_iff.2 ?_))
    have : (0 : ℝ) ≤ n / 2 ^ 156 := by positivity
    linarith
  exact_mod_cast h

/-- The inverses of two numbers that are 7 units apart and at least 1. -/
theorem inverseHigh_le : inverseHigh n ≤ inverseLow n + 9 := by
  have hlow := le_hornerLow n
  have hq := inverseLow_le_scale hn
  have h7 : 7 ≤ 2 ^ expBits := by decide
  have hpos : 0 < hornerHigh n := by
    have := (mul_pos expScale_pos (Real.exp_pos (n / 2 ^ 156))).trans_le (le_hornerHigh hn)
    exact_mod_cast this
  have hlt : 2 ^ expBits * 2 ^ expBits < (inverseLow n + 9) * hornerLow n := by
    calc 2 ^ expBits * 2 ^ expBits < hornerHigh n * (inverseLow n + 1) := Nat.lt_mul_div_succ _ hpos
      _ ≤ (hornerLow n + 7) * (inverseLow n + 1) := Nat.mul_le_mul_right _ (hornerHigh_le hn)
      _ = (inverseLow n + 1) * hornerLow n + (7 * inverseLow n + 7) := by ring
      _ ≤ (inverseLow n + 1) * hornerLow n + 8 * hornerLow n := by omega
      _ = (inverseLow n + 9) * hornerLow n := by ring
  exact (Nat.div_lt_iff_lt_mul (by omega)).2 hlt

theorem expLower_le : (expLower n : ℝ) ≤ Real.exp (-(n : ℝ) / 2 ^ 149) * expScale := by
  rw [expLower_eq, ← exp_reduced_pow]
  exact squareDown_le 7 (Real.exp_nonneg _) (inverseLow_le hn)

theorem expUpper_le : expUpper n ≤ expLower n + 2 ^ 16 := by
  rw [expUpper_eq, expLower_eq]
  have := squareUp_le 7 (inverseLow_le_scale hn) (inverseHigh_le hn) (by decide)
  omega

end

/-- Settles O20: the two Horner sums enclose the reduced exponential, and inversion and squaring keep the enclosure. -/
theorem exponentialBracketEnclosesTheReal : Obligations.ExponentialBracketEnclosesTheReal :=
  fun n hn => ⟨expLower_le hn, le_expUpper n, expUpper_le hn⟩

/-! ### What the bracket rounds to

From here on the real exponential is counted in units of 2^-149, as `F32` counts. -/

/-- `e^(-n * 2^-149)` in units. -/
noncomputable def expUnits (n : Nat) : ℝ := Real.exp (-(n : ℝ) / 2 ^ 149) * 2 ^ 149

theorem expUnits_nonneg (n : Nat) : 0 ≤ expUnits n := by unfold expUnits; positivity

theorem expUnits_le (n : Nat) : expUnits n ≤ 2 ^ 149 := by
  refine mul_le_of_le_one_left (by positivity) (Real.exp_le_one_iff.2 ?_)
  rw [neg_div]
  exact neg_nonpos.2 (by positivity)

/-- Past 104 the exponential is below half a unit: 104 is past 150 ln 2. -/
theorem expUnits_le_half {n : Nat} (hn : 104 * 2 ^ 149 ≤ n) : expUnits n ≤ 1 / 2 := by
  have hn' : (104 : ℝ) * 2 ^ 149 ≤ n := by exact_mod_cast hn
  have harg : -(n : ℝ) / 2 ^ 149 ≤ Real.log 2 * (-150 : ℤ) := by
    rw [div_le_iff₀ (by positivity)]
    have := Real.log_two_lt_d9
    push_cast
    linarith
  have hexp : Real.exp (-(n : ℝ) / 2 ^ 149) ≤ 2 ^ (-150 : ℤ) := by
    refine (Real.exp_le_exp.2 harg).trans_eq ?_
    rw [Real.exp_mul, Real.exp_log two_pos, Real.rpow_intCast]
  calc expUnits n ≤ 2 ^ (-150 : ℤ) * 2 ^ 149 := mul_le_mul_of_nonneg_right hexp (by positivity)
    _ = 1 / 2 := by norm_num

theorem expUnits_scale (n : Nat) : Real.exp (-(n : ℝ) / 2 ^ 149) * expScale / 2 ^ 107 = expUnits n := by
  have e : expScale = 2 ^ 149 * 2 ^ 107 := by rw [expScale]; norm_num
  rw [e, ← mul_assoc]
  exact mul_div_cancel_right₀ _ (pow_ne_zero 107 two_ne_zero)

theorem roundFixed_eq {a : Nat} (h : roundPattern a (2 ^ 107) < infPattern) :
    roundFixed a = .fin false (roundUnits a (2 ^ 107)) := round_eq_fin false h

/-- What is nearest at both ends of an interval is nearest inside it. -/
theorem abs_sub_le_of_between {x y z p q : ℝ} (hxz : x ≤ z) (hzy : z ≤ y) (hx : |x - p| ≤ |x - q|)
    (hy : |y - p| ≤ |y - q|) : |z - p| ≤ |z - q| := by
  rw [← sq_le_sq] at *
  obtain h | h := le_total p q
  · nlinarith
  · nlinarith

section
variable {n : Nat} (hn : n < 104 * 2 ^ 149)
include hn

/-- The ends of the bracket in units: they enclose the exponential and are `2^-91` apart. -/
theorem bracket_units :
    (expLower n : ℝ) / 2 ^ 107 ≤ expUnits n ∧ expUnits n ≤ expUpper n / 2 ^ 107 ∧
      (expUpper n : ℝ) / 2 ^ 107 ≤ expLower n / 2 ^ 107 + 1 / 2 ^ 91 := by
  have h : (expUpper n : ℝ) ≤ expLower n + 2 ^ 16 := by exact_mod_cast expUpper_le hn
  rw [← expUnits_scale]
  refine ⟨?_, ?_, ?_⟩
  · gcongr; exact expLower_le hn
  · gcongr; exact le_expUpper n
  · linarith

theorem expUpper_le_two_pow : expUpper n ≤ 2 ^ 150 * 2 ^ 107 := by
  obtain ⟨h1, -, h2⟩ := bracket_units hn
  have h3 := expUnits_le n
  have h4 : (expUpper n : ℝ) / 2 ^ 107 ≤ 2 ^ 150 := by linarith
  rw [div_le_iff₀ (by positivity)] at h4
  exact_mod_cast h4

/-- An end of the bracket is within `2^-91` units of the exponential, and has a finite rounding, which is nearest. -/
theorem bracket_end {a : Nat} (ha : a = expLower n ∨ a = expUpper n) :
    |(a : ℝ) / 2 ^ 107 - expUnits n| ≤ 1 / 2 ^ 91 ∧ roundPattern a (2 ^ 107) < infPattern ∧
      ∀ q, |(a : ℝ) / 2 ^ 107 - roundUnits a (2 ^ 107)| ≤ |(a : ℝ) / 2 ^ 107 - unitsOfPattern q| := by
  obtain ⟨h1, h2, h3⟩ := bracket_units hn
  have hle : a ≤ 2 ^ 150 * 2 ^ 107 := by
    have := expUpper_le_two_pow hn
    have hlu : (expLower n : ℝ) / 2 ^ 107 ≤ expUpper n / 2 ^ 107 := h1.trans h2
    rw [div_le_div_iff_of_pos_right (by positivity)] at hlu
    have hlu' : expLower n ≤ expUpper n := by exact_mod_cast hlu
    omega
  have hlt := roundPattern_lt_of_le (Nat.two_pow_pos 107) (isBinary32_two_pow (by decide)) hle
  refine ⟨?_, hlt, fun q => by exact_mod_cast roundUnits_nearest (Nat.two_pow_pos 107) hlt q⟩
  rw [abs_le]
  obtain rfl | rfl := ha <;> constructor <;> linarith

/-- The rounding of an end is nearest to that end, so nearest to the exponential but for the bracket's width. -/
theorem bracket_end_close {a : Nat} (ha : a = expLower n ∨ a = expUpper n) (q : Nat) :
    |expUnits n - roundUnits a (2 ^ 107)| ≤ |expUnits n - unitsOfPattern q| + 1 / 2 ^ 80 := by
  obtain ⟨hend, -, hnear⟩ := bracket_end hn ha
  have h1 := abs_sub_le (expUnits n) (a / 2 ^ 107 : ℝ) (roundUnits a (2 ^ 107))
  have h2 := abs_sub_le (a / 2 ^ 107 : ℝ) (expUnits n) (unitsOfPattern q)
  rw [abs_sub_comm (expUnits n) (a / 2 ^ 107 : ℝ)] at h1
  linarith [hnear q]

/-- Where both ends round to one value, it is nearest to all that lies between them. -/
theorem bracket_settled (hs : roundFixed (expLower n) = roundFixed (expUpper n)) (q : Nat) :
    |expUnits n - roundUnits (expLower n) (2 ^ 107)| ≤ |expUnits n - unitsOfPattern q| := by
  obtain ⟨hin1, hin2, -⟩ := bracket_units hn
  obtain ⟨-, hlt1, hnear1⟩ := bracket_end hn (.inl rfl)
  obtain ⟨-, hlt2, hnear2⟩ := bracket_end hn (.inr rfl)
  rw [roundFixed_eq hlt1, roundFixed_eq hlt2, F32.fin.injEq] at hs
  exact abs_sub_le_of_between hin1 hin2 (hnear1 q) (by rw [hs.2]; exact hnear2 q)

end

/-- The three branches of the computation: 1 at 0, +0 from 104 on, and between them the rounding of an end of the
bracket. -/
theorem expNegUnits_cases (n : Nat) :
    (n = 0 ∧ expNegUnits n = .fin false (2 ^ 149)) ∨
    (104 * 2 ^ 149 ≤ n ∧ expNegUnits n = .fin false 0) ∨
    (n < 104 * 2 ^ 149 ∧ ∃ a, (a = expLower n ∨ a = expUpper n) ∧ expNegUnits n = roundFixed a) := by
  unfold expNegUnits
  split
  · next h => exact .inl ⟨h, rfl⟩
  · split
    · next h => exact .inr (.inl ⟨h, rfl⟩)
    · next h =>
      refine .inr (.inr ⟨not_le.1 h, ?_⟩)
      split
      · exact ⟨_, .inl rfl, rfl⟩
      · split
        · exact ⟨_, .inr rfl, rfl⟩
        · exact ⟨_, .inl rfl, rfl⟩

theorem expUnits_zero : expUnits 0 = 2 ^ 149 := by simp [expUnits]

/-- A computed exponential is a binary32 value at most 1, and off the real one by at most `2^-24` of it and a unit. -/
theorem expNegUnits_error (n : Nat) :
    ∃ e, expNegUnits n = .fin false e ∧ IsBinary32 e ∧ e ≤ 2 ^ 149 ∧
      |(e : ℝ) - expUnits n| ≤ expUnits n / 2 ^ 24 + 1 := by
  have h0 := expUnits_nonneg n
  obtain ⟨rfl, h⟩ | ⟨hn, h⟩ | ⟨hn, a, ha, h⟩ := expNegUnits_cases n
  · refine ⟨_, h, isBinary32_two_pow (by decide), le_rfl, ?_⟩
    rw [expUnits_zero]
    norm_num
  · refine ⟨_, h, ⟨0, by decide, rfl⟩, Nat.zero_le _, ?_⟩
    have := expUnits_le_half hn
    rw [Nat.cast_zero, zero_sub, abs_neg, abs_of_nonneg h0]
    linarith
  · obtain ⟨hend, hlt, hnear⟩ := bracket_end hn ha
    refine ⟨_, h.trans (roundFixed_eq hlt), isBinary32_roundUnits hlt, ?_, ?_⟩
    · have hnear := hnear (127 * 2 ^ 23)
      rw [show unitsOfPattern (127 * 2 ^ 23) = 2 ^ 149 by decide +kernel] at hnear
      have hle := expUnits_le n
      push_cast at hnear
      have hlt : (roundUnits a (2 ^ 107) : ℝ) < (2 ^ 149 + 1 : Nat) := by
        push_cast
        obtain ⟨-, hend⟩ := abs_le.1 hend
        obtain h | h := abs_cases ((a : ℝ) / 2 ^ 107 - 2 ^ 149) <;> linarith [(abs_le.1 hnear).1]
      exact Nat.le_of_lt_succ (by exact_mod_cast hlt)
    · have herr := abs_roundUnits_sub_le (Nat.two_pow_pos 107) hlt
      push_cast at herr
      obtain ⟨hend1, hend2⟩ := abs_le.1 hend
      obtain ⟨herr1, herr2⟩ := abs_le.1 herr
      rw [abs_le]
      constructor <;> linarith

/-- Nothing is nearer than 0 to what is at most half a unit. -/
theorem zero_nearest_of_le_half {x : ℝ} (h0 : 0 ≤ x) (h : x ≤ 1 / 2) (m : Nat) : |x - (0 : Nat)| ≤ |x - m| := by
  rw [Nat.cast_zero, sub_zero, abs_of_nonneg h0]
  obtain rfl | hm := Nat.eq_zero_or_pos m
  · rw [Nat.cast_zero, sub_zero, abs_of_nonneg h0]
  · have : (1 : ℝ) ≤ m := by exact_mod_cast hm
    rw [abs_of_nonpos (by linarith)]
    linarith

/-- The computed exponential is nearest at 0, from 104 on and where the bracket settles the rounding; elsewhere it is
nearest but for the bracket's width. -/
theorem expNegUnits_nearest (n : Nat) :
    ∃ p, p < infPattern ∧ expNegUnits n = .fin false (unitsOfPattern p) ∧
      (∀ q, |expUnits n - unitsOfPattern p| ≤ |expUnits n - unitsOfPattern q| + 1 / 2 ^ 80) ∧
      ((104 * 2 ^ 149 ≤ n ∨ roundFixed (expLower n) = roundFixed (expUpper n)) →
        ∀ q, |expUnits n - unitsOfPattern p| ≤ |expUnits n - unitsOfPattern q|) := by
  have of_nearest : ∀ {p}, (∀ q, |expUnits n - unitsOfPattern p| ≤ |expUnits n - unitsOfPattern q|) →
      ∀ q, |expUnits n - unitsOfPattern p| ≤ |expUnits n - unitsOfPattern q| + 1 / 2 ^ 80 :=
    fun h q => (h q).trans (le_add_of_nonneg_right (by positivity))
  obtain ⟨rfl, h⟩ | ⟨hn, h⟩ | ⟨hn, a, ha, h⟩ := expNegUnits_cases n
  · obtain ⟨p, hp, hu⟩ := isBinary32_two_pow (k := 149) (by decide)
    have hnear : ∀ q, |expUnits 0 - unitsOfPattern p| ≤ |expUnits 0 - unitsOfPattern q| := by
      intro q
      rw [hu, expUnits_zero, Nat.cast_pow, Nat.cast_two, sub_self, abs_zero]
      exact abs_nonneg _
    exact ⟨p, hp, by rw [hu, h], of_nearest hnear, fun _ => hnear⟩
  · have hnear : ∀ q, |expUnits n - unitsOfPattern 0| ≤ |expUnits n - unitsOfPattern q| := fun q =>
      zero_nearest_of_le_half (expUnits_nonneg n) (expUnits_le_half hn) _
    exact ⟨0, by decide, h, of_nearest hnear, fun _ => hnear⟩
  · obtain ⟨-, hlt, -⟩ := bracket_end hn ha
    refine ⟨_, hlt, h.trans (roundFixed_eq hlt), bracket_end_close hn ha, fun hs q => ?_⟩
    have hs := hs.resolve_left hn.not_ge
    have hroundUnits : roundUnits a (2 ^ 107) = roundUnits (expLower n) (2 ^ 107) := by
      obtain ⟨-, hlt1, -⟩ := bracket_end hn (.inl rfl)
      have : roundFixed a = roundFixed (expLower n) := by obtain rfl | rfl := ha <;> simp [hs]
      rw [roundFixed_eq hlt, roundFixed_eq hlt1] at this
      exact (F32.fin.inj this).2
    rw [← roundUnits, hroundUnits]
    exact bracket_settled hn hs q

/-- Settles O19: the computed exponential is nearest, or nearest but for the bracket's width. -/
theorem exponentialIsNearestBinary32 : Obligations.ExponentialIsNearestBinary32 := by
  refine ⟨rfl, fun n => ?_⟩
  obtain ⟨p, hp, he, hclose, hsettled⟩ := expNegUnits_nearest n
  exact ⟨p, hp, he, fun q _ => hclose q, fun h q _ => hsettled h q⟩

end Sys2Proof.Machine
end

section
/-! PROOFS. The kernel of BLUR: its radius, its weights before and after the normalisation, and their sum
(spec/40_blur.md R113 to R116, R124). -/

namespace Sys2Proof.Machine

/-! ### Rounding terms one by one -/

theorem isBinary32_zero : IsBinary32 0 := ⟨0, by decide, rfl⟩

/-- Finite values with a sign bit 0, as a list of units. -/
theorem exists_map_fin {P : Nat → Prop} (l : List F32) (h : ∀ f ∈ l, ∃ u, f = .fin false u ∧ P u) :
    ∃ us : List Nat, l = us.map (F32.fin false) ∧ ∀ u ∈ us, P u := by
  induction l with
  | nil => exact ⟨[], rfl, by simp⟩
  | cons f l ih =>
    obtain ⟨u, rfl, hu⟩ := h f (by simp)
    obtain ⟨us, rfl, hus⟩ := ih fun g hg => h g (by simp [hg])
    exact ⟨u :: us, rfl, by simpa using ⟨hu, hus⟩⟩

/-- Errors of the terms, each relative to its term and half a unit, add up. -/
theorem abs_sum_map_sub_le (us : List Nat) (f : Nat → Nat) (c ε : ℝ)
    (h : ∀ u ∈ us, |(f u : ℝ) - c * u| ≤ ε * u + 1 / 2) :
    |((us.map f).sum : ℝ) - c * us.sum| ≤ ε * us.sum + us.length / 2 := by
  induction us with
  | nil => simp
  | cons u us ih =>
    have h1 := abs_le.1 (h u (by simp))
    have h2 := abs_le.1 (ih fun v hv => h v (by simp [hv]))
    rw [List.map_cons, List.sum_cons, List.sum_cons, List.length_cons, Nat.cast_add, Nat.cast_add, Nat.cast_succ,
      abs_le]
    constructor <;> linarith [h1.1, h1.2, h2.1, h2.2]

/-! ### The radius (R113) -/

/-- The radius of a positive sigma: unbounded where `3 *f sigma` overflows, else its least integer above, at least 1. -/
theorem kernelRadius_cases {u : Nat} (hu : 0 < u) :
    (kernelRadius (.fin false u) = none ∧ F32.mul (F32.ofNat 3) (.fin false u) = .inf false) ∨
    ∃ r, kernelRadius (.fin false u) = some r ∧
      F32.mul (F32.ofNat 3) (.fin false u) = .fin false (roundUnits (3 * 2 ^ 149 * u) (2 ^ 149)) ∧
      1 ≤ r ∧ roundUnits (3 * 2 ^ 149 * u) (2 ^ 149) ≤ r * 2 ^ 149 ∧
      (r - 1) * 2 ^ 149 < roundUnits (3 * 2 ^ 149 * u) (2 ^ 149) ∧
      ∀ w, IsBinary32 w → w ≤ 3 * u → w ≤ roundUnits (3 * 2 ^ 149 * u) (2 ^ 149) := by
  have hmul : F32.mul (F32.ofNat 3) (.fin false u) = F32.round false (3 * 2 ^ 149 * u) (2 ^ 149) := rfl
  obtain h | ⟨t, h⟩ := round_cases false (3 * 2 ^ 149 * u) (2 ^ 149)
  · exact .inl ⟨by rw [kernelRadius, hmul, h]; rfl, hmul.trans h⟩
  · obtain ⟨hlt, rfl⟩ := round_eq_fin_iff.1 h
    have hle : ∀ w, IsBinary32 w → w ≤ 3 * u → w ≤ roundUnits (3 * 2 ^ 149 * u) (2 ^ 149) := fun w hw hwu =>
      le_roundUnits (Nat.two_pow_pos _) hlt hw (by omega)
    have hpos := hle 1 (isBinary32_two_pow (k := 0) (by decide)) (by omega)
    refine .inr ⟨_, by rw [kernelRadius, hmul, h]; rfl, hmul.trans h, ?_⟩
    rw [← roundUnits, Int.toNat_natCast]
    generalize roundUnits (3 * 2 ^ 149 * u) (2 ^ 149) = t at *
    exact ⟨by omega, by omega, by omega, hle⟩

/-- Settles O14: the radius of each class of sigma past the threshold. -/
theorem kernelRadiusIsCeilOfThreeSigma : Obligations.KernelRadiusIsCeilOfThreeSigma := by
  intro v h1 h2
  obtain ⟨-, e⟩ | ⟨-, e⟩ := ofBits_nonneg_cases h2
  · rw [e]
    obtain h | ⟨r, hr, hmul, h1r, hle, hlt, -⟩ := kernelRadius_cases (unitsOfPattern_pos (show 0 < v.toNat by omega))
    · exact .inl h
    · exact .inr ⟨r, _, hr, hmul, h1r, hle, hlt⟩
  · rw [e]; exact .inl ⟨rfl, rfl⟩

/-- A sigma past the threshold whose radius the kernel store can hold lies between `2^-20` and `2^12`. -/
theorem sigma_bounds {v : Word} {r : Nat} (h1 : 0x358637BE ≤ v.toNat) (h2 : v.toNat ≤ 0x7F800000)
    (hr : kernelRadius (F32.ofBits v) = some r) (hr' : r ≤ 4096) :
    ∃ u, F32.ofBits v = .fin false u ∧ 2 ^ 129 ≤ u ∧ u ≤ 2 ^ 161 := by
  obtain ⟨-, e⟩ | ⟨-, e⟩ := ofBits_nonneg_cases h2
  · have hlow : 2 ^ 129 ≤ unitsOfPattern v.toNat :=
      (show 2 ^ 129 ≤ unitsOfPattern 0x358637BE by decide +kernel).trans (unitsOfPattern_strictMono.monotone h1)
    refine ⟨_, e, hlow, ?_⟩
    rw [e] at hr
    obtain ⟨h, -⟩ | ⟨r', h, -, -, hle, -, hmono⟩ := kernelRadius_cases ((Nat.two_pow_pos _).trans_le hlow)
    · rw [h] at hr; cases hr
    · rw [h] at hr; cases hr
      by_contra hgt
      have := hmono (2 ^ 162) (isBinary32_two_pow (by decide)) (by omega)
      omega
  · rw [e] at hr; cases hr

/-! ### The quotient `q_k` (R115) -/

/-- The units of `sigma *f sigma`. -/
def squareUnits (u : Nat) : Nat := roundUnits (u * u) (2 ^ 149)

/-- The units of `toF32(2) *f (sigma *f sigma)`. -/
def denUnits (u : Nat) : Nat := roundUnits (2 * 2 ^ 149 * squareUnits u) (2 ^ 149)

/-- The units of `toF32(i*i) /f den`. -/
def quotientUnits (u i : Nat) : Nat := roundUnits (i * i * 2 ^ 149 * 2 ^ 149) (denUnits u)

section
variable {u : Nat} (hlo : 2 ^ 129 ≤ u) (hhi : u ≤ 2 ^ 161)
include hlo hhi

theorem squareUnits_spec :
    roundPattern (u * u) (2 ^ 149) < infPattern ∧ 2 ^ 109 ≤ squareUnits u ∧ squareUnits u ≤ 2 ^ 173 := by
  have hup : u * u ≤ 2 ^ 173 * 2 ^ 149 := (Nat.mul_le_mul hhi hhi).trans_eq (by norm_num)
  have hlow : 2 ^ 109 * 2 ^ 149 ≤ u * u := (show _ = 2 ^ 129 * 2 ^ 129 by norm_num).trans_le (Nat.mul_le_mul hlo hlo)
  have hlt := roundPattern_lt_of_le (Nat.two_pow_pos 149) (isBinary32_two_pow (by decide)) hup
  exact ⟨hlt, le_roundUnits (Nat.two_pow_pos _) hlt (isBinary32_two_pow (by decide)) hlow,
    roundUnits_le (Nat.two_pow_pos _) (isBinary32_two_pow (by decide)) hup⟩

theorem denUnits_spec :
    roundPattern (2 * 2 ^ 149 * squareUnits u) (2 ^ 149) < infPattern ∧
      2 ^ 110 ≤ denUnits u ∧ denUnits u ≤ 2 ^ 174 := by
  obtain ⟨-, h1, h2⟩ := squareUnits_spec hlo hhi
  have hup : 2 * 2 ^ 149 * squareUnits u ≤ 2 ^ 174 * 2 ^ 149 := by omega
  have hlt := roundPattern_lt_of_le (Nat.two_pow_pos 149) (isBinary32_two_pow (by decide)) hup
  exact ⟨hlt, le_roundUnits (Nat.two_pow_pos _) hlt (isBinary32_two_pow (by decide)) (by omega),
    roundUnits_le (Nat.two_pow_pos _) (isBinary32_two_pow (by decide)) hup⟩

theorem kernelDen_eq : kernelDen (.fin false u) = .fin false (denUnits u) := by
  have hsq : F32.mul (.fin false u) (.fin false u) = .fin false (squareUnits u) :=
    round_eq_fin false (squareUnits_spec hlo hhi).1
  rw [kernelDen, hsq]
  exact round_eq_fin false (denUnits_spec hlo hhi).1

theorem quotient_finite {i : Nat} (hi : i ≤ 4096) :
    roundPattern (i * i * 2 ^ 149 * 2 ^ 149) (denUnits u) < infPattern := by
  obtain ⟨-, h1, -⟩ := denUnits_spec hlo hhi
  have hii : i * i ≤ 4096 * 4096 := Nat.mul_le_mul hi hi
  exact roundPattern_lt_of_le (by omega) (isBinary32_two_pow (k := 212) (by decide)) (by omega)

/-- A raw weight is the exponential of its quotient (R115). -/
theorem rawWeight_eq {r k : Nat} (hk : tapDistance r k ≤ 4096) :
    rawWeight (.fin false u) r k = expNegUnits (quotientUnits u (tapDistance r k)) := by
  have hpos : 0 < denUnits u := (Nat.two_pow_pos _).trans_le (denUnits_spec hlo hhi).2.1
  rw [rawWeight, kernelDen_eq hlo hhi, F32.ofNat, F32.div, if_neg hpos.ne',
    round_eq_fin _ (quotient_finite hlo hhi hk)]
  rfl

theorem quotientUnits_zero : quotientUnits u 0 = 0 := by
  have hpos : 0 < denUnits u := (Nat.two_pow_pos _).trans_le (denUnits_spec hlo hhi).2.1
  exact Nat.le_zero.1 (roundUnits_le hpos isBinary32_zero (by simp))

/-- The weight of the centre tap is 1 (R115). -/
theorem rawWeight_centre (r : Nat) : rawWeight (.fin false u) r r = F32.ofNat 1 := by
  have h0 : tapDistance r r = 0 := by unfold tapDistance; omega
  rw [rawWeight_eq hlo hhi (by omega), h0, quotientUnits_zero hlo hhi]
  rfl

end

theorem tapDistance_le {r k : Nat} (hk : k ≤ 2 * r) : tapDistance r k ≤ r := by
  unfold tapDistance; omega

/-! ### The kernel in units (R115, R116) -/

/-- The unnormalised weights `es` and their binary32 sum `S`, in units: no weight is above 1, the sum is at least 1 and
is within 8193 times `2^-24` of the exact sum. -/
structure KernelUnits (sigma : F32) (r : Nat) (es : List Nat) (S : Nat) : Prop where
  raw : rawWeights sigma r = es.map (F32.fin false)
  sum : weightSum (rawWeights sigma r) = .fin false S
  length : es.length ≤ 8193
  term_le : ∀ e ∈ es, e ≤ 2 ^ 149
  one_le : 2 ^ 149 ≤ S
  sum_low : (1 - 8193 / 2 ^ 24 : ℝ) * es.sum ≤ S
  sum_high : (1 - 8193 / 2 ^ 24 : ℝ) * S ≤ es.sum

/-- Every sigma past the threshold has a kernel, if the kernel store can hold it. -/
theorem exists_kernelUnits {v : Word} {r : Nat} (h1 : 0x358637BE ≤ v.toNat) (h2 : v.toNat ≤ 0x7F800000)
    (hr : kernelRadius (F32.ofBits v) = some r) (hr' : r ≤ 4096) : ∃ es S, KernelUnits (F32.ofBits v) r es S := by
  obtain ⟨u, hu, hlo, hhi⟩ := sigma_bounds h1 h2 hr hr'
  rw [hu]
  obtain ⟨es, hes, hspec⟩ := exists_map_fin (P := fun e => IsBinary32 e ∧ e ≤ 2 ^ 149) (rawWeights (.fin false u) r) (by
    intro f hf
    obtain ⟨k, hk, rfl⟩ := List.mem_map.1 hf
    have hk := tapDistance_le (Nat.le_of_lt_succ (List.mem_range.1 hk))
    rw [rawWeight_eq hlo hhi (hk.trans hr')]
    obtain ⟨e, he, hb, hle, -⟩ := expNegUnits_error (quotientUnits u (tapDistance r k))
    exact ⟨e, he, hb, hle⟩)
  have hlen : es.length ≤ 8193 := by
    have := congrArg List.length hes
    rw [length_rawWeights, List.length_map] at this
    omega
  have hone : 2 ^ 149 ∈ es := by
    have hmem : F32.fin false (2 ^ 149) ∈ rawWeights (.fin false u) r :=
      List.mem_map.2 ⟨r, List.mem_range.2 (by omega), rawWeight_centre hlo hhi r⟩
    rw [hes] at hmem
    simpa using hmem
  have hsum := sum_le_of_forall_le hlen fun e he => (hspec e he).2.trans (by decide)
  obtain ⟨S, hS, hlow, hhigh, hterm⟩ := sum_error (fun e he => (hspec e he).1) hlen hsum
  exact ⟨es, S, hes, by rw [hes]; exact hS, hlen, fun e he => (hspec e he).2, hterm _ hone, hlow, hhigh⟩

/-- The units of the tap `e /f S`. -/
def tapUnits (S e : Nat) : Nat := roundUnits (e * 2 ^ 149) S

namespace KernelUnits
variable {sigma : F32} {r S : Nat} {es : List Nat} (h : KernelUnits sigma r es S)
include h

theorem sum_pos : 0 < S := (Nat.two_pow_pos _).trans_le h.one_le

/-- No weight exceeds the sum. -/
theorem quotient_le {e : Nat} (he : e ∈ es) : e * 2 ^ 149 ≤ 2 ^ 149 * S := by
  rw [Nat.mul_comm]; exact Nat.mul_le_mul_left _ ((h.term_le e he).trans h.one_le)

theorem tap_finite {e : Nat} (he : e ∈ es) : roundPattern (e * 2 ^ 149) S < infPattern :=
  roundPattern_lt_of_le h.sum_pos (isBinary32_two_pow (by decide)) (h.quotient_le he)

theorem tapUnits_le {e : Nat} (he : e ∈ es) : tapUnits S e ≤ 2 ^ 149 :=
  roundUnits_le h.sum_pos (isBinary32_two_pow (by decide)) (h.quotient_le he)

/-- The stored taps read back as the quotients (R116, R47). -/
theorem map_ofBits : (kernelWeights sigma r).map F32.ofBits = (es.map (tapUnits S)).map (F32.fin false) := by
  rw [kernelWeights, h.sum, h.raw, List.map_map, List.map_map, List.map_map]
  refine List.map_congr_left fun e he => ?_
  have hdiv : F32.div (.fin false e) (.fin false S) = .fin false (tapUnits S e) := by
    rw [F32.div, if_neg h.sum_pos.ne']
    exact round_eq_fin _ (h.tap_finite he)
  simp only [Function.comp_apply, hdiv]
  exact ofBits_toBits (isBinary32_roundUnits (h.tap_finite he))

/-- A tap is within `2^-24` of its exact quotient, and half a unit. -/
theorem tapUnits_error {e : Nat} (he : e ∈ es) :
    |(tapUnits S e : ℝ) - 2 ^ 149 / S * e| ≤ (2 ^ 149 / S / 2 ^ 24 : ℝ) * e + 1 / 2 := by
  have := abs_roundUnits_sub_le h.sum_pos (h.tap_finite he)
  rw [Nat.cast_mul, Nat.cast_pow, Nat.cast_two, mul_comm (e : ℝ), mul_div_right_comm] at this
  rwa [div_mul_eq_mul_div (2 ^ 149 / S : ℝ)]

/-- The exact sum of the taps is within 5e-4 of 1 (R124). -/
theorem tapSum_error : |((es.map (tapUnits S)).sum : ℝ) - 2 ^ 149| * 2000 ≤ 2 ^ 149 := by
  have hS : (0 : ℝ) < S := by exact_mod_cast h.sum_pos
  have herr := abs_sum_map_sub_le es (tapUnits S) (2 ^ 149 / S) (2 ^ 149 / S / 2 ^ 24) fun e he => h.tapUnits_error he
  have hlen : (es.length : ℝ) ≤ 8193 := by exact_mod_cast h.length
  have hm1 : (1 - 8193 / 2 ^ 24 : ℝ) * (2 ^ 149 / S * es.sum) ≤ 2 ^ 149 := by
    rw [mul_left_comm, div_mul_comm]
    exact mul_le_of_le_one_left (by positivity) ((div_le_one hS).2 h.sum_low)
  have hm2 : (1 - 8193 / 2 ^ 24 : ℝ) * 2 ^ 149 ≤ 2 ^ 149 / S * es.sum := by
    rw [div_mul_comm]
    exact mul_le_mul_of_nonneg_right ((le_div_iff₀ hS).2 h.sum_high) (by positivity)
  rw [div_mul_eq_mul_div (2 ^ 149 / S : ℝ)] at herr
  generalize (2 ^ 149 / S * es.sum : ℝ) = m at *
  obtain ⟨herr1, herr2⟩ := abs_le.1 herr
  rw [← le_div_iff₀ (by norm_num), abs_le]
  constructor <;> linarith

end KernelUnits

/-- Settles O22: the weights are the written-out formula, and every stored tap reads back as a quotient at most 1. -/
theorem kernelWeightsLieInUnitInterval : Obligations.KernelWeightsLieInUnitInterval := by
  intro v r h1 h2 hr hr' sigma e S
  have he : ∀ k, e k = rawWeight sigma r k := by
    intro k
    have : (((k : Int) - r) * ((k : Int) - r)).toNat = tapDistance r k * tapDistance r k := by
      rw [tapDistance, ← Int.natAbs_mul_self' ((k : Int) - r)]; rfl
    rw [rawWeight, kernelDen, ← this]
  have hS : S = weightSum (rawWeights sigma r) := by
    rw [weightSum, rawWeights, List.foldl_map]
    simp only [S, he]; rfl
  refine ⟨fun k hk => ?_, ?_, fun w hw => ?_⟩
  · rw [hS, he]
    simp [kernelWeights, rawWeights, Nat.lt_succ_of_le hk]
  · obtain ⟨u, hu, hlo, hhi⟩ := sigma_bounds h1 h2 hr hr'
    rw [he]
    exact (congrArg (rawWeight · r r) hu).trans (rawWeight_centre hlo hhi r)
  · obtain ⟨es, S, hK⟩ := exists_kernelUnits h1 h2 hr hr'
    have hmem := List.mem_map_of_mem (f := F32.ofBits) hw
    rw [hK.map_ofBits, List.map_map] at hmem
    obtain ⟨e, he, hw⟩ := List.mem_map.1 hmem
    exact ⟨_, hw.symm, hK.tapUnits_le he⟩

/-- Settles O23: the taps in units are those of the kernel's quotients, whose sum is bounded. -/
theorem kernelWeightsSumNearOne : Obligations.KernelWeightsSumNearOne := by
  intro v r h1 h2 hr hr'
  obtain ⟨es, S, h⟩ := exists_kernelUnits h1 h2 hr hr'
  exact ⟨_, h.map_ofBits, by exact_mod_cast h.tapSum_error⟩

end Sys2Proof.Machine
end

section
/-! PROOFS. BLUR leaves a constant channel as it is (spec/40_blur.md R125), and its raw weights follow the real Gaussian
(R114, R115). -/

namespace Sys2Proof.Machine

/-! ### A constant line (R119, R125) -/

/-- A list read by position, with any default. -/
theorem map_range_getD {α : Type} (l : List α) (d : α) : (List.range l.length).map (l.getD · d) = l := by
  refine List.ext_getElem (by simp) fun i _ h => ?_
  simp [List.getD_eq_getElem?_getD, List.getElem?_eq_getElem h]

/-- An accumulator less than half from an integer in [0, 255] is rounded to it (R14). -/
theorem toByte_eq_of_near {s : Nat} {v : Byte} (h1 : v.toNat * 2 ^ 149 < s + 2 ^ 148)
    (h2 : s < v.toNat * 2 ^ 149 + 2 ^ 148) : F32.toByte (.fin false s) = v := by
  apply BitVec.eq_of_toNat_eq
  rw [(accumulatorsRoundHalfAwayAndSaturate s).1]
  have := v.isLt
  omega

/-- The units of the product of a tap and a byte. -/
def productUnits (v u : Nat) : Nat := roundUnits (u * (v * 2 ^ 149)) (2 ^ 149)

section
variable {u v : Nat} (hu : u ≤ 2 ^ 149) (hv : v < 2 ^ 8)
include hu hv

theorem product_le : u * (v * 2 ^ 149) ≤ 2 ^ 157 * 2 ^ 149 := by
  calc u * (v * 2 ^ 149) ≤ 2 ^ 149 * (2 ^ 8 * 2 ^ 149) := Nat.mul_le_mul hu (Nat.mul_le_mul_right _ hv.le)
    _ = 2 ^ 157 * 2 ^ 149 := by norm_num

theorem product_finite : roundPattern (u * (v * 2 ^ 149)) (2 ^ 149) < infPattern :=
  roundPattern_lt_of_le (Nat.two_pow_pos _) (isBinary32_two_pow (by decide)) (product_le hu hv)

theorem productUnits_le : productUnits v u ≤ 2 ^ 157 :=
  roundUnits_le (Nat.two_pow_pos _) (isBinary32_two_pow (by decide)) (product_le hu hv)

theorem mul_ofNat : F32.mul (.fin false u) (F32.ofNat v) = .fin false (productUnits v u) := by
  rw [F32.ofNat, F32.mul]
  exact round_eq_fin false (product_finite hu hv)

/-- A product is within `2^-24` of its exact value, and half a unit. -/
theorem productUnits_error : |(productUnits v u : ℝ) - v * u| ≤ (v / 2 ^ 24 : ℝ) * u + 1 / 2 := by
  have := abs_roundUnits_sub_le (Nat.two_pow_pos 149) (product_finite hu hv)
  have e : ((u * (v * 2 ^ 149) : Nat) : ℝ) / (2 ^ 149 : Nat) = v * u := by
    push_cast
    field_simp
  rw [e] at this
  rwa [div_mul_eq_mul_div]

end

/-- The products of at most 8193 taps with one byte, summed: where the taps sum to 1 within 5e-4, the sum is less than
half from the byte (R125). -/
theorem foldl_products {us : List Nat} {v : Nat} (hv : v < 2 ^ 8) (hlen : us.length ≤ 8193)
    (htap : ∀ u ∈ us, u ≤ 2 ^ 149) (hsum : |(us.sum : ℝ) - 2 ^ 149| * 2000 ≤ 2 ^ 149) :
    ∃ s : Nat, ((us.map (productUnits v)).map (F32.fin false)).foldl F32.add F32.zero = .fin false s ∧
      v * 2 ^ 149 < s + 2 ^ 148 ∧ s < v * 2 ^ 149 + 2 ^ 148 := by
  have hlen' : (us.map (productUnits v)).length ≤ 8193 := by rwa [List.length_map]
  have herr := abs_sum_map_sub_le us (productUnits v) v (v / 2 ^ 24) fun u hu => productUnits_error (htap u hu) hv
  obtain ⟨s, hs, hlow, hhigh, -⟩ := sum_error (us := us.map (productUnits v))
    (List.forall_mem_map.2 fun u hu => isBinary32_roundUnits (product_finite (htap u hu) hv)) hlen'
    (sum_le_of_forall_le hlen' (List.forall_mem_map.2 fun u hu => productUnits_le (htap u hu) hv))
  refine ⟨s, hs, ?_⟩
  have hlenR : (us.length : ℝ) ≤ 8193 := by exact_mod_cast hlen
  have hvR : (v : ℝ) ≤ 255 := by exact_mod_cast Nat.le_of_lt_succ hv
  have hv0 : (0 : ℝ) ≤ v := Nat.cast_nonneg v
  rw [div_mul_eq_mul_div] at herr
  rw [← le_div_iff₀ (by norm_num), abs_le] at hsum
  obtain ⟨hsum1, hsum2⟩ := hsum
  obtain ⟨herr1, herr2⟩ := abs_le.1 herr
  have hvu1 : (v : ℝ) * (2 ^ 149 - 2 ^ 149 / 2000) ≤ v * us.sum := mul_le_mul_of_nonneg_left (by linarith) hv0
  have hvu2 : (v : ℝ) * us.sum ≤ v * (2 ^ 149 + 2 ^ 149 / 2000) := mul_le_mul_of_nonneg_left (by linarith) hv0
  generalize ((us.map (productUnits v)).sum : ℝ) = p at *
  generalize (v * us.sum : ℝ) = m at *
  have h1 : (v : ℝ) * 2 ^ 149 < s + 2 ^ 148 := by linarith
  have h2 : (s : ℝ) < v * 2 ^ 149 + 2 ^ 148 := by linarith
  exact ⟨by exact_mod_cast h1, by exact_mod_cast h2⟩

namespace KernelUnits
variable {sigma : F32} {r S : Nat} {es : List Nat} (h : KernelUnits sigma r es S)
include h

/-- The products of a constant line: every tap times the byte. -/
theorem map_tapProduct_const (n p : Nat) (v : Byte) :
    (List.range (2 * r + 1)).map (tapProduct (kernelWeights sigma r) r n (fun _ => v) p) =
      ((es.map (tapUnits S)).map (productUnits v.toNat)).map (F32.fin false) := by
  have htaps : (List.range (2 * r + 1)).map (fun k => F32.ofBits ((kernelWeights sigma r).getD k 0#32)) =
      (es.map (tapUnits S)).map (F32.fin false) := by
    rw [← h.map_ofBits]
    conv_rhs => rw [← map_range_getD (kernelWeights sigma r) 0#32, length_kernelWeights, List.map_map]
    rfl
  calc (List.range (2 * r + 1)).map (tapProduct (kernelWeights sigma r) r n (fun _ => v) p)
      = ((List.range (2 * r + 1)).map (fun k => F32.ofBits ((kernelWeights sigma r).getD k 0#32))).map
          (fun f => F32.mul f (F32.ofNat v.toNat)) := by
        rw [List.map_map]
        exact List.map_congr_left fun k _ => by simp only [Function.comp_apply, tapProduct]
    _ = ((es.map (tapUnits S)).map (F32.fin false)).map (fun f => F32.mul f (F32.ofNat v.toNat)) := by rw [htaps]
    _ = _ := by
      simp only [List.map_map, Function.comp_def]
      exact List.map_congr_left fun e he => mul_ofNat (h.tapUnits_le he) v.isLt

/-- The convolution of a constant line is the constant (R125). -/
theorem conv1_const {n : Nat} {get : Nat → Byte} {v : Byte} (hn : 0 < n) (hget : ∀ j, j < n → get j = v) (p : Nat) :
    conv1 (kernelWeights sigma r) r n get p = v := by
  obtain ⟨s, hs, h1, h2⟩ := foldl_products v.isLt (by rw [List.length_map]; exact h.length)
    (List.forall_mem_map.2 fun e he => h.tapUnits_le he) h.tapSum_error
  rw [conv1_congr p hn (fun _ _ => rfl) hget, conv1, ← List.foldl_map, h.map_tapProduct_const, hs]
  exact toByte_eq_of_near h1 h2

end KernelUnits

/-- Settles O24: a completed BLUR convolves constant columns of constant rows; every other course leaves IMEM. -/
theorem blurKeepsAConstantChannel : Obligations.BlurKeepsAConstantChannel := by
  intro s t c v hp hc hconst ht y x hy hx
  obtain ⟨_, -, e⟩ | ⟨-, _, -, e⟩ | ⟨-, -, -, e⟩ | ⟨hg, he, hn, e⟩ := execBlur_cases s <;> cases e.symm.trans ht
  · exact hconst y x hy hx
  · exact hconst y x hy hx
  · exact hconst y x hy hx
  · obtain ⟨e, -⟩ | ⟨r, hr, hk, ⟨-, e⟩ | ⟨-, e⟩⟩ := blurRun_cases s.latch.geometry (F32.ofBits s.latch.sigma) s <;>
      rw [e]
    · exact hconst y x hy hx
    · exact hconst y x hy hx
    · obtain ⟨h1, h2⟩ := pastThreshold_of_sigma he hn
      obtain ⟨es, S, h⟩ := exists_kernelUnits h1 h2 hr (hk.trans (kmaxRadius_le hp))
      refine (sampleIn_blurEffect s s.latch.geometry _ r hy hx hc).trans ?_
      exact h.conv1_const (by omega) (fun i hi => h.conv1_const (by omega) (fun j hj => hconst i j hi hj) x) y

/-! ### The real Gaussian (R114, R115) -/

/-- Three roundings of a quotient `N / (2 A)`: of `A`, of its double, and of the quotient. -/
theorem quotient_error {A a d N n : ℝ} (hA : 0 < A) (hN : 0 ≤ N) (ha : |a - A| ≤ A / 2 ^ 24)
    (hd : |d - 2 * a| ≤ 2 * a / 2 ^ 24) (hn : |n - N / d| ≤ N / d / 2 ^ 24) :
    |n - N / (2 * A)| ≤ N / (2 * A) / 2 ^ 22 := by
  obtain ⟨ha1, ha2⟩ := abs_le.1 ha
  obtain ⟨hd1, hd2⟩ := abs_le.1 hd
  obtain ⟨hn1, hn2⟩ := abs_le.1 hn
  have hdpos : 0 < d := by linarith
  have hz : 0 ≤ N / d := by positivity
  have e : N / (2 * A) = N / d * (d / (2 * A)) := by field_simp
  have hρ1 : 1 - 1 / 2 ^ 23 ≤ d / (2 * A) := by rw [le_div_iff₀ (by positivity)]; linarith
  have hρ2 : d / (2 * A) ≤ 1 + 1 / 2 ^ 23 + 1 / 2 ^ 48 := by rw [div_le_iff₀ (by positivity)]; linarith
  rw [e]
  generalize N / d = z at *
  generalize d / (2 * A) = ρ at *
  have h1 := mul_le_mul_of_nonneg_left hρ1 hz
  have h2 := mul_le_mul_of_nonneg_left hρ2 hz
  rw [abs_le]
  constructor <;> linarith

theorem mul_exp_neg_le_half {y : ℝ} (hy : 0 ≤ y) : y * Real.exp (-y) ≤ 1 / 2 := by
  have := Real.quadratic_le_exp_of_nonneg hy
  rw [Real.exp_neg, ← div_eq_mul_inv, div_le_iff₀ (Real.exp_pos y)]
  nlinarith [sq_nonneg (y - 1)]

/-- The slope of `e^-x` at the left end bounds its fall. -/
theorem exp_neg_sub_le (a b : ℝ) : Real.exp (-a) - Real.exp (-b) ≤ (b - a) * Real.exp (-a) := by
  have h := mul_le_mul_of_nonneg_right (Real.one_sub_le_exp_neg (b - a)) (Real.exp_nonneg (-a))
  rw [← Real.exp_add, show -(b - a) + -a = -b by ring] at h
  linarith

/-- A relative error of `2^-22` in the argument moves the exponential by little more than `2^-23`. -/
theorem exp_neg_error {x q : ℝ} (hx : 0 ≤ x) (h : |q - x| ≤ x / 2 ^ 22) :
    |Real.exp (-q) - Real.exp (-x)| ≤ 5 / 8 / 2 ^ 22 := by
  obtain ⟨h1, h2⟩ := abs_le.1 h
  have hq : 0 ≤ q := by linarith
  have hxe := mul_exp_neg_le_half hx
  have hqe := mul_exp_neg_le_half hq
  have hxq : x ≤ 5 / 4 * q := by linarith
  have hqx := mul_le_mul_of_nonneg_right h2 (Real.exp_nonneg (-x))
  have hxq' := mul_le_mul_of_nonneg_right (show x - q ≤ 5 / 4 * q / 2 ^ 22 by linarith) (Real.exp_nonneg (-q))
  have ha := exp_neg_sub_le x q
  have hb := exp_neg_sub_le q x
  rw [abs_le]
  constructor <;> linarith

/-- The computed quotient is within `2^-22` of `i^2 / (2 sigma^2)` (R115). -/
theorem quotientUnits_error {u i : Nat} (hlo : 2 ^ 129 ≤ u) (hhi : u ≤ 2 ^ 161) (hi : i ≤ 4096) :
    |(quotientUnits u i : ℝ) / 2 ^ 149 - (i : ℝ) ^ 2 / (2 * ((u : ℝ) / 2 ^ 149) ^ 2)| ≤
      (i : ℝ) ^ 2 / (2 * ((u : ℝ) / 2 ^ 149) ^ 2) / 2 ^ 22 := by
  obtain rfl | hi0 := Nat.eq_zero_or_pos i
  · rw [quotientUnits_zero hlo hhi]; simp
  obtain ⟨hsq, hs1, hs2⟩ := squareUnits_spec hlo hhi
  obtain ⟨hden, hd1, hd2⟩ := denUnits_spec hlo hhi
  have hu : (0 : ℝ) < u := by exact_mod_cast (Nat.two_pow_pos _).trans_le hlo
  have ha := abs_roundUnits_sub_le_of_normal (Nat.two_pow_pos 149) hsq (by
    have := Nat.mul_le_mul hlo hlo
    omega)
  have hd := abs_roundUnits_sub_le_of_normal (Nat.two_pow_pos 149) hden (by omega)
  have hn := abs_roundUnits_sub_le_of_normal (by omega) (quotient_finite hlo hhi hi) (by
    have := Nat.mul_pos hi0 hi0
    omega)
  rw [← squareUnits] at ha
  rw [← denUnits] at hd
  rw [← quotientUnits] at hn
  have ed : ((2 * 2 ^ 149 * squareUnits u : Nat) : ℝ) / (2 ^ 149 : Nat) = 2 * squareUnits u := by
    simp only [Nat.cast_mul, Nat.cast_pow, Nat.cast_ofNat]
    field_simp
  rw [ed] at hd
  have h := quotient_error (by positivity) (by positivity) ha hd hn
  have hx : (i : ℝ) ^ 2 / (2 * ((u : ℝ) / 2 ^ 149) ^ 2) =
      ((i * i * 2 ^ 149 * 2 ^ 149 : Nat) : ℝ) / (2 * (((u * u : Nat) : ℝ) / (2 ^ 149 : Nat))) / 2 ^ 149 := by
    simp only [Nat.cast_mul, Nat.cast_pow, Nat.cast_ofNat]
    field_simp
  rw [hx, ← sub_div, abs_div, abs_of_pos (by positivity : (0 : ℝ) < 2 ^ 149), div_right_comm _ _ (2 ^ 22 : ℝ)]
  gcongr

/-- The square of the distance from the centre. -/
theorem tapDistance_sq (r k : Nat) : (tapDistance r k : ℝ) ^ 2 = ((k : ℝ) - r) ^ 2 := by
  rw [tapDistance, Nat.cast_natAbs]
  push_cast
  exact sq_abs _

/-- The rounding of an exponential, a value at most 1. -/
theorem abs_sub_exp_le {e n : Nat} (h : |(e : ℝ) - expUnits n| ≤ expUnits n / 2 ^ 24 + 1) :
    |(e : ℝ) / 2 ^ 149 - Real.exp (-(n : ℝ) / 2 ^ 149)| ≤ 1 / 2 ^ 24 + 1 / 2 ^ 149 := by
  have hpos : (0 : ℝ) < 2 ^ 149 := by positivity
  have hE : Real.exp (-(n : ℝ) / 2 ^ 149) = expUnits n / 2 ^ 149 := (mul_div_cancel_right₀ _ hpos.ne').symm
  have hle := expUnits_le n
  rw [hE, ← sub_div, abs_div, abs_of_pos hpos, div_le_iff₀ hpos]
  linarith

/-- Settles O60: the error of the quotient under the exponential, and the rounding of the exponential. -/
theorem kernelWeightsFollowTheGaussian : Obligations.KernelWeightsFollowTheGaussian := by
  intro v r u k h1 hv hr hr' hk
  have h2 : v.toNat ≤ 0x7F800000 := by
    obtain ⟨hlt, -, -⟩ | ⟨-, hneg, -⟩ := ofBits_finite hv
    · exact hlt.le
    · cases hneg
  obtain ⟨u', hu', hlo, hhi⟩ := sigma_bounds h1 h2 hr hr'
  obtain rfl : u = u' := (F32.fin.inj (hv.symm.trans hu')).2
  have hi := (tapDistance_le hk).trans hr'
  obtain ⟨e, he, -, -, herr⟩ := expNegUnits_error (quotientUnits u (tapDistance r k))
  refine ⟨e, by rw [hv, rawWeight_eq hlo hhi hi, he], ?_⟩
  have hround := abs_sub_exp_le herr
  have hquot := exp_neg_error (by positivity) (quotientUnits_error hlo hhi hi)
  rw [tapDistance_sq, ← neg_div, ← neg_div] at hquot
  exact (abs_sub_le _ _ _).trans ((add_le_add hround hquot).trans (by norm_num))

end Sys2Proof.Machine
end

section
/-! PROOFS. GRAY's exact luma in place (spec/41_grayscale.md R140 to R144), and what GRAY and EDGES read of the image:
no alpha (R142, spec/42_sobel.md R162). -/

namespace Sys2Proof.Machine

/-! ### The reduction of a pixel (R141, R142) -/

/-- A luma is at most 255, so its byte holds it exactly. -/
theorem toNat_luma (r g b : Byte) :
    (luma r g b).toNat = (299 * r.toNat + 587 * g.toNat + 114 * b.toNat + 500) / 1000 := by
  rw [luma, BitVec.toNat_ofNat]; omega

theorem toNat_reducePixel (s : State) (g : Geometry) (y x : Nat) :
    (s.reducePixel g y x).toNat = if g.c = 1 then (s.sampleIn g y x 0).toNat else
      (299 * (s.sampleIn g y x 0).toNat + 587 * (s.sampleIn g y x 1).toNat + 114 * (s.sampleIn g y x 2).toNat + 500)
        / 1000 := by
  unfold State.reducePixel
  split
  · rfl
  · exact toNat_luma _ _ _

/-- The reduction reads channels 0 to 2 only. -/
theorem reducePixel_congr {s t : State} {g : Geometry} {y x : Nat}
    (h : ∀ ch, ch < 3 → s.sampleIn g y x ch = t.sampleIn g y x ch) : s.reducePixel g y x = t.reducePixel g y x := by
  simp only [State.reducePixel, h 0 (by decide), h 1 (by decide), h 2 (by decide)]

/-- GRAY stores the reduced pixel at `base + y*W + x` (R143). -/
theorem read_grayEffect (s : State) (g : Geometry) {y x : Nat} (hy : y < g.h) (hx : x < g.w) :
    (grayEffect g s).imem.read (g.base + (y * g.w + x)) = s.reducePixel g y x := by
  have h := read_writeBytes_raster s.imem g.base (c := 1) (ch := 0) (fun y x _ => s.reducePixel g y x) hy hx Nat.one_pos
  rwa [sampleIndex, Nat.mul_one] at h

/-! ### GRAY and EDGES past their checks -/

theorem CmdError.code_ne_zero (e : CmdError) : e.code ≠ 0#4 := by cases e <;> decide

theorem execGray_run {s : State} (hv : s.latch.geometry.Valid s.params) :
    exec .gray s = .next (grayEffect s.latch.geometry s).completeOk := by
  simp only [exec, execGray, (geometryError_eq_none_iff _ _).2 hv]

theorem execEdges_run {s : State} (hv : s.latch.geometry.Valid s.params)
    (hs : edgesScratchBytes s.latch.geometry ≤ s.params.scratchBytes) :
    exec .edges s = .next (edgesEffect s.latch.geometry s).completeOk := by
  simp only [exec, execEdges, (geometryError_eq_none_iff _ _).2 hv, hs.not_gt, if_false]

/-- GRAY reports no error only where its check passes. -/
theorem valid_of_execGray {s t : State} (h : exec .gray s = .next t) (he : t.status.errCode = 0#4) :
    s.latch.geometry.Valid s.params := by
  obtain ⟨e, -, h'⟩ | ⟨hg, -⟩ := execGray_cases s
  · cases h'.symm.trans h
    exact absurd he e.code_ne_zero
  · exact (geometryError_eq_none_iff _ _).1 hg

/-- EDGES reports no error only where both its checks pass. -/
theorem valid_of_execEdges {s t : State} (h : exec .edges s = .next t) (he : t.status.errCode = 0#4) :
    s.latch.geometry.Valid s.params ∧ edgesScratchBytes s.latch.geometry ≤ s.params.scratchBytes := by
  obtain ⟨e, -, h'⟩ | ⟨-, -, h'⟩ | ⟨hg, hs, -⟩ := execEdges_cases s
  · cases h'.symm.trans h
    exact absurd he e.code_ne_zero
  · cases h'.symm.trans h
    exact absurd he (CmdError.code_ne_zero .scratch)
  · exact ⟨(geometryError_eq_none_iff _ _).1 hg, hs⟩

/-- Settles O25: the bytes of the gray image, and GRAY's frame. -/
theorem grayWritesExactLumaInPlace : Obligations.GrayWritesExactLumaInPlace := by
  intro s hv W H C base In
  have hexec := execGray_run hv
  refine ⟨_, hexec, fun y x hy hx => ?_, (exec_frame hexec).plane (.inr rfl), rfl⟩
  calc _ = (s.reducePixel s.latch.geometry y x).toNat := congrArg _ (read_grayEffect s s.latch.geometry hy hx)
    _ = _ := toNat_reducePixel s s.latch.geometry y x

/-! ### A repeated GRAY (R144) -/

/-- A single-channel image is its own gray image: the bytes of its region, in order. -/
theorem grayImage_singleChannel (s : State) {g : Geometry} (hc : g.c = 1) :
    s.grayImage g = s.imem.readBytes g.base (g.h * g.w) := by
  rw [State.grayImage, raster, Memory.readBytes, Nat.mul_one]
  refine List.map_congr_left fun i _ => ?_
  rw [State.reducePixel, if_pos hc, State.sampleIn, Geometry.addr, sampleIndex, hc, Nat.div_one, Nat.div_add_mod',
    Nat.mul_one, Nat.add_zero]

/-- Bytes written back where they were read change nothing. -/
theorem read_writeBytes_readBytes (m : Memory) (a n b : Nat) :
    (m.writeBytes a (m.readBytes a n)).read b = m.read b := by
  rw [read_writeBytes]
  split
  · next h => simp [Memory.readBytes, Nat.add_sub_cancel' h.1]
  · rfl

/-- GRAY on a single-channel image leaves every byte of IMEM. -/
theorem read_grayEffect_singleChannel (s : State) {g : Geometry} (hc : g.c = 1) (a : Nat) :
    (grayEffect g s).imem.read a = s.imem.read a := by
  rw [grayEffect_imem, grayImage_singleChannel s hc, read_writeBytes_readBytes]

/-- The image a successful GRAY leaves: one channel, in the same place. -/
def Geometry.grayed (g : Geometry) : Geometry := { g with c := 1 }

theorem Geometry.Valid.grayed {p : Config.Params} {g : Geometry} (h : g.Valid p) : g.grayed.Valid p := by
  have ⟨hw, hh, _⟩ := h
  refine ⟨hw, hh, .inl rfl, ?_⟩
  calc g.base + g.w * g.h * 1 = g.base + g.h * g.w := by rw [Nat.mul_one, Nat.mul_comm]
    _ ≤ p.imemBytes := (regionBytes_le h).2

/-- A command started after a GRAY runs on the grayed image: the live registers are those GRAY latched, but for
IMG_CHANNELS (R46, R69, R143). -/
theorem geometry_after_gray {s : State} (h : s.Inv) (hb : s.status.busy = true) (v : Word) :
    ((grayEffect s.latch.geometry s).completeOk.startCommand v).latch.geometry = s.latch.geometry.grayed := by
  rw [h.latched hb]; rfl

/-- Settles O26: the second GRAY runs on a single-channel image. -/
theorem repeatedGrayChangesNothing : Obligations.RepeatedGrayChangesNothing := by
  intro s t hinv hb hv ht
  cases (execGray_run hv).symm.trans ht
  have hg := geometry_after_gray hinv hb 0x4#32
  refine ⟨_, execGray_run (by rw [hg]; exact hv.grayed), fun a => ?_, rfl, rfl⟩
  exact read_grayEffect_singleChannel _ (by rw [hg]; rfl) a

/-! ### Alpha (R142, R162) -/

/-- The two images agree on every pixel's channels 0 to 2. -/
def SameColour (g : Geometry) (s t : State) : Prop :=
  ∀ y x ch, y < g.h → x < g.w → ch < 3 → s.sampleIn g y x ch = t.sampleIn g y x ch

section
variable {g : Geometry} {s t : State} (h : SameColour g s t)
include h

theorem SameColour.reducePixel_eq {y x : Nat} (hy : y < g.h) (hx : x < g.w) :
    s.reducePixel g y x = t.reducePixel g y x :=
  reducePixel_congr fun ch hch => h y x ch hy hx hch

theorem SameColour.grayImage_eq : s.grayImage g = t.grayImage g :=
  raster_congr fun _ _ _ hy hx _ => h.reducePixel_eq hy hx

/-- EDGES emits the same rows: the sweep sees the reduced image only. -/
theorem SameColour.sweptRows_eq (hw : 0 < g.w) (hh : 0 < g.h) (hs : s.hidden.rows.Ok) (ht : t.hidden.rows.Ok) :
    (sobelSweep (scratchGray (s.grayInScratch g) g.w) g.w g.h g.h 0 s.hidden.rows).2 =
      (sobelSweep (scratchGray (t.grayInScratch g) g.w) g.w g.h g.h 0 t.hidden.rows).2 := by
  have hgray (y x : Nat) (hy : y < g.h) (hx : x < g.w) :
      scratchGray (s.grayInScratch g) g.w y x = scratchGray (t.grayInScratch g) g.w y x := by
    rw [scratchGray_grayInScratch s g hy hx, scratchGray_grayInScratch t g hy hx, h.reducePixel_eq hy hx]
  rw [sobelSweep_image_congr hw hh hgray]
  exact sobelSweep_congr _ g.h 0 hs ht fun j hj => absurd hj (Nat.not_lt_zero j)

end

/-- The same bytes written to two memories read the same inside the written range. -/
theorem read_writeBytes_congr (m m' : Memory) (a : Nat) {bs bs' : List Byte} (hbs : bs = bs') {p : Nat}
    (hp : p < bs.length) : (m.writeBytes a bs).read (a + p) = (m'.writeBytes a bs').read (a + p) := by
  subst hbs
  rw [read_writeBytes_of_lt m a bs p hp, read_writeBytes_of_lt m' a bs p hp]

/-- Settles O32: both commands make their bytes of the reduced image, which alpha does not reach. -/
theorem alphaNeverReachesGrayOrEdges : Obligations.AlphaNeverReachesGrayOrEdges := by
  intro i s s' t t' hi hinv hinv' hp hl hc hsame ht ht' he p hlt
  have hcolour : SameColour s.latch.geometry s' s := fun y x ch hy hx hch => by
    have haddr : s.latch.geometry.addr y x ch =
        s.latch.base.toNat + ((y * s.latch.w.toNat + x) * 4 + ch) := by
      simp [Geometry.addr, sampleIndex, Latch.geometry, hc]
    rw [State.sampleIn, State.sampleIn, haddr, hsame y x ch hy hx hch]
  have hlen : p < s.latch.geometry.h * s.latch.geometry.w := by rwa [Nat.mul_comm]
  obtain rfl | rfl := hi
  · have hv := valid_of_execGray ht he
    have hv' : s'.latch.geometry.Valid s'.params := by rwa [hl, hp]
    cases (execGray_run hv).symm.trans ht
    cases (execGray_run hv').symm.trans ht'
    rw [hl]
    exact read_writeBytes_congr _ _ _ hcolour.grayImage_eq (by rwa [length_grayImage])
  · obtain ⟨hv, hs⟩ := valid_of_execEdges ht he
    have hv' : s'.latch.geometry.Valid s'.params := by rwa [hl, hp]
    have hs' : edgesScratchBytes s'.latch.geometry ≤ s'.params.scratchBytes := by rwa [hl, hp]
    cases (execEdges_run hv hs).symm.trans ht
    cases (execEdges_run hv' hs').symm.trans ht'
    rw [hl]
    have hrows := hcolour.sweptRows_eq hv.1 hv.2.1 ⟨hinv'.dxbOk, hinv'.dybOk⟩ ⟨hinv.dxbOk, hinv.dybOk⟩
    exact read_writeBytes_congr _ _ _ (congrArg List.flatten hrows) (by rwa [length_edgesOutput])

end Sys2Proof.Machine
end

section
/-! PROOFS. EDGES' cyclic-buffer sweep leaves the closed form of spec/42_sobel.md R152 to R157, and what follows from
it: EDGES after GRAY, uniform images, the nearest root, the scratch check. -/

namespace Sys2Proof.Machine

/-! ### The scratch check (R160) -/

theorem execEdges_scratch {s : State} (hv : s.latch.geometry.Valid s.params)
    (hs : s.params.scratchBytes < edgesScratchBytes s.latch.geometry) :
    exec .edges s = .next (s.failWith .scratch) := by
  simp only [exec, execEdges, (geometryError_eq_none_iff _ _).2 hv, hs, if_true]

/-- Settles O27: R160's check comes right after the geometry checks. -/
theorem edgesScratchError : Obligations.EdgesScratchError := fun _ hv hs => execEdges_scratch hv hs

/-! ### The rounded root (R157) -/

theorem roundSqrt_eq (N : Nat) :
    roundSqrt N = Nat.sqrt N + if Nat.sqrt N * Nat.sqrt N + Nat.sqrt N < N then 1 else 0 := by
  simp only [roundSqrt, floorSqrt_eq]

/-- Settles O29: `m^2 ≤ N < (m+1)^2` for the integer root `m`, and `m^2 + m` is the last integer below `(m + 1/2)^2`. -/
theorem roundedRootIsNearest : Obligations.RoundedRootIsNearest := by
  intro N
  have hlo := Nat.sqrt_le N
  have hhi := Nat.lt_succ_sqrt N
  rw [roundSqrt_eq]
  generalize Nat.sqrt N = m at hlo hhi ⊢
  split
  · next hup =>
    refine ⟨by nlinarith, fun _ => ?_, by omega⟩
    rw [show 2 * (m + 1) - 1 = 2 * m + 1 by omega]
    nlinarith
  · next hdown =>
    refine ⟨by nlinarith, fun hN => ?_, by rintro rfl; nlinarith⟩
    obtain ⟨k, rfl⟩ : ∃ k, m = k + 1 := Nat.exists_eq_succ_of_ne_zero (by rintro rfl; omega)
    rw [show 2 * (k + 1 + 0) - 1 = 2 * k + 1 by omega]
    nlinarith

theorem toNat_magnitudeByte (gx gy : Int) :
    (magnitudeByte gx gy).toNat = min (roundSqrt (gx * gx + gy * gy).toNat) 255 := by
  rw [magnitudeByte, BitVec.toNat_ofNat]; omega

/-! ### The row buffers hold the last three derivative rows (R158) -/

/-- The slots of row `j` hold its derivatives. -/
def RowBuffers.HoldsRow (gr : Nat → Nat → Byte) (w h : Nat) (b : RowBuffers) (j : Nat) : Prop :=
  b.dxb.getD (j % 3) [] = derivativeRow w (sobelDx gr w h j) ∧
    b.dyb.getD (j % 3) [] = derivativeRow w (sobelDy gr w h j)

/-- The rows before `i` are held, as far back as three slots reach. -/
def RowBuffers.HoldsRecent (gr : Nat → Nat → Byte) (w h i : Nat) (b : RowBuffers) : Prop :=
  ∀ j, j < i → i ≤ j + 3 → b.HoldsRow gr w h j

section
variable {gr : Nat → Nat → Byte} {w h i o : Nat} {b : RowBuffers}

/-- Producing row `i` overwrites row `i - 3`, which is out of reach from then on. -/
theorem holdsRecent_produce (hb : b.Ok) (hr : b.HoldsRecent gr w h i) :
    (b.produce gr w h i).HoldsRecent gr w h (i + 1) := by
  intro j hj hreach
  simp only [RowBuffers.HoldsRow, RowBuffers.produce, getD_set_slot hb.length.1, getD_set_slot hb.length.2]
  obtain rfl | hlt : j = i ∨ j < i := by omega
  · simp only [if_true, and_self]
  · have hslot : ¬ i % 3 = j % 3 := by omega
    simp only [hslot, if_false]
    exact hr j hlt (by omega)

/-- A 16-bit cell holds a derivative exactly (R49). -/
theorem slotCell_derivativeRow {rows : List (List (BitVec 16))} {d : Nat → Int} {x : Nat}
    (hslot : rows.getD (i % 3) [] = derivativeRow w d) (hx : x < w) (hd : -255 ≤ d x ∧ d x ≤ 255) :
    slotCell rows i x = d x := by
  have hcell : (derivativeRow w d).getD x 0#16 = BitVec.ofInt 16 (d x) := by
    simp [derivativeRow, List.getD_eq_getElem?_getD, hx]
  rw [slotCell, hslot, hcell, BitVec.toInt_ofInt]
  exact Int.bmod_eq_of_le (by omega) (by omega)

theorem RowBuffers.HoldsRow.slotCell_dxb (hr : b.HoldsRow gr w h i) {x : Nat} (hx : x < w) :
    slotCell b.dxb i x = sobelDx gr w h i x :=
  slotCell_derivativeRow hr.1 hx (sobelDx_range ..)

theorem RowBuffers.HoldsRow.slotCell_dyb (hr : b.HoldsRow gr w h i) {x : Nat} (hx : x < w) :
    slotCell b.dyb i x = sobelDy gr w h i x :=
  slotCell_derivativeRow hr.2 hx (sobelDy_range ..)

/-- Output row `o` is the closed form's once the buffers hold rows clamp(o-1), o, clamp(o+1) (R155 to R159). -/
theorem outputRow_eq_sobelMag (hup : b.HoldsRow gr w h (clampIndex (o - 1) h)) (hrow : b.HoldsRow gr w h o)
    (hdown : b.HoldsRow gr w h (clampIndex (o + 1) h)) :
    b.outputRow w h o = (List.range w).map (sobelMag gr w h o) := by
  refine List.map_congr_left fun x hx => ?_
  have hx : x < w := List.mem_range.1 hx
  have hw : 0 < w := by omega
  have hgx : b.gx h o x = sobelGx gr w h o x := by
    rw [RowBuffers.gx, hup.slotCell_dxb hx, hrow.slotCell_dxb hx, hdown.slotCell_dxb hx, sobelGx]
  have hgy : b.gy w o x = sobelGy gr w h o x := by
    rw [RowBuffers.gy, hrow.slotCell_dyb (clampIndex_lt hw _), hrow.slotCell_dyb hx,
      hrow.slotCell_dyb (clampIndex_lt hw _), sobelGy]
  rw [hgx, hgy, sobelMag]

theorem mem_rowsReady : o ∈ rowsReady h i ↔ (1 ≤ i ∧ o = i - 1) ∨ (i + 1 = h ∧ o = i) := by
  simp only [rowsReady, List.mem_append]
  split <;> split <;> simp [*]

/-- The rows that become computable with row `i` need no row that three slots no longer hold. -/
theorem rowsReady_reach (ho : o ∈ rowsReady h i) (hi : i < h) :
    i ≤ o + 2 ∧ i ≤ clampIndex (o - 1) h + 2 ∧ i ≤ clampIndex (o + 1) h + 2 := by
  have hcase := mem_rowsReady.1 ho
  simp only [clampIndex, clamp]
  omega

end

/-- The sweep emits the closed form's rows, in the order in which they become computable (R158). -/
theorem sobelSweep_rows (gr : Nat → Nat → Byte) (w : Nat) {h : Nat} (n i : Nat) {b : RowBuffers} (hi : i + n ≤ h)
    (hb : b.Ok) (hr : b.HoldsRecent gr w h i) :
    (sobelSweep gr w h n i b).2 =
      ((List.range' i n).flatMap (rowsReady h)).map fun o => (List.range w).map (sobelMag gr w h o) := by
  induction n generalizing i b with
  | zero => rfl
  | succ n ih =>
    have hr' := holdsRecent_produce hb hr
    have hrows : (rowsReady h i).map ((b.produce gr w h i).outputRow w h) =
        (rowsReady h i).map fun o => (List.range w).map (sobelMag gr w h o) :=
      List.map_congr_left fun o ho => by
        obtain ⟨hrow, hup, hdown⟩ := rowsReady_needs ho
        obtain ⟨hrow', hup', hdown'⟩ := rowsReady_reach ho (by omega)
        exact outputRow_eq_sobelMag (hr' _ hup (by omega)) (hr' _ hrow (by omega)) (hr' _ hdown (by omega))
    have hrest := ih (i + 1) (by omega) (produce_ok gr w h i b hb.1 hb.2) hr'
    rw [sobelSweep, hrows, hrest, List.range'_succ, List.flatMap_cons, List.map_append]

/-- After `n` rows of fewer than `h`, the output rows below `n - 1` have become computable. -/
theorem flatMap_rowsReady_of_lt {n h : Nat} (hn : n < h) :
    (List.range n).flatMap (rowsReady h) = List.range (n - 1) := by
  induction n with
  | zero => rfl
  | succ n ih =>
    rw [List.range_succ, List.flatMap_append, ih (by omega), List.flatMap_singleton, rowsReady,
      if_neg (show ¬ n + 1 = h by omega)]
    cases n with
    | zero => rfl
    | succ m => simp [List.range_succ]

/-- The sweep over all rows makes every output row computable, once and in order. -/
theorem flatMap_rowsReady (h : Nat) : (List.range h).flatMap (rowsReady h) = List.range h := by
  cases h with
  | zero => rfl
  | succ n =>
    rw [List.range_succ, List.flatMap_append, flatMap_rowsReady_of_lt (Nat.lt_succ_self n), List.flatMap_singleton,
      rowsReady, if_pos rfl]
    cases n with
    | zero => rfl
    | succ m => simp [List.range_succ]

/-- A single-channel raster is its rows, one after another (R65). -/
theorem flatten_rows_eq_raster (w h : Nat) (f : Nat → Nat → Byte) :
    ((List.range h).map fun y => (List.range w).map (f y)).flatten = raster w h 1 fun y x _ => f y x := by
  induction h with
  | zero => simp [raster]
  | succ h ih =>
    have hrow : (List.range w).map (f h) = (List.range w).map fun x => f ((h * w + x) / w) ((h * w + x) % w) :=
      List.map_congr_left fun x hx => by rw [pixel_div (List.mem_range.1 hx), pixel_mod (List.mem_range.1 hx)]
    rw [List.range_succ, List.map_append, List.flatten_append, ih, List.map_singleton, List.flatten_singleton, hrow]
    simp [raster, Nat.add_mul, List.range_add, Function.comp_def]

/-- The whole sweep leaves the closed form at every pixel, whatever the buffers held before (R152 to R159). -/
theorem sobelSweep_output (gr : Nat → Nat → Byte) (w h : Nat) {b : RowBuffers} (hb : b.Ok) :
    (sobelSweep gr w h h 0 b).2.flatten = raster w h 1 fun y x _ => sobelMag gr w h y x := by
  rw [sobelSweep_rows gr w h 0 (Nat.zero_add h).le hb fun j hj => absurd hj (Nat.not_lt_zero j), ← List.range_eq_range',
    flatMap_rowsReady, flatten_rows_eq_raster]

/-! ### The bytes EDGES leaves (R150, R151) -/

/-- The closed form over the reduced image. -/
def State.edgeImage (s : State) (g : Geometry) : List Byte :=
  raster g.w g.h 1 fun y x _ => sobelMag (s.reducePixel g) g.w g.h y x

@[simp] theorem length_edgeImage (s : State) (g : Geometry) : (s.edgeImage g).length = g.h * g.w := by
  simp [State.edgeImage]

/-- The closed form reads the image inside its bounds only. -/
theorem sobelMag_congr {gr gr' : Nat → Nat → Byte} {w h : Nat} (hw : 0 < w) (hh : 0 < h)
    (hgr : ∀ y x, y < h → x < w → gr y x = gr' y x) (y x : Nat) : sobelMag gr w h y x = sobelMag gr' w h y x := by
  have hclamped (i j : Int) : clampedSample gr w h i j = clampedSample gr' w h i j :=
    hgr _ _ (clampIndex_lt hh i) (clampIndex_lt hw j)
  simp only [sobelMag, sobelGx, sobelGy, sobelDx, sobelDy, hclamped]

/-- EDGES stores the closed form from `base` on. -/
theorem imem_edgesEffect {s : State} (hinv : s.Inv) {g : Geometry} (hw : 0 < g.w) (hh : 0 < g.h) :
    (edgesEffect g s).imem = s.imem.writeBytes g.base (s.edgeImage g) := by
  have hsweep : (sobelSweep (scratchGray (s.grayInScratch g) g.w) g.w g.h g.h 0 s.hidden.rows).2.flatten =
      s.edgeImage g := by
    rw [sobelSweep_image_congr hw hh fun y x hy hx => scratchGray_grayInScratch s g hy hx]
    exact sobelSweep_output _ _ _ ⟨hinv.dxbOk, hinv.dybOk⟩
  exact congrArg (s.imem.writeBytes g.base) hsweep

/-- The byte EDGES leaves for pixel (y, x). -/
theorem read_edgesEffect {s : State} (hinv : s.Inv) {g : Geometry} {y x : Nat} (hy : y < g.h) (hx : x < g.w) :
    (edgesEffect g s).imem.read (g.base + (y * g.w + x)) = sobelMag (s.reducePixel g) g.w g.h y x := by
  rw [imem_edgesEffect hinv (by omega) (by omega)]
  have hread := read_writeBytes_raster s.imem g.base (c := 1) (ch := 0)
    (fun y x _ => sobelMag (s.reducePixel g) g.w g.h y x) hy hx Nat.one_pos
  rwa [sampleIndex, Nat.mul_one] at hread

/-- A clamped index as an integer (R10, R15). -/
theorem cast_clampIndex {n : Nat} (hn : 0 < n) (v : Int) :
    ((clampIndex v n : Nat) : Int) = min (max v 0) ((n : Int) - 1) := by
  simp only [clampIndex, clamp]; omega

/-- Settles O28: the swept bytes are the closed form's, and the statement writes that form with integer indices. -/
theorem edgesSweepEqualsClosedForm : Obligations.EdgesSweepEqualsClosedForm := by
  intro s hinv hv hs W H C base In G cl I dx dy Gx Gy N m
  have hexec := execEdges_run hv hs
  refine ⟨_, hexec, fun y x hy hx => ?_, (exec_frame hexec).plane (.inl rfl), rfl⟩
  let gr := s.reducePixel s.latch.geometry
  have hW (v : Int) : ((clampIndex v W : Nat) : Int) = cl v W := cast_clampIndex hv.1 v
  have hH (v : Int) : ((clampIndex v H : Nat) : Int) = cl v H := cast_clampIndex hv.2.1 v
  have hI (i j : Int) : I i j = (clampedSample gr W H i j).toNat :=
    congrArg Nat.cast (toNat_reducePixel s s.latch.geometry (clampIndex i H) (clampIndex j W)).symm
  have hdx (i j : Nat) : dx i j = sobelDx gr W H i j := by simp only [dx, hI, sobelDx]
  have hdy (i j : Nat) : dy i j = sobelDy gr W H i j := by simp only [dy, hI, sobelDy]
  have hGx : Gx y x = sobelGx gr W H y x := by simp only [Gx, ← hH, hdx, sobelGx]
  have hGy : Gy y x = sobelGy gr W H y x := by simp only [Gy, ← hW, hdy, sobelGy]
  have hN : N y x = (sobelGx gr W H y x * sobelGx gr W H y x + sobelGy gr W H y x * sobelGy gr W H y x).toNat := by
    simp only [N, hGx, hGy, sq]
  calc _ = (sobelMag gr W H y x).toNat := congrArg _ (read_edgesEffect hinv (g := s.latch.geometry) hy hx)
    _ = min (roundSqrt (N y x)) 255 := by rw [sobelMag, toNat_magnitudeByte, hN]
    _ = _ := by rw [roundSqrt_eq]

/-! ### EDGES after GRAY (R143, R151) -/

/-- The reduced image a GRAY leaves is the reduced image it saw. -/
theorem reducePixel_grayed {s t : State} {g : Geometry} (ht : t.imem = (grayEffect g s).imem) {y x : Nat} (hy : y < g.h)
    (hx : x < g.w) : t.reducePixel g.grayed y x = s.reducePixel g y x := by
  have haddr : g.grayed.addr y x 0 = g.base + (y * g.w + x) := by simp [Geometry.addr, sampleIndex, Geometry.grayed]
  rw [State.reducePixel, if_pos (show g.grayed.c = 1 from rfl), State.sampleIn, haddr, ht, read_grayEffect s g hy hx]

theorem edgeImage_grayed {s t : State} {g : Geometry} (hw : 0 < g.w) (hh : 0 < g.h)
    (ht : t.imem = (grayEffect g s).imem) : t.edgeImage g.grayed = s.edgeImage g :=
  raster_congr fun y x _ _ _ _ => sobelMag_congr hw hh (fun _ _ hy hx => reducePixel_grayed ht hy hx) y x

/-- Settles O31: both runs of EDGES see one reduced image, so they store the same bytes. -/
theorem grayThenEdgesEqualsEdges : Obligations.GrayThenEdgesEqualsEdges := by
  intro s t hinv hb hv hs ht
  cases (execGray_run hv).symm.trans ht
  let g := s.latch.geometry
  let t := (grayEffect g s).completeOk.startCommand 0x2#32
  have hinv' : t.Inv := Inv_startCommand (Inv_gray hinv hb hv) _
  have hg : t.latch.geometry = g.grayed := geometry_after_gray hinv hb _
  have hv' : t.latch.geometry.Valid t.params := by rw [hg]; exact hv.grayed
  have hs' : edgesScratchBytes t.latch.geometry ≤ t.params.scratchBytes := by rw [hg]; exact hs
  have himage : t.edgeImage g.grayed = s.edgeImage g := edgeImage_grayed hv.1 hv.2.1 rfl
  refine ⟨_, _, execEdges_run hv' hs', execEdges_run hv hs, fun a => ?_, rfl, rfl⟩
  obtain ha | ha := Nat.lt_or_ge a (g.w * g.h)
  · left
    rw [completeOk_imem, completeOk_imem, hg, imem_edgesEffect hinv' (g := g.grayed) hv.1 hv.2.1,
      imem_edgesEffect hinv hv.1 hv.2.1]
    exact read_writeBytes_congr _ _ _ himage (by rwa [himage, length_edgeImage, Nat.mul_comm])
  · exact .inr ha

/-! ### Uniform images (R162) -/

/-- Every derivative of a constant image is 0, so every magnitude is. -/
theorem sobelMag_const (v : Byte) (w h y x : Nat) : sobelMag (fun _ _ => v) w h y x = 0#8 := by
  simp only [sobelMag, sobelGx, sobelGy, sobelDx, sobelDy, clampedSample, sub_self, mul_zero, add_zero]
  decide

/-- The reduced image of a uniform image is uniform. -/
theorem reducePixel_uniform {s : State} {g : Geometry} {v : Nat → Byte} (hc : g.c = 1 ∨ g.c = 3 ∨ g.c = 4) {y x : Nat}
    (hsample : ∀ ch, ch < g.c → s.sampleIn g y x ch = v ch) :
    s.reducePixel g y x = if g.c = 1 then v 0 else luma (v 0) (v 1) (v 2) := by
  unfold State.reducePixel
  split
  · exact hsample 0 (by omega)
  · rw [hsample 0 (by omega), hsample 1 (by omega), hsample 2 (by omega)]

/-- Settles O30: the closed form over a constant reduced image. -/
theorem edgesOfAUniformImageAreZero : Obligations.EdgesOfAUniformImageAreZero := by
  intro s v hinv hv hs huniform
  refine ⟨_, execEdges_run hv hs, fun p hp => ?_⟩
  have ⟨hw, hh, hc, _⟩ := hv
  have hread := read_edgesEffect hinv (g := s.latch.geometry) (Nat.div_lt_of_lt_mul hp) (Nat.mod_lt p hw)
  rw [sobelMag_congr hw hh fun y x hy hx => reducePixel_uniform hc (huniform y x · hy hx), sobelMag_const] at hread
  rwa [Latch.geometry, Nat.div_add_mod'] at hread

end Sys2Proof.Machine
end

section
/-! PROOFS. MEDIAN's sliding-histogram sweep leaves the order statistic of spec/43_median.md R176, and the rest of
MEDIAN's rules: radius 0, the scratch check, constant channels. -/

namespace Sys2Proof.Machine

/-! ### MEDIAN after its geometry checks (R171, R177) -/

theorem toNat_ne_zero {v : Word} (h : v ≠ 0#32) : v.toNat ≠ 0 := fun e => h (BitVec.eq_of_toNat_eq e)

section
variable {s : State} (hv : s.latch.geometry.Valid s.params)
include hv

theorem execMedian_noOp (hr : s.latch.r = 0#32) : exec .median s = .next s.completeOk := by
  simp [exec, execMedian, (geometryError_eq_none_iff _ _).2 hv, hr]

theorem execMedian_scratch (hr : s.latch.r ≠ 0#32)
    (hs : s.params.scratchBytes < canvasBytes s.latch.geometry s.latch.r.toNat) :
    exec .median s = .next (s.failWith .scratch) := by
  simp only [exec, execMedian, (geometryError_eq_none_iff _ _).2 hv, toNat_ne_zero hr, hs, if_true, if_false]

theorem execMedian_run (hr : s.latch.r ≠ 0#32)
    (hs : canvasBytes s.latch.geometry s.latch.r.toNat ≤ s.params.scratchBytes) :
    exec .median s = .next (medianEffect s.latch.geometry s.latch.r.toNat s).completeOk := by
  simp only [exec, execMedian, (geometryError_eq_none_iff _ _).2 hv, toNat_ne_zero hr, Nat.not_lt.2 hs, if_false]

end

/-- A window is no larger than the canvas it lies in. -/
theorem windowArea_le_canvasBytes {g : Geometry} (hw : 0 < g.w) (hh : 0 < g.h) (r : Nat) :
    windowArea r ≤ canvasBytes g r :=
  Nat.mul_le_mul (by omega) (by omega)

/-- Settles O33: radius 0 completes right after the geometry checks. -/
theorem medianOfRadiusZeroIsANoOp : Obligations.MedianOfRadiusZeroIsANoOp := fun _ hv hr => execMedian_noOp hv hr

/-- Settles O34: the window of a radius from `2^31` on has more than `2^64` bytes, and no canvas is smaller than its
window. -/
theorem medianScratchError : Obligations.MedianScratchError := by
  intro s hv hr
  refine ⟨fun hs => execMedian_scratch hv hr hs, fun hp hbig => execMedian_scratch hv hr ?_⟩
  calc s.params.scratchBytes < 2 ^ 32 := scratchBytes_lt hp
    _ ≤ 2 ^ 32 * 2 ^ 32 := by decide
    _ ≤ windowArea s.latch.r.toNat := Nat.mul_le_mul (by omega) (by omega)
    _ ≤ _ := windowArea_le_canvasBytes hv.1 hv.2.1 _

/-! ### The histogram counts a multiset (R48, R173, R175) -/

/-- The histogram of a multiset of bytes: bucket `b` holds how often `b` occurs, modulo `2^32`. -/
def histogramOf (M : Multiset Byte) : List Word :=
  (List.range 256).map fun b => BitVec.ofNat 32 (M.count (BitVec.ofNat 8 b))

@[simp] theorem length_histogramOf (M : Multiset Byte) : (histogramOf M).length = 256 := by simp [histogramOf]

theorem getElem?_histogramOf (M : Multiset Byte) (b : Nat) :
    (histogramOf M)[b]? = if b < 256 then some (BitVec.ofNat 32 (M.count (BitVec.ofNat 8 b))) else none := by
  simp only [histogramOf, List.getElem?_map]
  split <;> simp [*]

theorem histogramOf_zero : histogramOf 0 = emptyHistogram := by simp [histogramOf, emptyHistogram, List.map_const']

/-- The bucket of a byte is its value. -/
theorem ofNat_eq_iff {b : Nat} (hb : b < 256) (v : Byte) : BitVec.ofNat 8 b = v ↔ b = v.toNat := by
  rw [← BitVec.toNat_inj, BitVec.toNat_ofNat, Nat.mod_eq_of_lt hb]

theorem countUp_histogramOf (M : Multiset Byte) (v : Byte) : countUp (histogramOf M) v = histogramOf (v ::ₘ M) := by
  refine List.ext_getElem? fun b => ?_
  rw [countUp, getElem?_modifyCount, getElem?_histogramOf, getElem?_histogramOf]
  by_cases hb : b < 256
  · simp only [hb, if_true, Multiset.count_cons, ofNat_eq_iff hb, Option.map_some]
    split
    · rw [BitVec.ofNat_add]
    · rfl
  · simp [hb]

theorem countDown_histogramOf (M : Multiset Byte) (v : Byte) :
    countDown (histogramOf (v ::ₘ M)) v = histogramOf M := by
  refine List.ext_getElem? fun b => ?_
  rw [← countUp_histogramOf, countDown, countUp, getElem?_modifyCount, getElem?_modifyCount]
  split
  · simp [Option.map_map, Function.comp_def]
  · rfl

/-- Counting bytes in one after another adds them to the multiset. -/
theorem foldl_countUp (f : Nat → Byte) (l : List Nat) (M : Multiset Byte) :
    l.foldl (fun h k => countUp h (f k)) (histogramOf M) = histogramOf (M + (l : Multiset Nat).map f) := by
  induction l generalizing M with
  | nil => simp
  | cons k l ih =>
    rw [List.foldl_cons, countUp_histogramOf, ih, ← Multiset.cons_coe, Multiset.map_cons, Multiset.cons_add,
      Multiset.add_cons]

/-- Counting bytes out and others in, in turns, exchanges them in the multiset. -/
theorem foldl_exchange (out enter : Nat → Byte) (l : List Nat) (M : Multiset Byte) :
    l.foldl (fun h k => countUp (countDown h (out k)) (enter k)) (histogramOf (M + (l : Multiset Nat).map out)) =
      histogramOf (M + (l : Multiset Nat).map enter) := by
  induction l generalizing M with
  | nil => rfl
  | cons k l ih =>
    rw [List.foldl_cons, ← Multiset.cons_coe, Multiset.map_cons, Multiset.map_cons, Multiset.add_cons,
      countDown_histogramOf, countUp_histogramOf, ← Multiset.cons_add, ih, Multiset.add_cons, Multiset.cons_add]

/-! ### The histogram of the sweep counts the window (R173, R175) -/

section
variable (P : Nat → Nat → Byte) (r : Nat)

/-- Canvas column `px`, rows `y .. y+2r`. -/
def columnBytes (y px : Nat) : Multiset Byte := (Multiset.range (2 * r + 1)).map fun k => P (y + k) px

/-- The window of output pixel (y, x) on the canvas: columns `x .. x+2r` of rows `y .. y+2r`. -/
def windowBytes (y x : Nat) : Multiset Byte := ∑ j ∈ Finset.range (2 * r + 1), columnBytes P r y (x + j)

theorem card_windowBytes (y x : Nat) : (windowBytes P r y x).card = windowArea r := by
  simp [windowBytes, columnBytes, windowArea]

theorem columnIn_histogramOf (y px : Nat) (M : Multiset Byte) :
    columnIn P r y px (histogramOf M) = histogramOf (M + columnBytes P r y px) := foldl_countUp _ _ M

/-- The first window of an output row is counted in column by column (R173). -/
theorem windowHistogram_eq (y : Nat) : windowHistogram P r y = histogramOf (windowBytes P r y 0) := by
  suffices ∀ n, (List.range n).foldl (fun h px => columnIn P r y px h) emptyHistogram =
      histogramOf (∑ j ∈ Finset.range n, columnBytes P r y (0 + j)) from this _
  intro n
  induction n with
  | zero => exact histogramOf_zero.symm
  | succ n ih =>
    rw [List.range_succ, List.foldl_concat, ih, columnIn_histogramOf, Finset.sum_range_succ, Nat.zero_add]

/-- A slide exchanges the departing column for the entering one (R175). -/
theorem slideWindow_histogramOf (y x : Nat) :
    slideWindow P r y (x + 1) (histogramOf (windowBytes P r y x)) = histogramOf (windowBytes P r y (x + 1)) := by
  let common := ∑ j ∈ Finset.range (2 * r), columnBytes P r y (x + 1 + j)
  have hold : windowBytes P r y x = common + columnBytes P r y x := by
    rw [windowBytes, Finset.sum_range_succ', Nat.add_zero]
    simp only [common, Nat.add_right_comm x 1, Nat.add_assoc]
  have hnew : windowBytes P r y (x + 1) = common + columnBytes P r y (x + 1 + 2 * r) := Finset.sum_range_succ _ _
  rw [hold, hnew]
  exact foldl_exchange (fun k => P (y + k) x) (fun k => P (y + k) (x + 1 + 2 * r)) (List.range (2 * r + 1)) common

/-- Every byte of an output row is selected from the histogram of its own window (R174, R175). -/
theorem medianRow_eq (y n x : Nat) :
    (medianRow P r y n x (histogramOf (windowBytes P r y (x - 1)))).2 =
      (List.range' x n).map fun x => selectMedian r (histogramOf (windowBytes P r y x)) := by
  induction n generalizing x with
  | zero => rfl
  | succ n ih =>
    have hwindow : (if 0 < x then slideWindow P r y x (histogramOf (windowBytes P r y (x - 1)))
        else histogramOf (windowBytes P r y (x - 1))) = histogramOf (windowBytes P r y x) := by
      cases x with
      | zero => rfl
      | succ x => exact slideWindow_histogramOf P r y x
    have hrest := ih (x + 1)
    rw [Nat.add_sub_cancel] at hrest
    simp only [medianRow, hwindow, hrest, List.range'_succ, List.map_cons]

theorem medianRows_eq (w n y : Nat) (hist : List Word) :
    (medianRows P r w n y hist).2 =
      ((List.range' y n).map fun y => (List.range w).map fun x =>
        selectMedian r (histogramOf (windowBytes P r y x))).flatten := by
  induction n generalizing y hist with
  | zero => rfl
  | succ n ih =>
    have hrow := medianRow_eq P r y w 0
    rw [← List.range_eq_range'] at hrow
    simp only [medianRows, windowHistogram_eq, hrow, ih (y + 1), List.range'_succ, List.map_cons, List.flatten_cons]

end

/-! ### The selected bucket is the order statistic (R174) -/

/-- The scan stops at the first bucket whose cumulative count exceeds `half`. -/
theorem firstAbove_spec {half : Nat} {h : List Word} {cum : Nat} (b : Nat) (hle : cum ≤ half)
    (hlt : half < cum + (h.map BitVec.toNat).sum) :
    ∃ k, k < h.length ∧ firstAbove half h b cum = b + k ∧ cum + ((h.take k).map BitVec.toNat).sum ≤ half ∧
      half < cum + ((h.take (k + 1)).map BitVec.toNat).sum := by
  induction h generalizing b cum with
  | nil => simp at hlt; omega
  | cons n h ih =>
    rw [List.map_cons, List.sum_cons] at hlt
    by_cases hn : half < cum + n.toNat
    · exact ⟨0, by simp, by simp [firstAbove, hn], by simpa using hle, by simpa using hn⟩
    · obtain ⟨k, hk, he, h1, h2⟩ := ih (b + 1) (Nat.not_lt.1 hn) (by omega)
      refine ⟨k + 1, Nat.succ_lt_succ hk, ?_, ?_, ?_⟩
      · rw [firstAbove, if_neg hn, he]; omega
      · simpa [Nat.add_assoc] using h1
      · simpa [Nat.add_assoc] using h2

/-- The bytes up to `k` are those below `k` and those equal to `k`. -/
theorem countP_lt_succ (M : Multiset Byte) {k : Nat} (hk : k < 256) :
    M.countP (fun u => u.toNat < k + 1) = M.countP (fun u => u.toNat < k) + M.count (BitVec.ofNat 8 k) := by
  induction M using Multiset.induction with
  | empty => rfl
  | cons v M ih =>
    simp only [Multiset.countP_cons, Multiset.count_cons, ih, ofNat_eq_iff hk]
    split_ifs <;> omega

/-- The counts of the first `k` buckets sum to the number of bytes below `k`. -/
theorem sum_take_histogramOf {M : Multiset Byte} (hM : M.card < 2 ^ 32) {k : Nat} (hk : k ≤ 256) :
    (((histogramOf M).take k).map BitVec.toNat).sum = M.countP (fun u => u.toNat < k) := by
  rw [histogramOf, ← List.map_take, List.take_range, Nat.min_eq_left hk, List.map_map]
  induction k with
  | zero => simp
  | succ k ih =>
    have hcount : M.count (BitVec.ofNat 8 k) < 2 ^ 32 := (Multiset.count_le_card _ M).trans_lt hM
    rw [List.range_succ, List.map_append, List.sum_append, ih (by omega), countP_lt_succ M (by omega)]
    simpa using hcount

/-- The counts sum to the size of the multiset (R173). -/
theorem sum_histogramOf {M : Multiset Byte} (hM : M.card < 2 ^ 32) :
    ((histogramOf M).map BitVec.toNat).sum = M.card := by
  have h := sum_take_histogramOf hM le_rfl
  rwa [List.take_of_length_le (length_histogramOf M).le, Multiset.countP_eq_card.2 fun u _ => u.isLt] at h

/-- R174: the selection from the histogram of a window is the order statistic of the window. -/
theorem selectMedian_isOrderStatistic {r : Nat} {ws : List Byte} (hcard : ws.length = windowArea r)
    (hr : windowArea r < 2 ^ 32) :
    isOrderStatistic (windowArea r / 2) ws (selectMedian r (histogramOf ws)) := by
  have hM : (ws : Multiset Byte).card < 2 ^ 32 := by rwa [Multiset.coe_card, hcard]
  have hpos : 0 < windowArea r := Nat.mul_pos (by omega) (by omega)
  obtain ⟨k, hk, he, hbelow, hupto⟩ := firstAbove_spec (half := windowArea r / 2) (h := histogramOf ws) 0
    (Nat.zero_le _) (by rw [sum_histogramOf hM, Multiset.coe_card, hcard]; omega)
  rw [length_histogramOf] at hk
  rw [Nat.zero_add, sum_take_histogramOf hM (by omega)] at hbelow hupto
  have hv : (selectMedian r (histogramOf ws)).toNat = k := by
    rw [selectMedian, he, Nat.zero_add, BitVec.toNat_ofNat, Nat.mod_eq_of_lt hk]
  have hmem : 0 < (ws : Multiset Byte).count (selectMedian r (histogramOf ws)) := by
    rw [countP_lt_succ _ hk, (ofNat_eq_iff hk _).2 hv.symm] at hupto
    omega
  simp only [isOrderStatistic, BitVec.lt_def, BitVec.le_def, hv]
  simp only [Multiset.coe_countP, Nat.lt_succ_iff] at hbelow hupto
  exact ⟨Multiset.count_pos.1 hmem, hbelow, hupto⟩

/-! ### The sample MEDIAN leaves (R176) -/

/-- The clamped window of R176 read off the canvas of R172. -/
theorem medianWindow_eq_canvas (s : State) (g : Geometry) (r y x ch : Nat) :
    s.medianWindow g r y x ch = (List.range (2 * r + 1)).flatMap fun k =>
      (List.range (2 * r + 1)).map fun j => s.canvasSample g r ch (y + k) (x + j) := by
  simp only [State.medianWindow, State.canvasSample, bind_pure_comp, List.map_eq_map, List.flatMap_map, List.map_map,
    Function.comp_def, Nat.cast_add]

/-- The window the sweep counts is the clamped window of the image (R173, R176). -/
theorem windowBytes_canvasSample (s : State) (g : Geometry) (r y x ch : Nat) :
    windowBytes (s.canvasSample g r ch) r y x = s.medianWindow g r y x ch := by
  rw [medianWindow_eq_canvas, ← Multiset.coe_bind]
  exact Multiset.bind_map_comm (Multiset.range (2 * r + 1)) (Multiset.range (2 * r + 1))

theorem length_medianWindow (s : State) (g : Geometry) (r y x ch : Nat) :
    (s.medianWindow g r y x ch).length = windowArea r := by
  rw [← Multiset.coe_card, ← windowBytes_canvasSample, card_windowBytes]

/-- A channel's plane holds at each pixel the selection from the histogram of that pixel's window. -/
theorem getD_medianPlane (s : State) (g : Geometry) (r ch : Nat) {y x : Nat} (hy : y < g.h) (hx : x < g.w) :
    (s.medianPlane g r ch).getD (y * g.w + x) 0#8 = selectMedian r (histogramOf (s.medianWindow g r y x ch)) := by
  have hplane : s.medianPlane g r ch = raster g.w g.h 1 fun y x _ =>
      selectMedian r (histogramOf (s.medianWindow g r y x ch)) := by
    rw [State.medianPlane, medianRows_eq, ← List.range_eq_range', flatten_rows_eq_raster]
    simp only [windowBytes_canvasSample]
  have hidx : y * g.w + x = sampleIndex g.w 1 y x 0 := by simp [sampleIndex]
  have hlt : sampleIndex g.w 1 y x 0 < g.h * g.w * 1 := sampleIndex_lt hy hx Nat.one_pos
  rw [hplane, hidx, List.getD_eq_getElem _ _ (by rwa [length_raster]), getElem_raster _ hx Nat.one_pos]

/-- R176: a sample MEDIAN leaves is the order statistic of its clamped window. -/
theorem sampleIn_medianEffect_isOrderStatistic (s : State) {g : Geometry} {r y x ch : Nat}
    (hr : canvasBytes g r < 2 ^ 32) (hy : y < g.h) (hx : x < g.w) (hc : ch < g.c) :
    isOrderStatistic (windowArea r / 2) (s.medianWindow g r y x ch) ((medianEffect g r s).sampleIn g y x ch) := by
  rw [sampleIn_medianEffect s g r hy hx hc, getD_medianPlane s g r ch hy hx]
  exact selectMedian_isOrderStatistic (length_medianWindow ..)
    ((windowArea_le_canvasBytes (by omega) (by omega) r).trans_lt hr)

/-- Settles O35: `State.medianWindow` and `sampleIn` are the window and the addresses the statement writes out. -/
theorem medianSweepEqualsOrderStatistic : Obligations.MedianSweepEqualsOrderStatistic := by
  intro s hp hv hr hs
  refine ⟨_, execMedian_run hv hr hs, fun y x c hy hx hc => ?_, fun a ha => ?_, rfl⟩
  · exact sampleIn_medianEffect_isOrderStatistic s (g := s.latch.geometry) (hs.trans_lt (scratchBytes_lt hp)) hy hx hc
  · refine read_writeBytes_of_length s.imem ?_ ha
    rw [length_raster, Nat.mul_comm s.latch.geometry.h]; rfl

/-! ### Constant channels (R178) -/

/-- Settles O36: a successful sweep leaves a member of each window, and every member is the one value. -/
theorem medianKeepsAConstantChannel : Obligations.MedianKeepsAConstantChannel := by
  intro s t c v hp hc hconst ht y x hy hx
  obtain ⟨_, -, e⟩ | ⟨-, -, e⟩ | ⟨-, -, -, e⟩ | ⟨-, -, hs, e⟩ := execMedian_cases s <;> cases e.symm.trans ht
  · exact hconst y x hy hx
  · exact hconst y x hy hx
  · exact hconst y x hy hx
  · obtain ⟨hmem, -⟩ := sampleIn_medianEffect_isOrderStatistic s (g := s.latch.geometry)
      (hs.trans_lt (scratchBytes_lt hp)) hy hx hc
    simp only [medianWindow_eq_canvas, List.mem_flatMap, List.mem_map] at hmem
    obtain ⟨_, -, _, -, hsample⟩ := hmem
    have hh : 0 < s.latch.geometry.h := Nat.zero_lt_of_lt hy
    have hw : 0 < s.latch.geometry.w := Nat.zero_lt_of_lt hx
    exact hsample.symm.trans (hconst _ _ (clampIndex_lt hh _) (clampIndex_lt hw _))

end Sys2Proof.Machine
end

section
/-! PROOFS. How a command completes (spec/60_exceptions.md R190 to R200): the two completions, the checks that come
first, and the illegal word. -/

namespace Sys2Proof.Machine

/-! ### The two completions (R199, R200) -/

/-- The outcomes a command has from a state: a failed completion whose kind is not IllegalCommand, or its writes, which
leave STATUS alone, and a successful completion. -/
inductive CommandCompletion (s : State) : Host.Outcome State Fault Refusal → Prop where
  | failed (e : CmdError) (he : e.code ≠ 3#4) : CommandCompletion s (.next (s.failWith e))
  | succeeded (t : State) (ht : t.status = s.status) : CommandCompletion s (.next t.completeOk)

theorem geometryError_code {p : Config.Params} {g : Geometry} {e : CmdError} (h : geometryError p g = some e) :
    e.code ≠ 3#4 := by
  obtain rfl | rfl | rfl := geometryError_cases h <;> decide

theorem sigmaError_code {sg : F32} {e : CmdError} (h : sigmaError sg = some e) : e.code ≠ 3#4 := by
  obtain rfl | rfl := sigmaError_cases h <;> decide

theorem blurRun_completes (g : Geometry) (sg : F32) (s : State) : CommandCompletion s (.next (blurRun g sg s)) := by
  obtain ⟨h, -⟩ | ⟨r, -, -, ⟨-, h⟩ | ⟨-, h⟩⟩ := blurRun_cases g sg s <;> rw [h]
  · exact .failed .kernel (by decide)
  · exact .failed .scratch (by decide)
  · exact .succeeded _ rfl

/-- Every command from every state ends in a completion (R190). -/
theorem exec_completes (i : Instr) (s : State) : CommandCompletion s (exec i s) := by
  cases i with
  | blur =>
    obtain ⟨e, he, h⟩ | ⟨-, e, he, h⟩ | ⟨-, -, -, h⟩ | ⟨-, -, -, h⟩ := execBlur_cases s <;> rw [h]
    · exact .failed e (geometryError_code he)
    · exact .failed e (sigmaError_code he)
    · exact .succeeded _ rfl
    · exact blurRun_completes _ _ s
  | edges =>
    obtain ⟨e, he, h⟩ | ⟨-, -, h⟩ | ⟨-, -, h⟩ := execEdges_cases s <;> rw [h]
    · exact .failed e (geometryError_code he)
    · exact .failed .scratch (by decide)
    · exact .succeeded _ rfl
  | median =>
    obtain ⟨e, he, h⟩ | ⟨-, -, h⟩ | ⟨-, -, -, h⟩ | ⟨-, -, -, h⟩ := execMedian_cases s <;> rw [h]
    · exact .failed e (geometryError_code he)
    · exact .succeeded _ rfl
    · exact .failed .scratch (by decide)
    · exact .succeeded _ rfl
  | gray =>
    obtain ⟨e, he, h⟩ | ⟨-, h⟩ := execGray_cases s <;> rw [h]
    · exact .failed e (geometryError_code he)
    · exact .succeeded _ rfl

/-- The pair of a cause that is not IllegalCommand is one of the first seven rows of R192. -/
theorem CmdError.pair_mem {e : CmdError} (he : e.code ≠ 3#4) :
    (e.code, e.detail) ∈ [(1#4, 0x01#8), (1#4, 0x02#8), (1#4, 0x03#8), (1#4, 0x04#8), (1#4, 0x05#8), (2#4, 0x01#8),
      (2#4, 0x02#8)] := by
  revert he
  cases e <;> decide

/-- Settles O8: STATUS after the one or the other completion. -/
theorem everyCommandEndsInOneCompletion : Obligations.EveryCommandEndsInOneCompletion := by
  intro i s
  have hc := exec_completes i s
  generalize exec i s = o at hc ⊢
  cases hc with
  | failed e he => exact ⟨_, rfl, .inr ⟨e.code, e.detail, e.pair_mem he, rfl⟩⟩
  | succeeded t ht => exact ⟨_, rfl, .inl (congrArg Status.succeeded ht)⟩

/-- A command that reports an error has changed only STATUS. -/
theorem exec_failed {i : Instr} {s t : State} (h : exec i s = .next t) (he : t.status.errCode ≠ 0#4) :
    t = { s with status := t.status } := by
  have hc := exec_completes i s
  rw [h] at hc
  cases hc with
  | failed e _ => rfl
  | succeeded u _ => exact absurd rfl he

/-- Settles O9: a failed completion writes STATUS only, and a successful one has ERRCODE 0. -/
theorem failedCommandChangesOnlyStatus : Obligations.FailedCommandChangesOnlyStatus := by
  refine ⟨fun i s t => exec_failed, fun s t h he => ?_⟩
  obtain ⟨i, -, h'⟩ | ⟨e, -, h'⟩ := engineStep_cases s <;> rw [h'] at h
  · exact exec_failed h he
  · cases h; rfl

/-! ### The geometry checks (R194 to R196, R198) -/

/-- Every command makes the geometry checks before any other. -/
theorem exec_geometryError (i : Instr) {s : State} {e : CmdError}
    (h : geometryError s.params s.latch.geometry = some e) : exec i s = .next (s.failWith e) := by
  cases i with
  | blur => simp only [exec, execBlur, h]
  | edges => simp only [exec, execEdges, h]
  | median => simp only [exec, execMedian, h]
  | gray => simp only [exec, execGray, h]

theorem geometryError_empty (p : Config.Params) {g : Geometry} (h : g.w = 0 ∨ g.h = 0) :
    geometryError p g = some .empty :=
  if_pos h

theorem geometryError_channels (p : Config.Params) {g : Geometry} (hw : g.w ≠ 0) (hh : g.h ≠ 0)
    (hc : ¬(g.c = 1 ∨ g.c = 3 ∨ g.c = 4)) : geometryError p g = some .channels := by
  rw [geometryError, if_neg (not_or.2 ⟨hw, hh⟩), if_pos hc]

theorem geometryError_region {p : Config.Params} {g : Geometry} (hw : g.w ≠ 0) (hh : g.h ≠ 0)
    (hc : g.c = 1 ∨ g.c = 3 ∨ g.c = 4) (hr : p.imemBytes < g.base + g.regionBytes) :
    geometryError p g = some .region := by
  rw [geometryError, if_neg (not_or.2 ⟨hw, hh⟩), if_neg (not_not.2 hc), if_pos hr]

/-- The channel check on the latched word is the check on its number. -/
theorem channels_toNat_iff (c : Word) :
    (c.toNat = 1 ∨ c.toNat = 3 ∨ c.toNat = 4) ↔ (c = 1#32 ∨ c = 3#32 ∨ c = 4#32) := by
  simp only [← BitVec.toNat_inj, BitVec.reduceToNat]

/-- Settles O11: the three checks in their order, on the latched words as numbers. -/
theorem geometryChecksComeFirstInOrder : Obligations.GeometryChecksComeFirstInOrder := by
  intro i s
  refine ⟨fun h => exec_geometryError i (geometryError_empty _ ?_), fun hw hh => ⟨fun ⟨h1, h3, h4⟩ => ?_,
    fun hc hr => ?_⟩⟩
  · exact h.imp (congrArg BitVec.toNat) (congrArg BitVec.toNat)
  · refine exec_geometryError i (geometryError_channels _ (toNat_ne_zero hw) (toNat_ne_zero hh) fun hc => ?_)
    exact ((channels_toNat_iff s.latch.c).1 hc).elim h1 fun hc => hc.elim h3 h4
  · exact exec_geometryError i
      (geometryError_region (toNat_ne_zero hw) (toNat_ne_zero hh) ((channels_toNat_iff s.latch.c).2 hc) hr)

/-! ### The illegal word (R93, R193) -/

theorem engineStep_illegal {s : State} {e : DecodeError} (h : decode s.latch.cmd = .error e) :
    s.engineStep = .next (s.failWith (illegalCause e)) := by
  simp only [State.engineStep, h]

/-- Settles O6: the turn is ENGINE's, and each decode error is its cause. -/
theorem illegalWordCompletesWithIllegalCommand : Obligations.IllegalWordCompletesWithIllegalCommand := by
  intro s ts hb hturn
  have hfail {e : DecodeError} (h : decode s.latch.cmd = .error e) :
      step s = .next (({ s with sched := ts } : State).failWith (illegalCause e)) :=
    (step_of_engineTurn hb hturn).trans (engineStep_illegal (s := { s with sched := ts }) h)
  exact ⟨hfail, hfail⟩

end Sys2Proof.Machine
end

section
/-! PROOFS. HOST against the machine: the accesses that are refused (spec/60_exceptions.md R203), a HOST that never
stops the model (log 6, log 7), and a running command, which no HOST event affects (R203, R224). -/

namespace Sys2Proof.Machine

/-! ### Refused accesses (R203) -/

/-- The four refusals of the address map, (a) to (d). -/
theorem reach_refused {s : State} {w : Width} {o : Nat}
    (h : (o < imemWindow ∧ (w ≠ .w4 ∨ o % 4 ≠ 0)) ∨ (imemWindow ≤ o ∧ o % w.bytes ≠ 0) ∨
      (imemWindow + s.params.imemBytes ≤ o) ∨ (imemWindow ≤ o ∧ s.status.busy = true)) :
    s.reach w o = .refused := by
  obtain ⟨ho, hw⟩ | ⟨ho, hw⟩ | ho | ⟨ho, hb⟩ := h
  · exact reach_register_window_refused s ho hw
  · exact reach_misaligned s ho hw
  · exact reach_unmapped s ho
  · exact reach_busy s ho hb

/-- Settles O43: the access is refused in each of the four cases, and a refusal is one state. -/
theorem refusedAccessesOnlySetHosterr : Obligations.RefusedAccessesOnlySetHosterr := by
  intro s w o v h
  have hreach : s.reach w o = .refused := reach_refused (h.imp_right (Or.imp_right (Or.imp_left And.left)))
  exact ⟨hostRead_refused hreach, hostWrite_refused hreach v⟩

/-- Settles O44: the seven offsets are those of the busy-locked registers. -/
theorem busyLockedWritesAreRefused : Obligations.BusyLockedWritesAreRefused := by
  intro s v o hb ho
  have hlocked (r : Reg) (hr : r.busyLocked = true) : s.hostWrite .w4 r.offset v = s.refuse :=
    hostWrite_reg_locked hb hr v
  simp only [List.mem_cons, List.not_mem_nil, or_false] at ho
  obtain rfl | rfl | rfl | rfl | rfl | rfl | rfl := ho
  · exact hlocked .cmd rfl
  · exact hlocked .imgBase rfl
  · exact hlocked .imgWidth rfl
  · exact hlocked .imgHeight rfl
  · exact hlocked .imgChannels rfl
  · exact hlocked .sigma rfl
  · exact hlocked .medRadius rfl

/-! ### HOST's turn as an access and a move of HOST (R96) -/

/-- What one statement does to the block: nothing, one read, or one write. -/
inductive State.Accessed (s : State) : State → Prop where
  | nothing : State.Accessed s s
  | read (w : Width) (o : Nat) : State.Accessed s (s.hostRead w o).2
  | write (w : Width) (o : Nat) (v : Word) : State.Accessed s (s.hostWrite w o v)

/-- A turn of HOST from `s` to `t`: at most one access, and a move of HOST, which keeps its script. -/
def State.HostMoved (s t : State) : Prop :=
  ∃ u a, s.Accessed u ∧ t = { u with host := a } ∧ a.script = s.host.script

theorem hostBranch_moved {l : Label} {s t : State} (h : s.hostBranch l = .next t) : s.HostMoved t := by
  cases hl : labelPosition l s.host.script with
  | none => cases (hostBranch_undefined hl).symm.trans h
  | some k =>
    cases (hostBranch_defined hl).symm.trans h
    exact ⟨s, _, .nothing, rfl, rfl⟩

theorem hostStmt_moved {st : Stmt} {s t : State} (h : s.hostStmt st = .next t) : s.HostMoved t := by
  cases st with
  | wr w a v =>
    simp only [State.hostStmt] at h
    split at h <;> cases h
    exact ⟨_, _, .write w _ v, rfl, rfl⟩
  | rd w a x =>
    simp only [State.hostStmt] at h
    split at h <;> cases h
    exact ⟨_, _, .read w _, rfl, rfl⟩
  | label l => cases h; exact ⟨s, _, .nothing, rfl, rfl⟩
  | bnz x m l =>
    simp only [State.hostStmt] at h
    split at h
    · exact hostBranch_moved h
    · cases h; exact ⟨s, _, .nothing, rfl, rfl⟩
  | branch l => exact hostBranch_moved h
  | halt => cases h; exact ⟨s, _, .nothing, rfl, rfl⟩

theorem hostTurn_moved {s t : State} (h : s.hostTurn = .next t) : s.HostMoved t := by
  unfold State.hostTurn at h
  split at h
  · exact hostStmt_moved h
  · cases h; exact ⟨s, s.host, .nothing, rfl, rfl⟩

/-! ### A safe HOST (log 6, log 7) -/

/-- Safety of HOST depends on its script and on where the block lies. -/
theorem hostSafe_congr {s t : State} (hscript : t.host.script = s.host.script) (hparams : t.params = s.params)
    (h : s.HostSafe) : t.HostSafe := by
  unfold State.HostSafe
  rwa [hscript, hparams]

/-- The label a statement branches to. -/
def Stmt.BranchesTo (l : Label) (st : Stmt) : Prop := st = .branch l ∨ ∃ x m, st = .bnz x m l

theorem mem_branchTargets {sc : List Stmt} {st : Stmt} {l : Label} (hl : st.BranchesTo l) (h : st ∈ sc) :
    l ∈ branchTargets sc := by
  induction sc with
  | nil => cases h
  | cons head rest ih =>
    cases h with
    | head => obtain rfl | ⟨x, m, rfl⟩ := hl <;> exact List.mem_cons_self
    | tail _ h =>
      have hrest := ih h
      cases head with
      | wr _ _ _ | rd _ _ _ | label _ | halt => exact hrest
      | bnz _ _ _ | branch _ => exact List.mem_cons_of_mem _ hrest

/-- A branch of a safe script finds its label. -/
theorem hostBranch_safe {s : State} (hs : s.HostSafe) {st : Stmt} {l : Label} (hl : st.BranchesTo l)
    (h : st ∈ s.host.script) : ∃ t, s.hostBranch l = .next t := by
  obtain ⟨-, hall⟩ := Bool.and_eq_true_iff.1 hs.1
  obtain ⟨k, hk⟩ := Option.isSome_iff_exists.1 (List.all_eq_true.1 hall l (mem_branchTargets hl h))
  exact ⟨_, hostBranch_defined hk⟩

/-- A statement of a safe script answers a next state. -/
theorem hostStmt_safe {s : State} (hs : s.HostSafe) {st : Stmt} (h : st ∈ s.host.script) :
    ∃ t, s.hostStmt st = .next t := by
  have hin : st.inBlock s.params = true := List.all_eq_true.1 hs.2 st h
  cases st with
  | wr w a v =>
    obtain ⟨o, ho⟩ := Option.isSome_iff_exists.1 hin
    exact ⟨_, hostStmt_wr s s.sched v ho⟩
  | rd w a x =>
    obtain ⟨o, ho⟩ := Option.isSome_iff_exists.1 hin
    exact ⟨_, hostStmt_rd s s.sched x ho⟩
  | label l => exact ⟨_, rfl⟩
  | bnz x m l =>
    by_cases hz : s.host.var x &&& m = 0#32
    · exact ⟨_, hostStmt_bnz_zero hz l⟩
    · rw [hostStmt_bnz_nonzero hz]
      exact hostBranch_safe hs (.inr ⟨x, m, rfl⟩) h
  | branch l => exact hostBranch_safe hs (.inl rfl) h
  | halt => exact ⟨_, rfl⟩

/-- HOST's turn keeps a safe HOST safe. -/
theorem hostTurn_safe {s : State} (hs : s.HostSafe) : ∃ t, s.hostTurn = .next t ∧ t.HostSafe := by
  have hnext : ∃ t, s.hostTurn = .next t := by
    unfold State.hostTurn HostAgent.current
    split
    · next st hst =>
      split at hst
      · cases hst
      · exact hostStmt_safe hs (List.mem_of_getElem? hst)
    · exact ⟨s, rfl⟩
  obtain ⟨t, ht⟩ := hnext
  refine ⟨t, ht, hostSafe_congr ?_ (hostTurn_params ht) hs⟩
  obtain ⟨u, a, -, rfl, ha⟩ := hostTurn_moved ht
  exact ha

theorem engineStep_next (s : State) : ∃ t, s.engineStep = .next t := by
  obtain ⟨i, -, h⟩ | ⟨e, -, h⟩ := engineStep_cases s <;> rw [h]
  · exact exec_next i s
  · exact ⟨_, rfl⟩

/-- ENGINE does not touch HOST. -/
theorem engineStep_host {s t : State} (h : s.engineStep = .next t) : t.host = s.host := by
  obtain ⟨i, -, h'⟩ | ⟨e, -, h'⟩ := engineStep_cases s <;> rw [h'] at h
  · exact (congrArg State.host (exec_frame h).rest :)
  · cases h; rfl

@[simp] theorem warmReset_host (s : State) : s.warmReset.host = s.host := by
  unfold State.warmReset; split <;> simp

/-- Every turn keeps a safe HOST safe, and answers a next state. -/
theorem takeTurn_safe (u : Turn) {s : State} (hs : s.HostSafe) : ∃ t, s.takeTurn u = .next t ∧ t.HostSafe := by
  cases u with
  | host => exact hostTurn_safe hs
  | engine =>
    simp only [State.takeTurn, State.engineTurn]
    split
    · obtain ⟨t, ht⟩ := engineStep_next s
      exact ⟨t, ht, hostSafe_congr (congrArg HostAgent.script (engineStep_host ht)) (engineStep_params ht) hs⟩
    · exact ⟨s, rfl, hs⟩
  | reset =>
    exact ⟨_, rfl, hostSafe_congr (congrArg HostAgent.script (warmReset_host s)) (warmReset_params s) hs⟩
  | powerOn => exact ⟨_, rfl, hs⟩

/-- Settles O56: a step is the next turn, and the schedule is no part of HOST. -/
theorem safeHostNeverStopsTheMachine : Obligations.SafeHostNeverStopsTheMachine := by
  intro s hs
  refine takeTurn_safe s.nextTurn.1 (hostSafe_congr ?_ (nextTurn_params s) hs)
  unfold State.nextTurn
  split <;> rfl

/-! ### HOST's side of the state

While a command runs, HOST's turns write only what ENGINE neither reads nor writes. -/

/-- What HOST's turns can change while BUSY: HOST itself, IRQ_EN and HOSTERR; and the schedule, which gives the turns. -/
structure HostSide where
  host : HostAgent
  irqEn : Bool
  hostErr : Bool
  sched : List Turn

/-- The state with another HOST's side. -/
def State.withHostSide (a : HostSide) (s : State) : State :=
  { s with host := a.host, irqEn := a.irqEn, sched := a.sched, status := { s.status with hostErr := a.hostErr } }

section
variable (a : HostSide) (s : State)

theorem blurRun_withHostSide (g : Geometry) (sg : F32) :
    blurRun g sg (s.withHostSide a) = (blurRun g sg s).withHostSide a := by
  have hparams : (s.withHostSide a).params = s.params := rfl
  simp only [blurRun, hparams]
  split
  · rfl
  · split
    · rfl
    · split <;> rfl

/-- A command carries HOST's side along and does the same to the rest. -/
theorem exec_withHostSide (i : Instr) :
    ∃ t, exec i s = .next t ∧ exec i (s.withHostSide a) = .next (t.withHostSide a) := by
  have hparams : (s.withHostSide a).params = s.params := rfl
  have hlatch : (s.withHostSide a).latch = s.latch := rfl
  cases i with
  | blur =>
    simp only [exec, execBlur, hparams, hlatch, blurRun_withHostSide]
    split
    · exact ⟨_, rfl, rfl⟩
    · split
      · exact ⟨_, rfl, rfl⟩
      · split <;> exact ⟨_, rfl, rfl⟩
  | edges =>
    simp only [exec, execEdges, hparams, hlatch]
    split
    · exact ⟨_, rfl, rfl⟩
    · split <;> exact ⟨_, rfl, rfl⟩
  | median =>
    simp only [exec, execMedian, hparams, hlatch]
    split
    · exact ⟨_, rfl, rfl⟩
    · split
      · exact ⟨_, rfl, rfl⟩
      · split <;> exact ⟨_, rfl, rfl⟩
  | gray =>
    simp only [exec, execGray, hparams, hlatch]
    split <;> exact ⟨_, rfl, rfl⟩

theorem engineStep_withHostSide :
    ∃ t, s.engineStep = .next t ∧ (s.withHostSide a).engineStep = .next (t.withHostSide a) := by
  have hlatch : (s.withHostSide a).latch = s.latch := rfl
  simp only [State.engineStep, hlatch]
  split
  · exact exec_withHostSide a s _
  · exact ⟨_, rfl, rfl⟩

end

/-- An access of a running machine reaches HOST's side only: DONE and ERR have nothing to clear (R33, R69, R203). -/
theorem accessed_busy {s u : State} (h : s.Inv) (hb : s.status.busy = true) (hu : s.Accessed u) :
    ∃ irqEn hostErr, u = s.withHostSide ⟨s.host, irqEn, hostErr, s.sched⟩ := by
  have hrefuse : s.refuse = s.withHostSide ⟨s.host, s.irqEn, true, s.sched⟩ := rfl
  have hself : s = s.withHostSide ⟨s.host, s.irqEn, s.status.hostErr, s.sched⟩ := rfl
  cases hu with
  | nothing => exact ⟨_, _, hself⟩
  | read w o =>
    obtain hr | hr := hostRead_state_cases s w o <;> rw [hr]
    · exact ⟨_, _, hself⟩
    · exact ⟨_, _, hrefuse⟩
  | write w o v =>
    obtain ⟨hd, he, -⟩ := legal_busy h.status hb
    have hack :
        s.acknowledge v = s.withHostSide ⟨s.host, s.irqEn, s.status.hostErr && !v.getLsbD 3, s.sched⟩ := by
      simp only [State.acknowledge, State.withHostSide, hd, he, Bool.false_and]
    obtain hw | hw | hw | hw | ⟨hi, -⟩ | ⟨hi, -⟩ | ⟨hi, -⟩ := hostWrite_cases s w o v
    · exact ⟨_, _, hw.trans hrefuse⟩
    · exact ⟨_, _, hw.trans hself⟩
    · exact ⟨_, _, hw.trans hack⟩
    · exact ⟨_, _, hw⟩
    all_goals exact absurd (hb.symm.trans hi) (by decide)

/-- HOST's turn beside a running command moves HOST's side only. -/
theorem hostTurn_busy {s t : State} (h : s.Inv) (hb : s.status.busy = true) (ht : s.hostTurn = .next t) :
    ∃ host irqEn hostErr, t = s.withHostSide ⟨host, irqEn, hostErr, s.sched⟩ := by
  obtain ⟨u, a, hu, rfl, -⟩ := hostTurn_moved ht
  obtain ⟨irqEn, hostErr, rfl⟩ := accessed_busy h hb hu
  exact ⟨a, irqEn, hostErr, rfl⟩

/-! ### A run of HOST turns and ENGINE's after them (R224) -/

theorem run_succ {s t : State} (h : step s = .next t) (k : Nat) :
    Host.Core.run core (k + 1) s = Host.Core.run core k t := by
  have hstep : core.step s = .next t := h
  simp only [Host.Core.run, hstep]

/-- After `k` HOST turns ENGINE's step has the result it would have had at once, but for HOST's side. -/
theorem run_hostTurns (k : Nat) {s : State} (h : s.Inv) (hs : s.HostSafe) (hb : s.status.busy = true)
    (hsched : s.sched = List.replicate k .host) :
    ∃ t a, s.engineStep = .next t ∧ Host.Core.run core (k + 1) s = .next (t.withHostSide a) := by
  induction k generalizing s with
  | zero =>
    obtain ⟨t, ht⟩ := engineStep_next s
    have hstep : step s = .next t := (step_of_engineTurn (ts := s.sched) hb (.inr ⟨hsched, hsched⟩)).trans ht
    exact ⟨t, ⟨t.host, t.irqEn, t.status.hostErr, t.sched⟩, ht, run_succ hstep 0⟩
  | succ k ih =>
    have h' : ({ s with sched := List.replicate k .host } : State).Inv := Inv_sched h _
    obtain ⟨u, hu, hus⟩ := hostTurn_safe (s := { s with sched := List.replicate k .host }) hs
    have hstep : step s = .next u := (step_of_sched_cons hsched).trans hu
    have hui := Inv_hostTurn h' hu
    obtain ⟨host, irqEn, hostErr, rfl⟩ := hostTurn_busy h' hb hu
    obtain ⟨t, ht, htu⟩ := engineStep_withHostSide ⟨host, irqEn, hostErr, List.replicate k .host⟩ s
    obtain ⟨_, a', ht', hrun⟩ := ih hui hus hb rfl
    cases htu.symm.trans ht'
    exact ⟨t, a', ht, (run_succ hstep (k + 1)).trans hrun⟩

/-- After ENGINE's step the phase is IDLE (R199, R200). -/
theorem engineStep_idle {s t : State} (h : s.engineStep = .next t) : t.status.busy = false := by
  obtain ⟨i, -, h'⟩ | ⟨e, -, h'⟩ := engineStep_cases s <;> rw [h'] at h
  · have hc := exec_completes i s
    rw [h] at hc
    cases hc <;> rfl
  · cases h; rfl

/-- Settles O57: what the statement compares lies outside HOST's side. -/
theorem hostNeverAffectsARunningCommand : Obligations.HostNeverAffectsARunningCommand := by
  intro k s h hs hb hsched
  obtain ⟨t₀, _, ht₀, hrun⟩ := run_hostTurns k h hs hb hsched
  have hidle := engineStep_idle ht₀
  exact ⟨t₀, _, ht₀, hrun, rfl, rfl, rfl, rfl, hidle, rfl, rfl, rfl, rfl⟩

end Sys2Proof.Machine
end

section
/-! PROOFS. Reset, asserted while powered and at power-on (spec/70_reset_and_hazards.md R220 to R222, spec/10_state.md
R53), ENGINE's turn (R224), and what HOST sees of a running command (R230). -/

namespace Sys2Proof.Machine

/-! ### The registers after a reset (R53, R220) -/

/-- The registers that reset puts to 0: all but ID and the capability registers (R53). -/
def Reg.zeroAtReset : List Reg :=
  [.status, .ctrl, .cmd, .imgBase, .imgWidth, .imgHeight, .imgChannels, .sigma, .medRadius, .kradius]

theorem readReg_resetWith (p : Config.Params) (draw : Nat) :
    ∀ r ∈ Reg.zeroAtReset, (State.resetWith p draw).readReg r = 0#32 := by
  simp only [Reg.zeroAtReset, List.forall_mem_cons]
  exact ⟨(by decide : Status.reset.word = 0#32), ctrlWord_eq false, rfl, rfl, rfl, rfl, rfl, rfl, rfl, rfl,
    List.forall_mem_nil _⟩

/-- A reset while powered and a power-on reset leave the same registers. -/
theorem readReg_resetRegisters (s : State) (draw : Nat) (r : Reg) :
    s.resetRegisters.readReg r = (State.resetWith s.params draw).readReg r := by cases r <;> rfl

theorem readReg_powerOnReset (s : State) (r : Reg) :
    s.powerOnReset.readReg r = (State.resetWith s.params s.freeNext).readReg r := by cases r <;> rfl

/-- Settles O51: the state is that of `State.resetWith`, but for HOST and the schedule. -/
theorem powerOnResetLeavesTheResetTable : Obligations.PowerOnResetLeavesTheResetTable := fun _ _ h =>
  ⟨_, step_of_sched_cons h, rfl, rfl, rfl, rfl, rfl, rfl, rfl,
    fun r hr => (readReg_powerOnReset _ r).trans (readReg_resetWith _ _ r hr), rfl, rfl, rfl⟩

/-! ### A reset while powered (R221, R222) -/

theorem imem_warmReset_idle {s : State} (hb : s.status.busy = false) : s.warmReset.imem = s.imem := by
  rw [State.warmReset, hb]; rfl

theorem imem_warmReset_running {s : State} (hb : s.status.busy = true) :
    s.warmReset.imem = s.imem.writeBytes s.latch.base.toNat s.abandonedBytes := by
  rw [State.warmReset, hb]; rfl

@[simp] theorem warmReset_status (s : State) : s.warmReset.status = Status.reset := by
  unfold State.warmReset; split <;> rfl

theorem irq_warmReset (s : State) : s.warmReset.irq = false := by
  unfold State.warmReset; split <;> rfl

theorem readReg_warmReset (s : State) {r : Reg} (hr : r ∈ Reg.zeroAtReset) : s.warmReset.readReg r = 0#32 := by
  unfold State.warmReset
  split <;> exact (readReg_resetRegisters _ 0 r).trans (readReg_resetWith _ 0 r hr)

theorem outputLength_region {l : Latch} (h : decode l.cmd = .ok .blur ∨ decode l.cmd = .ok .median) :
    l.outputLength = l.w.toNat * l.h.toNat * l.c.toNat := by
  obtain h | h := h <;> simp only [Latch.outputLength, h]

theorem outputLength_plane {l : Latch} (h : decode l.cmd = .ok .edges ∨ decode l.cmd = .ok .gray) :
    l.outputLength = l.w.toNat * l.h.toNat := by
  obtain h | h := h <;> simp only [Latch.outputLength, h]

/-- An illegal word has no output range (R95; log 11). -/
theorem outputLength_illegal {l : Latch} {e : DecodeError} (h : decode l.cmd = .error e) : l.outputLength = 0 := by
  simp only [Latch.outputLength, h]

/-- A reset of a running machine leaves every byte outside the output range of the abandoned command (R222). -/
theorem read_imem_warmReset {s : State} (hb : s.status.busy = true) {a : Nat}
    (ha : a < s.latch.base.toNat ∨ s.latch.base.toNat + s.latch.outputLength ≤ a) :
    s.warmReset.imem.read a = s.imem.read a := by
  rw [imem_warmReset_running hb]
  refine read_writeBytes_outside _ _ _ _ (ha.imp_right fun h => ?_)
  rw [length_abandonedBytes]
  omega

/-- Settles O52: each command's range has the length that the model frees, and an illegal word's has length 0. -/
theorem resetKeepsImemOutsideTheAbandonedRange : Obligations.ResetKeepsImemOutsideTheAbandonedRange := by
  intro s ts h
  have read_outside (hb : s.status.busy = true) {n : Nat} (hn : s.latch.outputLength = n) (a : Nat)
      (ha : a < s.latch.base.toNat ∨ s.latch.base.toNat + n ≤ a) :
      ({ s with sched := ts } : State).warmReset.imem.read a = s.imem.read a :=
    read_imem_warmReset (s := { s with sched := ts }) hb (hn ▸ ha)
  refine ⟨_, step_of_sched_cons h, warmReset_params _, congrArg Status.busy (warmReset_status _), irq_warmReset _,
    fun _ hr => readReg_warmReset _ hr, fun hb => imem_warmReset_idle (s := { s with sched := ts }) hb,
    fun hb => ⟨fun hd => ?region, fun hd => ?plane, fun ⟨e, hd⟩ a => ?illegal⟩⟩
  case region => exact read_outside hb (outputLength_region hd)
  case plane => exact read_outside hb (outputLength_plane hd)
  case illegal => exact read_outside hb (outputLength_illegal hd) a (Nat.lt_or_ge a _)

/-! ### ENGINE's turn (R93, R224) -/

theorem engineStep_legal {s : State} {i : Instr} (h : decode s.latch.cmd = .ok i) : s.engineStep = exec i s := by
  simp only [State.engineStep, h]

/-- Settles O4: the turn is ENGINE's, scheduled or by default, and a legal word is run. -/
theorem engineStepRunsTheDecodedCommand : Obligations.EngineStepRunsTheDecodedCommand := fun s _ hb hd =>
  ⟨fun ts h => (step_of_engineTurn hb (.inl h)).trans (engineStep_legal (s := { s with sched := ts }) hd),
    fun h => (step_of_engineTurn (ts := s.sched) hb (.inr ⟨h, h⟩)).trans (engineStep_legal hd)⟩

/-! ### What HOST sees of a running command (R69, R230) -/

/-- The STATUS word of a running command shows BUSY, and HOSTERR as it is (R33). -/
theorem word_running {st : Status} (h : st.legal = true) (hb : st.busy = true) :
    st.word = if st.hostErr then 0x00000009#32 else 0x00000001#32 := by
  obtain ⟨hd, he, hc, hdt⟩ := legal_busy h hb
  rw [Status.word, hb, hd, he, hc, hdt]
  cases st.hostErr <;> rfl

/-- IRQ is 0 while a command runs: its DONE and ERR are clear. -/
theorem irq_running {s : State} (h : s.Inv) (hb : s.status.busy = true) : s.irq = false := by
  obtain ⟨hd, he, -⟩ := legal_busy h.status hb
  rw [State.irq, hd, he, Bool.or_false, Bool.and_false]

/-- Settles O47: the live registers are the latched ones, and no access of the IMEM window gets through. -/
theorem runningCommandShowsNothing : Obligations.RunningCommandShowsNothing := by
  intro s h hb
  have read (r : Reg) : (s.hostRead .w4 r.offset).1 = s.readReg r := congrArg Prod.fst (hostRead_reg s r)
  rw [h.latched hb]
  exact ⟨(read .status).trans (word_running h.status hb), irq_running h hb, read .cmd, read .imgBase, read .imgWidth,
    read .imgHeight, read .imgChannels, read .sigma, read .medRadius,
    fun _ a => congrArg Prod.fst (hostRead_refused (reach_busy s (Nat.le_add_right imemWindow a) hb))⟩

end Sys2Proof.Machine
end

section
/-! PROOFS. The loading function (log 15) and the turns that have no event (log 3, log 4). -/

namespace Sys2Proof.Machine

/-! ### The loaded command word (R33, R46) -/

/-- All 32 bits of a command word are loaded. -/
theorem withFetchWord_toNat (s : State) (v : Word) : s.withFetchWord 32 v.toNat = s.loadCommand v := by
  rw [State.withFetchWord, Nat.mod_eq_of_lt v.isLt, BitVec.ofNat_toNat, BitVec.setWidth_eq]

/-- After a load ENGINE's turn is next, in the state that the CMD write of the word would leave. -/
theorem step_loadCommand (s : State) (v : Word) : step (s.loadCommand v) = (s.startCommand v).engineStep :=
  step_of_engineTurn (s := s.loadCommand v) (ts := s.sched) rfl (.inl rfl)

/-- Settles O5: the word is loaded whole, the turn is ENGINE's, and the latched word decodes to the command. -/
theorem loadedWordIsRunByTheNextStep : Obligations.LoadedWordIsRunByTheNextStep := by
  intro s i
  calc step (s.withFetchWord 32 (encode i).toNat)
      = step (s.loadCommand (encode i)) := congrArg step (withFetchWord_toNat s (encode i))
    _ = (s.startCommand (encode i)).engineStep := step_loadCommand s (encode i)
    _ = exec i (s.startCommand (encode i)) := engineStep_legal (decode_encode i)

/-! ### Turns without an event -/

/-- In IDLE there is no ENGINE event (R51; log 3). -/
theorem engineTurn_idle {s : State} (hb : s.status.busy = false) : s.engineTurn = .next s :=
  if_neg (Bool.eq_false_iff.1 hb)

/-- A script that has ended has no next statement (log 4). -/
theorem hostTurn_ended {s : State} (hc : s.host.current = none) : s.hostTurn = .next s := by
  simp only [State.hostTurn, hc]

/-- Settles O7: ENGINE's turn in IDLE, HOST's scheduled turn, and HOST's turn on the empty schedule. -/
theorem turnWithoutAnEventChangesNothing : Obligations.TurnWithoutAnEventChangesNothing := by
  intro s ts
  refine ⟨fun hb h => ?engine, fun hc h => ?host, fun hb hc h => ?empty⟩
  case engine => exact (step_of_sched_cons h).trans (engineTurn_idle (s := { s with sched := ts }) hb)
  case host => exact (step_of_hostTurn (.inl h)).trans (hostTurn_ended (s := { s with sched := ts }) hc)
  case empty => exact (step_of_hostTurn (ts := s.sched) (.inr ⟨h, h, hb⟩)).trans (hostTurn_ended hc)

end Sys2Proof.Machine
end
